-- ==== Sys2Proof/Word.lean ====
section
/-! DEFINITION. The two bit-vector types of the spec: a byte (20_memory.md R60) and a 64-bit word (00_scope.md R15). -/

namespace Sys2Proof

/-- A byte is 8 bits (R60). -/
abbrev Byte := BitVec 8

/-- A word is 64 bits; bit 63 is the most significant (R15). -/
abbrev Word := BitVec 64

end Sys2Proof
end

