-- ==== Sys2Proof/Config.lean ====
section
/-! DEFINITION. What an implementation fixes and what the spec leaves open: the parameters of 00_scope.md R14, the
constant tables as configuration fields (10_state.md R22; their contents stand in Machine/Tables.lean), and the free value of a
buffer byte that nothing has written since reset (10_state.md R48, 70_reset_and_hazards.md R261). -/

namespace Sys2Proof

/-- The three byte buffers whose contents after reset are unspecified (R42, R43, R44). -/
inductive Buf where
  | ad | din | dout
  deriving DecidableEq, Repr

/-- A row of ROT: the two right-rotation amounts of one word (R12), each between 1 and 63 in the spec (R15); for others
see log entry 20. -/
structure RotPair where
  fst : Nat
  snd : Nat
  deriving DecidableEq, Repr

/-- The table ROT, one pair a word (R12). -/
structure RotTable where
  w0 : RotPair
  w1 : RotPair
  w2 : RotPair
  w3 : RotPair
  w4 : RotPair
  deriving DecidableEq, Repr

/-- A key length (R10): the two that the key positions of 41_sponge.md R134 and R136 are written for. -/
inductive KeySize where
  | k16 | k20
  deriving DecidableEq, Repr

/-- A rate (R10, R11): the two that the rate lanes of 20_memory.md R63 are written for. -/
inductive Rate where
  | r8 | r16
  deriving DecidableEq, Repr

/-- A row of the table VAR (R10). A round count is at most 12, the length of RC (log entry 18). With a 20-byte key
the initial value has 32 bits; for a wider one see log entry 20. -/
structure AeadRow where
  key : KeySize
  rate : Rate
  a : Fin 13
  b : Fin 13
  iv : Word
  deriving DecidableEq, Repr

/-- A row of the table HVAR (R11), of rate 8 in the spec; for rate 16 see log entry 20. -/
structure HashRow where
  rate : Rate
  a : Fin 13
  b : Fin 13
  iv : Word
  deriving DecidableEq, Repr

/-- The constant tables RC, ROT, VAR and HVAR as configuration fields (10_state.md R22, 00_scope.md R10 to R13): another
table can be put in place of the spec's, such as the document's ROT (R12, log entry 18). -/
structure Tables where
  /-- RC, index 0 to 11 (R13), the upper 56 bits zero in the spec; for others see log entry 20. -/
  rc : Vector Word 12
  /-- ROT (R12). -/
  rot : RotTable
  /-- VAR[0], Ascon-128 (R10). -/
  v128 : AeadRow
  /-- VAR[1], Ascon-128a (R10). -/
  v128a : AeadRow
  /-- VAR[2], Ascon-80pq (R10). -/
  v80pq : AeadRow
  /-- HVAR[0], Ascon-Hash (R11). -/
  hash : HashRow
  /-- HVAR[1], Ascon-HashA (R11). -/
  hasha : HashRow
  deriving DecidableEq, Repr

/-- What is fixed for a machine: the open parameters of R14 that a model takes as arguments, where `none` is an unbounded
capacity, and the constant tables. -/
structure Params where
  /-- LENW, the width in bits of the length registers. -/
  lenw : Nat
  /-- AD_CAP, the capacity in bytes of AD. -/
  adCap : Option Nat
  /-- D_CAP, the capacity in bytes of DIN and of DOUT. -/
  dCap : Option Nat
  /-- RC, ROT, VAR, HVAR (R22). -/
  tables : Tables
  deriving DecidableEq, Repr

/-- The parameters of an AEAD command (R10), from its row: key length and rate in bytes, the two round counts, the
initial value. -/
structure AeadParams where
  k : Nat
  r : Nat
  a : Nat
  b : Nat
  iv : Word
  deriving DecidableEq, Repr

/-- The parameters of a hash command (R11), from its row. -/
structure HashParams where
  r : Nat
  a : Nat
  b : Nat
  iv : Word
  deriving DecidableEq, Repr

/-- FREE VALUE (log entry 1): what byte `idx` of a buffer of copy number `copy` of the block holds after that copy's reset
number `epoch` when nothing has written it since. R48 calls it "unspecified, any value per byte", U7 says it is fixed at
reset, and each copy has its own (R77, R238), so it depends on the copy, the buffer, the reset and the index and on
nothing else; that two copies hold the same bytes follows from nothing (log entry 17). It has no body: every statement
holds whatever it is. -/
opaque Config.freeByte (copy : Nat) (buf : Buf) (epoch idx : Nat) : Byte

end Sys2Proof
end

