-- ==== Sys2Proof/Syntax.lean ====
section
/-! DEFINITION. The commands of the block: one constructor of `Instr` per row of spec/opcode_table.json
(30_encoding.md R92 to R96), with the mnemonics of R99 and the pseudo-instructions of R100. -/

namespace Sys2Proof

/-- The direction of the duplex: encryption or decryption (R177). -/
inductive Dir where
  | enc | dec
  deriving DecidableEq, Repr

/-- The AEAD variants, the rows of VAR in the order of their argument 0, 1, 2 (R10, R94). -/
inductive AeadVariant where
  | v128 | v128a | v80pq
  deriving DecidableEq, Repr

/-- The hash variants, the rows of HVAR in the order of their argument 0, 1 (R11, R95). -/
inductive HashVariant where
  | hash | hasha
  deriving DecidableEq, Repr

/-- The commands. PERM carries its 4-bit argument, the round count, as the command word holds it (R93); the other
eight rows of the opcode table have no field. -/
inductive Instr where
  /-- PERM r, word 0x10 + r (R118). -/
  | perm (r : BitVec 4)
  /-- ENC.128, word 0x20 (R171). -/
  | enc128
  /-- ENC.128A, word 0x21 (R172). -/
  | enc128a
  /-- ENC.80PQ, word 0x22 (R173). -/
  | enc80pq
  /-- DEC.128, word 0x30 (R174). -/
  | dec128
  /-- DEC.128A, word 0x31 (R175). -/
  | dec128a
  /-- DEC.80PQ, word 0x32 (R176). -/
  | dec80pq
  /-- HASH, word 0x40 (R191). -/
  | hash
  /-- HASHA, word 0x41 (R192). -/
  | hasha
  deriving DecidableEq, Repr

/-- PA is PERM 12 (R100). -/
def Instr.pa : Instr := .perm 12
/-- PB6 is PERM 6 (R100). -/
def Instr.pb6 : Instr := .perm 6
/-- PB8 is PERM 8 (R100). -/
def Instr.pb8 : Instr := .perm 8

/-- The mnemonic of a command's row of the opcode table (R99). -/
def Instr.mnemonic : Instr → String
  | .perm _ => "PERM"
  | .enc128 => "ENC.128"
  | .enc128a => "ENC.128A"
  | .enc80pq => "ENC.80PQ"
  | .dec128 => "DEC.128"
  | .dec128a => "DEC.128A"
  | .dec80pq => "DEC.80PQ"
  | .hash => "HASH"
  | .hasha => "HASHA"

end Sys2Proof
end

