-- ==== Sys2Proof/WellFormed.lean ====
section
/-! DEFINITION. Which instructions have a legal command word (30_encoding.md R93 to R96). -/

namespace Sys2Proof

/-- PERM's round count is 1 to 12 (R93); every other command has no operand to check. -/
def Instr.wellFormed : Instr → Bool
  | .perm r => decide (1 ≤ r.toNat) && decide (r.toNat ≤ 12)
  | .enc128 => true
  | .enc128a => true
  | .enc80pq => true
  | .dec128 => true
  | .dec128a => true
  | .dec80pq => true
  | .hash => true
  | .hasha => true

end Sys2Proof
end

