-- ==== Sys2Proof/Decode.lean ====
section
/-! DEFINITION. The decoder, total on all 256 command words (30_encoding.md R90 to R97), and the encoder, written from
the same table. -/

namespace Sys2Proof

/-- Why a command word is illegal (R97, 60_exceptions.md R222). -/
inductive Illegal where
  /-- The value of `op` is reserved: 0x0, 0x5 to 0xf (R92). -/
  | reservedOp (op : BitVec 4)
  /-- PERM with `arg` 0 or 13 to 15 (R93). -/
  | permRounds (arg : BitVec 4)
  /-- ENC or DEC with `arg` 3 to 15 (R94). -/
  | aeadVariant (arg : BitVec 4)
  /-- HASH with `arg` 2 to 15 (R95). -/
  | hashVariant (arg : BitVec 4)
  deriving DecidableEq, Repr

/-- What a command word is: a command, or illegal for a named reason (R97). -/
inductive Decoded where
  | legal (i : Instr)
  | illegal (why : Illegal)
  deriving DecidableEq, Repr

/-- The command of a decoded word, if it is one. -/
def Decoded.instr? : Decoded → Option Instr
  | .legal i => some i
  | .illegal _ => none

/-- `op = w[7:4]` (R90). -/
def opField (w : Byte) : BitVec 4 := w.extractLsb' 4 4

/-- `arg = w[3:0]` (R90, R91). -/
def argField (w : Byte) : BitVec 4 := w.extractLsb' 0 4

/-- PERM words (R93). -/
def decodePerm (arg : BitVec 4) : Decoded :=
  if (Instr.perm arg).wellFormed then .legal (.perm arg) else .illegal (.permRounds arg)

/-- ENC words (R94). -/
def decodeEnc (arg : BitVec 4) : Decoded :=
  if arg = 0 then .legal .enc128
  else if arg = 1 then .legal .enc128a
  else if arg = 2 then .legal .enc80pq
  else .illegal (.aeadVariant arg)

/-- DEC words (R94). -/
def decodeDec (arg : BitVec 4) : Decoded :=
  if arg = 0 then .legal .dec128
  else if arg = 1 then .legal .dec128a
  else if arg = 2 then .legal .dec80pq
  else .illegal (.aeadVariant arg)

/-- HASH words (R95). -/
def decodeHash (arg : BitVec 4) : Decoded :=
  if arg = 0 then .legal .hash
  else if arg = 1 then .legal .hasha
  else .illegal (.hashVariant arg)

/-- The decoder: exactly 8 bits, `op` selects the operation (R90, R92), `arg` its row. -/
def decode (w : Byte) : Decoded :=
  if opField w = 1 then decodePerm (argField w)
  else if opField w = 2 then decodeEnc (argField w)
  else if opField w = 3 then decodeDec (argField w)
  else if opField w = 4 then decodeHash (argField w)
  else .illegal (.reservedOp (opField w))

/-- A command word from its two fields (R90). -/
def cmd8 (op arg : BitVec 4) : Byte := op ++ arg

/-- The value of `op` of a command (R92). -/
def Instr.opBits : Instr → BitVec 4
  | .perm _ => 1
  | .enc128 => 2
  | .enc128a => 2
  | .enc80pq => 2
  | .dec128 => 3
  | .dec128a => 3
  | .dec80pq => 3
  | .hash => 4
  | .hasha => 4

/-- The value of `arg` of a command (R93 to R95). -/
def Instr.argBits : Instr → BitVec 4
  | .perm r => r
  | .enc128 => 0
  | .enc128a => 1
  | .enc80pq => 2
  | .dec128 => 0
  | .dec128a => 1
  | .dec80pq => 2
  | .hash => 0
  | .hasha => 1

/-- The encoder: the command word of a command (R96). -/
def encode (i : Instr) : Byte := cmd8 i.opBits i.argBits

/-- The complete list of legal command words, 20 in all, as R96 prints it. -/
def wordTable : List (Byte × Instr) :=
  [(0x11, .perm 1), (0x12, .perm 2), (0x13, .perm 3), (0x14, .perm 4), (0x15, .perm 5), (0x16, .perm 6),
   (0x17, .perm 7), (0x18, .perm 8), (0x19, .perm 9), (0x1a, .perm 10), (0x1b, .perm 11), (0x1c, .perm 12),
   (0x20, .enc128), (0x21, .enc128a), (0x22, .enc80pq), (0x30, .dec128), (0x31, .dec128a), (0x32, .dec80pq),
   (0x40, .hash), (0x41, .hasha)]

/-- The instruction read from `nbits` bits of a word numbered as the opcode table numbers them; a command is one byte,
so the word's low byte, with every bit at or above `nbits` zero. -/
def decodeTableWord (nbits w : Nat) : Option Instr := (decode (BitVec.ofNat 8 (w % 2 ^ nbits))).instr?

end Sys2Proof
end

