-- ==== Sys2Proof/Machine/Tables.lean ====
section
/-! DEFINITION. The contents of the constant tables of 00_scope.md: RC (R13), ROT (R12), VAR (R10), HVAR (R11). They are
configuration fields, not state (10_state.md R22). The numbers are the spec's own; it marks most of them as general
knowledge of Ascon v1.2 (93_implementation_defined.md part 2), see log entry 12. -/

namespace Sys2Proof.Machine

/-- RC, the twelve round constants (R13). -/
def rcTable : Vector Word 12 := #v[0xf0, 0xe1, 0xd2, 0xc3, 0xb4, 0xa5, 0x96, 0x87, 0x78, 0x69, 0x5a, 0x4b]

/-- RC[i], 0 ≤ i ≤ 11 (R13). The engine forms no other index (40_permutation.md R116). -/
def rc (T : Tables) (i : Nat) : Word := (T.rc[i]?).getD 0

/-- ROT as this spec uses it (R12, middle column; 90_conflicts.md C1). -/
def rotTable : RotTable := ⟨⟨19, 28⟩, ⟨61, 39⟩, ⟨1, 6⟩, ⟨10, 17⟩, ⟨7, 41⟩⟩

/-- ROT as the source document prints it (R12, right column), for comparison only (C1, 95_test_vectors.md section 6). -/
def rotDocument : RotTable := ⟨⟨12, 19⟩, ⟨39, 61⟩, ⟨1, 6⟩, ⟨10, 17⟩, ⟨7, 41⟩⟩

/-- SBOX, the substitution layer as a table on 5-bit columns (40_permutation.md R113): a description of `pS` for
checking it, which no meaning uses (R264). -/
def sboxTable : List Nat :=
  [0x04, 0x0b, 0x1f, 0x14, 0x1a, 0x15, 0x09, 0x02, 0x1b, 0x05, 0x08, 0x12, 0x1d, 0x03, 0x06, 0x1c,
   0x1e, 0x13, 0x07, 0x0e, 0x00, 0x0d, 0x11, 0x18, 0x10, 0x0c, 0x01, 0x19, 0x16, 0x0a, 0x0f, 0x17]

/-- The tables as this spec uses them (R10 to R13). -/
def specTables : Tables where
  rc := rcTable
  rot := rotTable
  v128 := { key := .k16, rate := .r8, a := 12, b := 6, iv := 0x80400c0600000000 }
  v128a := { key := .k16, rate := .r16, a := 12, b := 8, iv := 0x80800c0800000000 }
  v80pq := { key := .k20, rate := .r8, a := 12, b := 6, iv := 0xa0400c06 }
  hash := { rate := .r8, a := 12, b := 12, iv := 0x00400c0000000100 }
  hasha := { rate := .r8, a := 12, b := 8, iv := 0x00400c0400000100 }

/-- The spec's tables with the document's rotation pairs in their place (R12, D20). -/
def documentTables : Tables := { specTables with rot := rotDocument }

/-- The defaults R14 suggests, LENW 32 and both capacities unbounded, with the spec's tables. DESIGN CHOICE (log entry
3), safe: no statement rests on the defaults, since a state may hold any parameters. -/
def suggestedParams : Params := { lenw := 32, adCap := none, dCap := none, tables := specTables }

/-- A key length in bytes. -/
def keyLength : KeySize → Nat
  | .k16 => 16
  | .k20 => 20

/-- A rate in bytes. -/
def rateLength : Rate → Nat
  | .r8 => 8
  | .r16 => 16

/-- `VAR[arg]` (R10, R94). -/
def aeadRow (T : Tables) : AeadVariant → AeadRow
  | .v128 => T.v128
  | .v128a => T.v128a
  | .v80pq => T.v80pq

/-- `HVAR[arg]` (R11, R95). -/
def hashRow (T : Tables) : HashVariant → HashRow
  | .hash => T.hash
  | .hasha => T.hasha

/-- `(k, r, a, b, IV) = VAR[arg]` (R10, 41_sponge.md R132). -/
def aeadParams (T : Tables) (v : AeadVariant) : AeadParams :=
  let row := aeadRow T v
  { k := keyLength row.key, r := rateLength row.rate, a := row.a.val, b := row.b.val, iv := row.iv }

/-- `(r, a, b, IV) = HVAR[arg]` (R11, R132). -/
def hashParams (T : Tables) (h : HashVariant) : HashParams :=
  let row := hashRow T h
  { r := rateLength row.rate, a := row.a.val, b := row.b.val, iv := row.iv }

end Sys2Proof.Machine
end

