-- ==== Sys2Proof/Machine/State.lean ====
section
/-! DEFINITION. The state of one copy of the block, as plain data: everything 10_state.md gives it (R20 to R44), and
`env`, the model's own fields: the host's script and answers, the parameters and constant tables, the copy's
number, the count of resets. -/

namespace Sys2Proof.Machine

/-- The 320-bit State: five 64-bit words (R20). -/
structure Words where
  x0 : Word
  x1 : Word
  x2 : Word
  x3 : Word
  x4 : Word
  deriving DecidableEq, Repr

/-- PHASE, the state of the Sponge State Machine (R27). The reserved values 6 and 7 are never taken and have no
constructor (U8, log entry 10, safe). -/
inductive Phase where
  | uninitialized | initialized | absorbingAD | absorbingText | finalizing | done
  deriving DecidableEq, Repr

/-- ERRCODE (R36, R221): `none` is 0, "no fault since reset". The reserved values 5 to 7 are never produced and have
no constructor (U8, log entry 10, safe). -/
inductive ErrCode where
  | none | illegalCmd | badKeyLen | badNonceLen | badLen
  deriving DecidableEq, Repr

/-- A buffer's contents: the bytes that something has written since reset, as (index, byte) pairs with strictly rising
indices. What an unlisted byte reads as is `unlistedByte` (Machine/Ops.lean). -/
abbrev Memory := List Host.Cell

/-- What the host does, one at a time, in the order it does it (44_host_interface.md R200, R74). -/
inductive HostEvent where
  /-- The transaction HostWrite(id, idx, v) (R200). A write to CMD accepts or faults and no more: the micro-steps follow
  one by one. -/
  | write (id idx v : Nat)
  /-- The transaction HostRead(id, idx) (R200). -/
  | read (id idx : Nat)
  /-- A mnemonic of 30_encoding.md R99: HostWrite(CMD, 0, w) and waiting until BUSY = 0, the whole command in one step
  (41_sponge.md R133, log entry 4). -/
  | command (w : Byte)
  /-- The event RESET (R250). -/
  | reset
  /-- The host does nothing for one step; when BUSY = 1 the sequencer does its micro-step (log entry 2). -/
  | pause
  deriving DecidableEq, Repr

/-- The model's own fields (log entries 1 to 3, 17, 18): nothing here is state of the block. -/
structure Env where
  /-- What the host has still to do, next first. -/
  inbox : List HostEvent
  /-- The values HostRead has returned, latest first. -/
  answers : List Nat
  /-- How many times RESET has happened: the argument that makes the free bytes fresh. -/
  epoch : Nat
  /-- Which copy of the block this is, of the N_CORES of R14: the argument that keeps the free bytes of different copies
  apart. The block cannot see it (60_exceptions.md R238). -/
  copy : Nat
  /-- The open parameters of R14 and the constant tables of R22. No step changes them. -/
  params : Params
  deriving DecidableEq, Repr

/-- One copy of the block. -/
structure State where
  /-- x[0..4] (R20). -/
  x : Words
  /-- KEY[0..20) (R23). -/
  key : Vector Byte 20
  /-- NONCE[0..16) (R24). -/
  nonce : Vector Byte 16
  /-- TAGIN[0..16) (R25). -/
  tagIn : Vector Byte 16
  /-- TAGOUT[0..16) (R26). -/
  tagOut : Vector Byte 16
  /-- PHASE (R27). -/
  phase : Phase
  /-- BUSY (R28). -/
  busy : Bool
  /-- RND, the index of the next round, 12 when no permutation is in progress (R29). -/
  rnd : BitVec 4
  /-- BLK, the index of the next block within the phase (R30). -/
  blk : Nat
  /-- CMD, the last accepted command word (R32). -/
  cmd : Byte
  /-- DONE (R34). -/
  done : Bool
  /-- VERIFIED (R35). -/
  verified : Bool
  /-- ERR (R36). -/
  err : Bool
  /-- ERRCODE (R36). -/
  errCode : ErrCode
  /-- KEYLEN (R37). -/
  keyLen : Nat
  /-- NONCELEN (R38). -/
  nonceLen : Nat
  /-- ADLEN (R39). -/
  adLen : Nat
  /-- DLEN (R40). -/
  dLen : Nat
  /-- OLEN (R41). -/
  oLen : Nat
  /-- AD (R42). -/
  ad : Memory
  /-- DIN (R43). -/
  din : Memory
  /-- DOUT (R44). -/
  dout : Memory
  /-- The model's own fields. -/
  env : Env
  deriving DecidableEq, Repr

/-- The constant tables of the machine (R22). -/
abbrev State.tables (s : State) : Tables := s.env.params.tables

/-- The reasons for which the model stops. The spec's own faults (60_exceptions.md) are not among them: a fault entry
is a next state (R228). -/
inductive Fault where
  /-- Raised by a step with BUSY = 1 when no row of the transition table of 41_sponge.md R132 matches CMD, PHASE and BLK.
  R132 says that such a state cannot be reached and gives it no effect; `Safety.StateInv` excludes it. Safe (log entry 9). -/
  | noMicroStep
  deriving DecidableEq, Repr

/-- The reasons for which an instruction has no meaning. -/
inductive Refusal where
  /-- Raised by an arm of `exec` whose instruction has no meaning in the model. No arm does. Safe. -/
  | notModelled (mnemonic : String)
  deriving DecidableEq, Repr

/-- The outcome of a step of this machine. -/
abbrev Out := Host.Outcome State Fault Refusal

/-- The block right after RESET (R48, R250): every register at the value of the table of R48, nothing listed in the
buffers. Of `env`, the empty script, no answers, epoch 0, copy 0 and the suggested parameters are DESIGN CHOICEs of
the model (log entries 1 to 3, 17); the tables are the spec's. -/
def State.reset : State where
  x := ⟨0, 0, 0, 0, 0⟩
  key := Vector.replicate 20 0
  nonce := Vector.replicate 16 0
  tagIn := Vector.replicate 16 0
  tagOut := Vector.replicate 16 0
  phase := .uninitialized
  busy := false
  rnd := 12
  blk := 0
  cmd := 0x00
  done := false
  verified := false
  err := false
  errCode := .none
  keyLen := 0
  nonceLen := 0
  adLen := 0
  dLen := 0
  oLen := 0
  ad := []
  din := []
  dout := []
  env := { inbox := [], answers := [], epoch := 0, copy := 0, params := suggestedParams }

end Sys2Proof.Machine
end

