-- ==== Sys2Proof/Machine/Operands.lean ====
section
/-! DEFINITION. Operand forms: byte order (20_memory.md R62), rate lanes (R63), padding (R64), block lengths and counts
(R65, R66), the byte view of the state (41_sponge.md R134), and what a command's argument selects (30_encoding.md R91). -/

namespace Sys2Proof.Machine

/-! ## Words and bytes -/

/-- `rotr(v, n)`, 0 < n < 64 (R15): bit j of the result is bit (j + n) mod 64 of `v`. For n = 0 and n ≥ 64, which R15
leaves undefined and no table of the spec holds, the result is `v`. DESIGN CHOICE (log entry 20). -/
def rotr (v : Word) (n : Nat) : Word := (v >>> n) ||| (v <<< (64 - n))

/-- `be64(B)`, and `be32(B)` for four bytes (R62): the first byte is the most significant. -/
def beWord (B : List Byte) : Word := B.foldl (fun w c => (w <<< 8) ||| c.setWidth 64) 0

/-- `bytes64(w)` (R62): byte j is `w[63−8j : 56−8j]`. -/
def bytes64 (w : Word) : List Byte :=
  [w.extractLsb' 56 8, w.extractLsb' 48 8, w.extractLsb' 40 8, w.extractLsb' 32 8,
   w.extractLsb' 24 8, w.extractLsb' 16 8, w.extractLsb' 8 8, w.extractLsb' 0 8]

/-- The bytewise XOR of two sequences of one length. -/
def xorBytes (A B : List Byte) : List Byte := List.zipWith (· ^^^ ·) A B

/-! ## The five words -/

/-- The all-zero state, what a session leaves behind (R21). -/
def Words.zero : Words := ⟨0, 0, 0, 0, 0⟩

/-- Word `x[i]`, 0 ≤ i ≤ 4 (R20). -/
def Words.get (x : Words) : Nat → Word
  | 0 => x.x0
  | 1 => x.x1
  | 2 => x.x2
  | 3 => x.x3
  | 4 => x.x4
  | _ => 0

/-- `x[i] <- v`; there is no word beyond x[4] (R20). -/
def Words.set (x : Words) (i : Nat) (v : Word) : Words :=
  match i with
  | 0 => { x with x0 := v }
  | 1 => { x with x1 := v }
  | 2 => { x with x2 := v }
  | 3 => { x with x3 := v }
  | 4 => { x with x4 := v }
  | _ => x

/-- The state as a 40-byte string, byte 0 the most significant byte of x[0] (R62). -/
def Words.bytes (x : Words) : List Byte :=
  bytes64 x.x0 ++ bytes64 x.x1 ++ bytes64 x.x2 ++ bytes64 x.x3 ++ bytes64 x.x4

/-- XOR byte `c` into state byte `m` (R134): bits `[63 − 8(m mod 8) : 56 − 8(m mod 8)]` of `x[floor(m/8)]`. -/
def xorStateByte (m : Nat) (c : Byte) (x : Words) : Words :=
  x.set (m / 8) (x.get (m / 8) ^^^ (c.setWidth 64 <<< (56 - 8 * (m % 8))))

/-- `StateXorBytes(off, B)` (R134). -/
def stateXorBytes (off : Nat) : List Byte → Words → Words
  | [], x => x
  | c :: B, x => stateXorBytes (off + 1) B (xorStateByte off c x)

/-! ## The rate -/

/-- `RateGet(r)` (R63). -/
def rateGet (r : Nat) (x : Words) : List Byte :=
  if r = 16 then bytes64 x.x0 ++ bytes64 x.x1 else bytes64 x.x0

/-- `RateXor(B, r)` (R63). -/
def rateXor (r : Nat) (B : List Byte) (x : Words) : Words :=
  if r = 16 then
    { x with x0 := x.x0 ^^^ beWord (B.take 8), x1 := x.x1 ^^^ beWord ((B.drop 8).take 8) }
  else { x with x0 := x.x0 ^^^ beWord (B.take 8) }

/-- `RateSet(B, r)` (R63). -/
def rateSet (r : Nat) (B : List Byte) (x : Words) : Words :=
  if r = 16 then { x with x0 := beWord (B.take 8), x1 := beWord ((B.drop 8).take 8) }
  else { x with x0 := beWord (B.take 8) }

/-- `Pad(B, r)` for |B| < r (R64). -/
def pad (r : Nat) (B : List Byte) : List Byte := B ++ 0x80 :: List.replicate (r - 1 - B.length) 0

/-! ## Blocks -/

/-- The length of block `j` of a stream of `len` bytes, `r·j ≤ len` (R65). -/
def blockLen (len r j : Nat) : Nat := min r (len - r * j)

/-- `s`, the number of blocks of the associated data (R66). -/
def adBlocks (len r : Nat) : Nat := if len = 0 then 0 else len / r + 1

/-- `t`, the number of blocks of the text (R66). -/
def textBlocks (len r : Nat) : Nat := len / r + 1

/-! ## What a command is -/

/-- A command by its operation and the row its argument selects (R91). -/
inductive Op where
  /-- `permute` with a round count (R93). -/
  | perm (r : Nat)
  /-- `encrypt` or `decrypt` with a row of VAR (R94). -/
  | aead (d : Dir) (v : AeadVariant)
  /-- `hash` or `hash_a`, a row of HVAR (R95). -/
  | hash (h : HashVariant)
  deriving DecidableEq, Repr

/-- The operation of a command (R91 to R95). -/
def opOf : Instr → Op
  | .perm r => .perm r.toNat
  | .enc128 => .aead .enc .v128
  | .enc128a => .aead .enc .v128a
  | .enc80pq => .aead .enc .v80pq
  | .dec128 => .aead .dec .v128
  | .dec128a => .aead .dec .v128a
  | .dec80pq => .aead .dec .v80pq
  | .hash => .hash .hash
  | .hasha => .hash .hasha

/-- `K = KEY[0..k)` (R134): the key bytes of a variant. -/
def keyBytes (T : Tables) (v : AeadVariant) (key : Vector Byte 20) : List Byte := key.toList.take (aeadParams T v).k

end Sys2Proof.Machine
end

