-- ==== Sys2Proof/Machine/Flags.lean ====
section
/-! DEFINITION. Flag computations: STATUS assembled from its sources (10_state.md R33, 44_host_interface.md R209), the
tag comparison and the mask of DEC (41_sponge.md R145), the capacity test (60_exceptions.md R225). -/

namespace Sys2Proof.Machine

/-- The value of PHASE (R27). -/
def phaseCode : Phase → Nat
  | .uninitialized => 0
  | .initialized => 1
  | .absorbingAD => 2
  | .absorbingText => 3
  | .finalizing => 4
  | .done => 5

/-- The value of ERRCODE (R221). -/
def errCodeValue : ErrCode → Nat
  | .none => 0
  | .illegalCmd => 1
  | .badKeyLen => 2
  | .badNonceLen => 3
  | .badLen => 4

/-- STATUS (R33, R209): `PHASE·256 + ERRCODE·16 + ERR·8 + VERIFIED·4 + DONE·2 + BUSY`; bits 7 and 15:11 are 0. -/
def statusValue (s : State) : Nat :=
  phaseCode s.phase * 256 + errCodeValue s.errCode * 16 + s.err.toNat * 8 + s.verified.toNat * 4 + s.done.toNat * 2
    + s.busy.toNat

/-- `T = bytes64(x[3]) || bytes64(x[4])`, 16 bytes (R145). -/
def tagOf (x : Words) : Vector Byte 16 := ⟨(bytes64 x.x3 ++ bytes64 x.x4).toArray, rfl⟩

/-- `d` of the comparison (R145): the OR of the differences of all 16 bytes. -/
def tagDiff (T U : Vector Byte 16) : Byte := (xorBytes T.toList U.toList).foldl (· ||| ·) 0

/-- VERIFIED of the comparison (R145): 1 if `d = 0x00` else 0. -/
def tagMatches (T U : Vector Byte 16) : Bool := tagDiff T U == 0

/-- `m` of the masking loop (R145): 0xff if `d = 0x00` else 0x00. -/
def tagMask (T U : Vector Byte 16) : Byte := if tagMatches T U then 0xff else 0x00

/-- Whether a length exceeds a capacity; nothing exceeds an unbounded one (R225). -/
def exceeds (len : Nat) : Option Nat → Bool
  | none => false
  | some c => decide (c < len)

end Sys2Proof.Machine
end

