-- ==== Sys2Proof/Machine/Ops.lean ====
section
/-! DEFINITION. The named operations: the buffers (20_memory.md R60 to R68), fault entry (60_exceptions.md R228), the
checks and the acceptance of a command (44_host_interface.md R207, R208), reset (70_reset_and_hazards.md R250). There is
no return from a fault but reset (R230). -/

namespace Sys2Proof.Machine

/-! ## Buffers -/

/-- The canonical form of a buffer: strictly rising indices, so equal contents are equal lists (log entry 8). -/
abbrev Memory.wf (m : Memory) : Prop := m.Pairwise (fun c d => c.1 < d.1)

/-- The byte written at an index since reset, if there is one. -/
def Memory.find : Memory → Nat → Option Byte
  | [], _ => none
  | c :: m, a => if c.1 = a then some c.2 else Memory.find m a

/-- Write one byte, keeping the canonical form. -/
def Memory.put : Memory → Nat → Byte → Memory
  | [], a, v => [(a, v)]
  | c :: m, a, v =>
    if a < c.1 then (a, v) :: c :: m
    else if a = c.1 then (a, v) :: m
    else c :: Memory.put m a v

/-- What an unlisted byte of a buffer reads as: the free value of that byte since the last reset (R48, R261, log
entry 1), of the copy the state belongs to (R77, log entry 17). -/
def unlistedByte (copy : Nat) (b : Buf) (epoch idx : Nat) : Byte := Config.freeByte copy b epoch idx

/-- The contents of a buffer. -/
def bufOf (b : Buf) (s : State) : Memory :=
  match b with
  | .ad => s.ad
  | .din => s.din
  | .dout => s.dout

/-- Byte `idx` of a buffer (R60). -/
def byteAt (b : Buf) (idx : Nat) (s : State) : Byte :=
  ((bufOf b s).find idx).getD (unlistedByte s.env.copy b s.env.epoch idx)

/-- `n` bytes of a buffer's contents from index `o` on. -/
def Memory.readBytes (m : Memory) (copy : Nat) (b : Buf) (epoch o : Nat) : Nat → List Byte
  | 0 => []
  | n + 1 => (m.find o).getD (unlistedByte copy b epoch o) :: Memory.readBytes m copy b epoch (o + 1) n

/-- `MemRead(BUF + o, n)` (00_scope.md R16). -/
def memRead (b : Buf) (o n : Nat) (s : State) : List Byte := (bufOf b s).readBytes s.env.copy b s.env.epoch o n

/-- Write a sequence of bytes into a buffer from index `o` on. -/
def Memory.putBytes (m : Memory) (o : Nat) : List Byte → Memory
  | [] => m
  | v :: B => Memory.putBytes (m.put o v) (o + 1) B

/-- `MemWrite(DOUT + o, n, v)` (R16): DOUT is the one buffer the core writes (R61). -/
def doutWrite (o : Nat) (B : List Byte) (s : State) : State := { s with dout := s.dout.putBytes o B }

/-- `Block(BUF, len, r, j)` (R65). -/
def block (b : Buf) (len r j : Nat) (s : State) : List Byte := memRead b (r * j) (blockLen len r j) s

/-! ## Faults -/

/-- Fault entry, `raise Fault(c)` (R228): the one exception entry of the hardware. CMD, BUSY, DONE, RND, BLK, NONCE,
NONCELEN, TAGIN, ADLEN, DLEN and the buffers keep their values; control goes nowhere. -/
def faultEntry (c : ErrCode) (s : State) : State :=
  { s with
    err := true
    errCode := c
    x := Words.zero
    key := Vector.replicate 20 0
    keyLen := 0
    oLen := 0
    tagOut := Vector.replicate 16 0
    verified := false
    phase := .uninitialized }

/-! ## Starting a command -/

/-- The checks of `accept(w)` after legality, in their order (R207, R227): the first that fails. -/
def checkOperands (o : Op) (s : State) : Option ErrCode :=
  match o with
  | .perm _ => none
  | .aead _ v =>
    if s.keyLen ≠ (aeadParams s.tables v).k then some .badKeyLen
    else if s.nonceLen ≠ 16 then some .badNonceLen
    else if exceeds s.adLen s.env.params.adCap then some .badLen
    else if exceeds s.dLen s.env.params.dCap then some .badLen
    else none
  | .hash _ => if exceeds s.dLen s.env.params.dCap then some .badLen else none

/-- All the checks of `accept(w)` for a command (R207): a command without a legal word fails the first. -/
def checkCommand (i : Instr) (s : State) : Option ErrCode :=
  if i.wellFormed then checkOperands (opOf i) s else some .illegalCmd

/-- What acceptance does for a sponge command beside the rest: `PHASE <- Uninitialized; BLK <- 0` (R207). -/
def startPhase (o : Op) (s : State) : State :=
  match o with
  | .perm _ => s
  | .aead _ _ => { s with phase := .uninitialized, blk := 0 }
  | .hash _ => { s with phase := .uninitialized, blk := 0 }

/-- The second half of `accept(w)`: the command is accepted (R207). -/
def accepted (i : Instr) (s : State) : State :=
  startPhase (opOf i)
    { s with
      cmd := encode i
      busy := true
      done := false
      verified := false
      oLen := 0
      tagOut := Vector.replicate 16 0 }

/-- `accept(w)` for a command, with BUSY = 0 and ERR = 0 (R207). -/
def acceptCommand (i : Instr) (s : State) : State :=
  match checkCommand i s with
  | some c => faultEntry c s
  | none => accepted i s

/-- The transaction HostWrite(CMD, 0, w) with BUSY = 0: ignored when ERR = 1 (R208), a fault (R222) or acceptance
(R207). The micro-steps are not run here. -/
def cmdWrite (w : Byte) (s : State) : State :=
  if s.err then s
  else
    match decode w with
    | .illegal _ => faultEntry .illegalCmd s
    | .legal i => acceptCommand i s

/-- A mnemonic run whole (30_encoding.md R99, 41_sponge.md R133): acceptance and then `body`, the composition of the
command's micro-steps. With BUSY = 1 the transaction is not accepted and nothing happens; the step holds it (R202, log
entry 5). With ERR = 1 it is ignored (R208). -/
def runCommand (i : Instr) (body : State → State) (s : State) : Out :=
  if s.busy then .next s
  else if s.err then .next s
  else
    match checkCommand i s with
    | some c => .next (faultEntry c s)
    | none => .next (body (accepted i s))

/-- A word that is no command, written as a mnemonic's CMD write: ILLEGAL_CMD (R97, R222), ignored when ERR = 1. -/
def runIllegal (s : State) : Out :=
  if s.err then .next s else .next (faultEntry .illegalCmd s)

/-! ## Reset -/

/-- The event RESET (R250): every piece of state takes the value of R48, idle or busy (R253). The buffers' bytes are
unspecified anew, so the epoch of the free bytes moves on; the script, the answers, the copy's number, the parameters
and the tables are not state of the block (log entries 1 to 3, 13, 17, 18). -/
def resetEvent (s : State) : State :=
  { State.reset with env := { s.env with epoch := s.env.epoch + 1 } }

end Sys2Proof.Machine
end

