-- ==== Sys2Proof/Machine/Permutation.lean ====
section
/-! DEFINITION. The Permutation Engine (40_permutation.md): the three layers, the round, the schedule, and the procedure
`P(r)` on the machine, which counts RND (R117). -/

namespace Sys2Proof.Machine

/-- `pC(i)`, constant addition (R111). -/
def pC (T : Tables) (i : Nat) (x : Words) : Words := { x with x2 := x.x2 ^^^ rc T i }

/-- The first three statements of `pS` (R112). -/
def pSIn (x : Words) : Words :=
  { x0 := x.x0 ^^^ x.x4, x1 := x.x1, x2 := x.x2 ^^^ x.x1, x3 := x.x3, x4 := x.x4 ^^^ x.x3 }

/-- The ten statements of `pS` that compute `t0` to `t4`, all before any use, and add them (R112). -/
def pSMid (x : Words) : Words :=
  { x0 := x.x0 ^^^ (~~~x.x1 &&& x.x2)
    x1 := x.x1 ^^^ (~~~x.x2 &&& x.x3)
    x2 := x.x2 ^^^ (~~~x.x3 &&& x.x4)
    x3 := x.x3 ^^^ (~~~x.x4 &&& x.x0)
    x4 := x.x4 ^^^ (~~~x.x0 &&& x.x1) }

/-- The last four statements of `pS` (R112), in their order: x[1] takes the old x[0], x[3] the old x[2]. -/
def pSOut (x : Words) : Words :=
  { x0 := x.x0 ^^^ x.x4, x1 := x.x1 ^^^ x.x0, x2 := ~~~x.x2, x3 := x.x3 ^^^ x.x2, x4 := x.x4 }

/-- `pS`, the substitution layer (R112). -/
def pS (x : Words) : Words := pSOut (pSMid (pSIn x))

/-- Column `j` of the state, the bit of x[0] the most significant (R113). -/
def column (x : Words) (j : Nat) : Nat :=
  (x.x0.getLsbD j).toNat * 16 + (x.x1.getLsbD j).toNat * 8 + (x.x2.getLsbD j).toNat * 4 + (x.x3.getLsbD j).toNat * 2
    + (x.x4.getLsbD j).toNat

/-- One word of the linear layer, `w ^= rotr(w, a) ^ rotr(w, b)` (R114). -/
def mixWord (p : RotPair) (w : Word) : Word := w ^^^ rotr w p.fst ^^^ rotr w p.snd

/-- `pL`, the linear diffusion layer (R114), with the pairs of ROT (00_scope.md R12). -/
def pL (T : Tables) (x : Words) : Words :=
  ⟨mixWord T.rot.w0 x.x0, mixWord T.rot.w1 x.x1, mixWord T.rot.w2 x.x2, mixWord T.rot.w3 x.x3, mixWord T.rot.w4 x.x4⟩

/-- `ROUND(i)` (R115): the three layers in order. -/
def roundAt (T : Tables) (i : Nat) (x : Words) : Words := pL T (pS (pC T i x))

/-- `P(r)` as a function of the state words: ROUND(12 − r), ..., ROUND(11) (R116, R117). With n + 1 rounds remaining the
index is 12 − (n + 1). -/
def permute (T : Tables) : Nat → Words → Words
  | 0, x => x
  | n + 1, x => permute T n (roundAt T (11 - n) x)

/-- One turn of the loop of `P(r)`: `ROUND(RND); RND <- RND + 1` (R117). -/
def roundStep (s : State) : State := { s with x := roundAt s.tables s.rnd.toNat s.x, rnd := s.rnd + 1 }

/-- The loop of `P(r)`, `while RND < 12` (R117); it has at most 12 turns. -/
def roundLoop : Nat → State → State
  | 0, s => s
  | n + 1, s => if s.rnd < 12 then roundLoop n (roundStep s) else s

/-- Procedure `P(r)`, 1 ≤ r ≤ 12, on the machine (R117): it writes x and RND and nothing else. -/
def runP (r : Nat) (s : State) : State := roundLoop 12 { s with rnd := BitVec.ofNat 4 (12 - r) }

/-- The micro-step "PERM run" (R118, 41_sponge.md R132): `P(r)`, then the completion of PERM. -/
def permRun (r : Nat) (s : State) : State :=
  { runP r s with oLen := 0, busy := false, done := true }

end Sys2Proof.Machine
end

