-- ==== Sys2Proof/Machine/Sponge.lean ====
section
/-! DEFINITION. The Sponge State Machine (41_sponge.md): the micro-steps R136 to R151, the transition table R132, and
the sequencer. The functions on the five words (`loadAead`, `duplexBlock`, ...) are shared with the pure functions of
Machine/Pure.lean. -/

namespace Sys2Proof.Machine

/-! ## What the micro-steps do to the words -/

/-- The loaded state of SP_INIT (R136): IV, key and nonce as one 40-byte string. With a 20-byte key the IV has 32 bits
(R10); of a wider one in another table than the spec's the shift drops the upper 32. DESIGN CHOICE (log entry 20). -/
def loadAead (T : Tables) (v : AeadVariant) (K N : List Byte) : Words :=
  if (aeadParams T v).k = 20 then
    { x0 := ((aeadParams T v).iv <<< 32) ||| beWord (K.take 4)
      x1 := beWord ((K.drop 4).take 8)
      x2 := beWord ((K.drop 12).take 8)
      x3 := beWord (N.take 8)
      x4 := beWord ((N.drop 8).take 8) }
  else
    { x0 := (aeadParams T v).iv
      x1 := beWord (K.take 8)
      x2 := beWord ((K.drop 8).take 8)
      x3 := beWord (N.take 8)
      x4 := beWord ((N.drop 8).take 8) }

/-- The loaded state of SP_HASH_INIT (R147). -/
def loadHash (T : Tables) (h : HashVariant) : Words := ⟨(hashParams T h).iv, 0, 0, 0, 0⟩

/-- The duplex of one full block, before `P(b)` (R142): the new words and the output block. -/
def duplexBlock (d : Dir) (r : Nat) (B : List Byte) (x : Words) : Words × List Byte :=
  match d with
  | .enc => (rateXor r B x, rateGet r (rateXor r B x))
  | .dec => (rateSet r B x, xorBytes (rateGet r x) B)

/-- The duplex of the last, partial block (R143). -/
def duplexLast (d : Dir) (r : Nat) (B : List Byte) (x : Words) : Words × List Byte :=
  match d with
  | .enc => (rateXor r (pad r B) x, (rateGet r (rateXor r (pad r B) x)).take B.length)
  | .dec =>
    (rateXor r (pad r (xorBytes ((rateGet r x).take B.length) B)) x, xorBytes ((rateGet r x).take B.length) B)

/-! ## AEAD micro-steps -/

/-- SP_INIT (R136). -/
def spInit (v : AeadVariant) (s : State) : State :=
  let p := aeadParams s.tables v
  let s1 := runP p.a { s with x := loadAead s.tables v (keyBytes s.tables v s.key) s.nonce.toList }
  { s1 with x := stateXorBytes (40 - p.k) (keyBytes s.tables v s.key) s1.x, phase := .initialized }

/-- SP_AD_BEGIN (R137). -/
def spAdBegin (s : State) : State := { s with phase := .absorbingAD, blk := 0 }

/-- SP_AD_BLOCK (R138): `P(b)` follows every block, the last one included (90_conflicts.md C3). -/
def spAdBlock (v : AeadVariant) (s : State) : State :=
  let p := aeadParams s.tables v
  let B := block .ad s.adLen p.r s.blk s
  let B' := if s.blk + 1 = adBlocks s.adLen p.r then pad p.r B else B
  let s1 := runP p.b { s with x := rateXor p.r B' s.x }
  { s1 with blk := s.blk + 1 }

/-- SP_DOMSEP (R141). -/
def spDomSep (s : State) : State :=
  { s with x := { s.x with x4 := s.x.x4 ^^^ 1 }, phase := .absorbingText, blk := 0 }

/-- SP_TEXT_BLOCK (R142). -/
def spTextBlock (d : Dir) (v : AeadVariant) (s : State) : State :=
  let p := aeadParams s.tables v
  let B := memRead .din (p.r * s.blk) p.r s
  let res := duplexBlock d p.r B s.x
  let s1 := runP p.b (doutWrite (p.r * s.blk) res.2 { s with x := res.1 })
  { s1 with blk := s.blk + 1 }

/-- SP_TEXT_LAST (R143), j = BLK = t − 1, ℓ = DLEN mod r. -/
def spTextLast (d : Dir) (v : AeadVariant) (s : State) : State :=
  let p := aeadParams s.tables v
  let B := memRead .din (p.r * s.blk) (s.dLen % p.r) s
  let res := duplexLast d p.r B s.x
  { doutWrite (p.r * s.blk) res.2 { s with x := res.1 } with phase := .finalizing, blk := 0 }

/-- The words after the first key XOR of SP_FINAL and `P(a)` take the last 16 key bytes (R144). -/
def spFinal (v : AeadVariant) (s : State) : State :=
  let p := aeadParams s.tables v
  let K := keyBytes s.tables v s.key
  let s1 := runP p.a { s with x := stateXorBytes p.r K s.x }
  { s1 with x := stateXorBytes 24 (K.drop (p.k - 16)) s1.x, blk := 1 }

/-- The masking loop of SP_TAG (R145): `DOUT[j] <- DOUT[j] & m` for every j below DLEN. -/
def maskDout (m : Byte) (s : State) : State :=
  doutWrite 0 ((memRead .dout 0 s.dLen s).map (· &&& m)) s

/-- SP_TAG (R145): the tag to TAGOUT (ENC), or the comparison and the masking (DEC). -/
def spTag (d : Dir) (s : State) : State :=
  match d with
  | .enc => { s with tagOut := tagOf s.x, blk := 2 }
  | .dec =>
    { maskDout (tagMask (tagOf s.x) s.tagIn) s with
      verified := tagMatches (tagOf s.x) s.tagIn
      blk := 2 }

/-- SP_RELEASE (R146). -/
def spRelease (s : State) : State :=
  { s with
    oLen := s.dLen
    x := Words.zero
    key := Vector.replicate 20 0
    keyLen := 0
    phase := .done
    blk := 0
    busy := false
    done := true }

/-! ## Hash micro-steps -/

/-- SP_HASH_INIT (R147). -/
def spHashInit (h : HashVariant) (s : State) : State :=
  { runP (hashParams s.tables h).a { s with x := loadHash s.tables h } with phase := .initialized }

/-- SP_HASH_BEGIN (R148). -/
def spHashBegin (s : State) : State := { s with phase := .absorbingText, blk := 0 }

/-- SP_HASH_BLOCK (R149): `P(b)` after a full block, `P(a)` after the last (90_conflicts.md C8). R149's rate is 8; a rate
of 16 in another table than the spec's is absorbed into x[0] and x[1]. DESIGN CHOICE (log entry 20). -/
def spHashBlock (h : HashVariant) (s : State) : State :=
  let p := hashParams s.tables h
  let B := block .din s.dLen p.r s.blk s
  if s.blk + 1 < textBlocks s.dLen p.r then
    let s1 := runP p.b { s with x := rateXor p.r B s.x }
    { s1 with blk := s.blk + 1 }
  else
    { runP p.a { s with x := rateXor p.r (pad p.r B) s.x } with phase := .finalizing, blk := 0 }

/-- SP_HASH_SQUEEZE (R150): `P(b)` between the four squeezes, not after the fourth. It squeezes 8 bytes whatever the
table's rate. DESIGN CHOICE for a rate of 16 (log entry 20). -/
def spHashSqueeze (h : HashVariant) (s : State) : State :=
  let s1 := doutWrite (8 * s.blk) (bytes64 s.x.x0) s
  { (if s.blk < 3 then runP (hashParams s.tables h).b s1 else s1) with blk := s.blk + 1 }

/-- SP_HASH_RELEASE (R151): KEY and KEYLEN are not touched. -/
def spHashRelease (s : State) : State :=
  { s with oLen := 32, x := Words.zero, phase := .done, blk := 0, busy := false, done := true }

/-! ## The sequencer -/

/-- The micro-steps by name, each with the parameters that CMD gives it (R132). -/
inductive MicroStep where
  | permRun (r : Nat)
  | spInit (v : AeadVariant)
  | spAdBegin
  | spAdBlock (v : AeadVariant)
  | spDomSep
  | spTextBlock (d : Dir) (v : AeadVariant)
  | spTextLast (d : Dir) (v : AeadVariant)
  | spFinal (v : AeadVariant)
  | spTag (d : Dir)
  | spRelease
  | spHashInit (h : HashVariant)
  | spHashBegin
  | spHashBlock (h : HashVariant)
  | spHashSqueeze (h : HashVariant)
  | spHashRelease
  deriving DecidableEq, Repr

/-- The rows of R132 for ENC and DEC. -/
def selectAead (T : Tables) (d : Dir) (v : AeadVariant) (phase : Phase) (blk adLen dLen : Nat) : Option MicroStep :=
  let r := (aeadParams T v).r
  match phase with
  | .uninitialized => if blk = 0 then some (.spInit v) else none
  | .initialized => if blk = 0 then some .spAdBegin else none
  | .absorbingAD =>
    if blk < adBlocks adLen r then some (.spAdBlock v)
    else if blk = adBlocks adLen r then some .spDomSep else none
  | .absorbingText =>
    if blk + 1 < textBlocks dLen r then some (.spTextBlock d v)
    else if blk + 1 = textBlocks dLen r then some (.spTextLast d v) else none
  | .finalizing =>
    if blk = 0 then some (.spFinal v)
    else if blk = 1 then some (.spTag d)
    else if blk = 2 then some .spRelease else none
  | .done => none

/-- The rows of R132 for HASH. -/
def selectHash (T : Tables) (h : HashVariant) (phase : Phase) (blk dLen : Nat) : Option MicroStep :=
  match phase with
  | .uninitialized => if blk = 0 then some (.spHashInit h) else none
  | .initialized => if blk = 0 then some .spHashBegin else none
  | .absorbingAD => none
  | .absorbingText => if blk < textBlocks dLen (hashParams T h).r then some (.spHashBlock h) else none
  | .finalizing =>
    if blk < 4 then some (.spHashSqueeze h) else if blk = 4 then some .spHashRelease else none
  | .done => none

/-- The transition table R132: the micro-step to perform, a function of CMD, PHASE, BLK, ADLEN and DLEN only (R131);
`none` where no row matches. -/
def select (T : Tables) (o : Op) (phase : Phase) (blk adLen dLen : Nat) : Option MicroStep :=
  match o with
  | .perm r => if blk = 0 then some (.permRun r) else none
  | .aead d v => selectAead T d v phase blk adLen dLen
  | .hash h => selectHash T h phase blk dLen

/-- The micro-step of a state with BUSY = 1, CMD.op and CMD.arg read from the latched word (R32, R132). -/
def nextMicro (s : State) : Option MicroStep :=
  match decode s.cmd with
  | .legal i => select s.tables (opOf i) s.phase s.blk s.adLen s.dLen
  | .illegal _ => none

/-- What a micro-step does (R136 to R151, R118). -/
def perform : MicroStep → State → State
  | .permRun r => permRun r
  | .spInit v => spInit v
  | .spAdBegin => spAdBegin
  | .spAdBlock v => spAdBlock v
  | .spDomSep => spDomSep
  | .spTextBlock d v => spTextBlock d v
  | .spTextLast d v => spTextLast d v
  | .spFinal v => spFinal v
  | .spTag d => spTag d
  | .spRelease => spRelease
  | .spHashInit h => spHashInit h
  | .spHashBegin => spHashBegin
  | .spHashBlock h => spHashBlock h
  | .spHashSqueeze h => spHashSqueeze h
  | .spHashRelease => spHashRelease

/-- One step of the sequencer, with BUSY = 1 (R130). -/
def sequencerStep (s : State) : Out :=
  match nextMicro s with
  | some m => .next (perform m s)
  | none => .fault .noMicroStep

/-- `n` micro-steps in a row, while BUSY = 1 at each of them (R130); `none` if one of them is not there. -/
def runMicro : Nat → State → Option State
  | 0, s => some s
  | n + 1, s =>
    if s.busy then
      match nextMicro s with
      | some m => runMicro n (perform m s)
      | none => none
    else none

/-- A run of buffer bytes that a micro-step reads or writes: indices `first` to `first + count − 1` (R68). -/
structure Access where
  buf : Buf
  write : Bool
  first : Nat
  count : Nat
  deriving DecidableEq, Repr

/-- The buffer indices a micro-step reads and writes (R61, R67, R68): a function of its name, BLK, ADLEN and DLEN. -/
def accesses (T : Tables) (m : MicroStep) (blk adLen dLen : Nat) : List Access :=
  match m with
  | .spAdBlock v => [⟨.ad, false, (aeadParams T v).r * blk, blockLen adLen (aeadParams T v).r blk⟩]
  | .spTextBlock _ v =>
    [⟨.din, false, (aeadParams T v).r * blk, (aeadParams T v).r⟩,
     ⟨.dout, true, (aeadParams T v).r * blk, (aeadParams T v).r⟩]
  | .spTextLast _ v =>
    [⟨.din, false, (aeadParams T v).r * blk, dLen % (aeadParams T v).r⟩,
     ⟨.dout, true, (aeadParams T v).r * blk, dLen % (aeadParams T v).r⟩]
  | .spTag .dec => [⟨.dout, false, 0, dLen⟩, ⟨.dout, true, 0, dLen⟩]
  | .spHashBlock h => [⟨.din, false, (hashParams T h).r * blk, blockLen dLen (hashParams T h).r blk⟩]
  | .spHashSqueeze _ => [⟨.dout, true, 8 * blk, 8⟩]
  | .permRun _ | .spInit _ | .spAdBegin | .spDomSep | .spFinal _ | .spTag .enc | .spRelease | .spHashInit _
  | .spHashBegin | .spHashRelease => []

/-- The permutation rounds a micro-step runs (R133, R262): a function of its name, BLK and DLEN. -/
def microRounds (T : Tables) (m : MicroStep) (blk dLen : Nat) : Nat :=
  match m with
  | .permRun r => r
  | .spInit v => (aeadParams T v).a
  | .spAdBlock v => (aeadParams T v).b
  | .spTextBlock _ v => (aeadParams T v).b
  | .spFinal v => (aeadParams T v).a
  | .spHashInit h => (hashParams T h).a
  | .spHashBlock h =>
    if blk + 1 < textBlocks dLen (hashParams T h).r then (hashParams T h).b else (hashParams T h).a
  | .spHashSqueeze h => if blk < 3 then (hashParams T h).b else 0
  | .spAdBegin | .spDomSep | .spTextLast _ _ | .spTag _ | .spRelease | .spHashBegin | .spHashRelease => 0

/-- The words on which a micro-step's rounds start: what it does to x before `P(r)` (R136 to R151). -/
def wordsBefore (m : MicroStep) (s : State) : Words :=
  match m with
  | .spInit v => loadAead s.tables v (keyBytes s.tables v s.key) s.nonce.toList
  | .spAdBlock v =>
    let r := (aeadParams s.tables v).r
    let B := block .ad s.adLen r s.blk s
    rateXor r (if s.blk + 1 = adBlocks s.adLen r then pad r B else B) s.x
  | .spTextBlock d v =>
    let r := (aeadParams s.tables v).r
    (duplexBlock d r (memRead .din (r * s.blk) r s) s.x).1
  | .spTextLast d v =>
    let r := (aeadParams s.tables v).r
    (duplexLast d r (memRead .din (r * s.blk) (s.dLen % r) s) s.x).1
  | .spFinal v => stateXorBytes (aeadParams s.tables v).r (keyBytes s.tables v s.key) s.x
  | .spHashInit h => loadHash s.tables h
  | .spHashBlock h =>
    let r := (hashParams s.tables h).r
    let B := block .din s.dLen r s.blk s
    rateXor r (if s.blk + 1 < textBlocks s.dLen r then B else pad r B) s.x
  | .permRun _ | .spAdBegin | .spDomSep | .spTag _ | .spRelease | .spHashBegin | .spHashSqueeze _ | .spHashRelease => s.x

/-- What a micro-step does to the words after its rounds (R136 to R151). -/
def wordsAfter (m : MicroStep) (s : State) (x : Words) : Words :=
  match m with
  | .spInit v => stateXorBytes (40 - (aeadParams s.tables v).k) (keyBytes s.tables v s.key) x
  | .spDomSep => { x with x4 := x.x4 ^^^ 1 }
  | .spFinal v => stateXorBytes 24 ((keyBytes s.tables v s.key).drop ((aeadParams s.tables v).k - 16)) x
  | .spRelease | .spHashRelease => Words.zero
  | .permRun _ | .spAdBegin | .spAdBlock _ | .spTextBlock _ _ | .spTextLast _ _ | .spTag _ | .spHashInit _ | .spHashBegin
  | .spHashBlock _ | .spHashSqueeze _ => x

/-- One entry of the sequencer's trace (R263): the micro-step's name, the BLK and RND it is selected at, the rounds it
runs, the buffer indices it accesses. -/
structure TraceEntry where
  step : MicroStep
  blk : Nat
  rnd : BitVec 4
  rounds : Nat
  touched : List Access
  deriving DecidableEq, Repr

/-- The trace of the sequencer over at most `n` micro-steps (R263). It ends when BUSY falls. -/
def microTrace : Nat → State → List TraceEntry
  | 0, _ => []
  | n + 1, s =>
    if s.busy then
      match nextMicro s with
      | some m =>
        ⟨m, s.blk, s.rnd, microRounds s.tables m s.blk s.dLen, accesses s.tables m s.blk s.adLen s.dLen⟩ ::
          microTrace n (perform m s)
      | none => []
    else []

/-- The number of micro-steps of a command, from acceptance to completion (R133). -/
def microCount (T : Tables) (o : Op) (adLen dLen : Nat) : Nat :=
  match o with
  | .perm _ => 1
  | .aead _ v => adBlocks adLen (aeadParams T v).r + textBlocks dLen (aeadParams T v).r + 6
  | .hash h => textBlocks dLen (hashParams T h).r + 7

/-- The number of permutation rounds of a command (R133, R262). -/
def roundCount (T : Tables) (o : Op) (adLen dLen : Nat) : Nat :=
  match o with
  | .perm r => r
  | .aead _ v =>
    let p := aeadParams T v
    p.a + p.b * adBlocks adLen p.r + p.b * (textBlocks dLen p.r - 1) + p.a
  | .hash h =>
    let p := hashParams T h
    p.a + p.b * (textBlocks dLen p.r - 1) + p.a + 3 * p.b

/-! ## Whole commands -/

/-- `f` applied `n` times. -/
def times : Nat → (State → State) → State → State
  | 0, _, s => s
  | n + 1, f, s => times n f (f s)

/-- The composition of the micro-steps of an ENC or DEC in the order of R132 (R133, 42_aead.md R177), from the state
that acceptance leaves. -/
def aeadBody (d : Dir) (v : AeadVariant) (s : State) : State :=
  let p := aeadParams s.tables v
  let s1 := times (adBlocks s.adLen p.r) (spAdBlock v) (spAdBegin (spInit v s))
  let s2 := times (textBlocks s.dLen p.r - 1) (spTextBlock d v) (spDomSep s1)
  spRelease (spTag d (spFinal v (spTextLast d v s2)))

/-- The composition of the micro-steps of a HASH or HASHA in the order of R132 (R133, 43_hash.md R190). -/
def hashBody (h : HashVariant) (s : State) : State :=
  let s1 := times (textBlocks s.dLen (hashParams s.tables h).r) (spHashBlock h) (spHashBegin (spHashInit h s))
  spHashRelease (times 4 (spHashSqueeze h) s1)

end Sys2Proof.Machine
end

