-- ==== Sys2Proof/Machine/Aead.lean ====
section
/-! DEFINITION. The meanings of ENC and DEC for the three variants (42_aead.md R171 to R176). -/

namespace Sys2Proof.Machine

/-- ENC.128 (R171). -/
def execEnc128 (s : State) : Out := runCommand .enc128 (aeadBody .enc .v128) s

/-- ENC.128A (R172). -/
def execEnc128a (s : State) : Out := runCommand .enc128a (aeadBody .enc .v128a) s

/-- ENC.80PQ (R173). -/
def execEnc80pq (s : State) : Out := runCommand .enc80pq (aeadBody .enc .v80pq) s

/-- DEC.128 (R174). -/
def execDec128 (s : State) : Out := runCommand .dec128 (aeadBody .dec .v128) s

/-- DEC.128A (R175). -/
def execDec128a (s : State) : Out := runCommand .dec128a (aeadBody .dec .v128a) s

/-- DEC.80PQ (R176). -/
def execDec80pq (s : State) : Out := runCommand .dec80pq (aeadBody .dec .v80pq) s

end Sys2Proof.Machine
end

