-- ==== Sys2Proof/Machine/Hash.lean ====
section
/-! DEFINITION. The meanings of HASH and HASHA (43_hash.md R191, R192). -/

namespace Sys2Proof.Machine

/-- HASH (R191). -/
def execHash (s : State) : Out := runCommand .hash (hashBody .hash) s

/-- HASHA (R192). -/
def execHasha (s : State) : Out := runCommand .hasha (hashBody .hasha) s

end Sys2Proof.Machine
end

