-- ==== Sys2Proof/Machine/Perm.lean ====
section
/-! DEFINITION. The meaning of PERM (40_permutation.md R118). -/

namespace Sys2Proof.Machine

/-- PERM r (R118): after acceptance `P(r)` in place, OLEN 0, completion. ILLEGAL_CMD when r is 0 or 13 to 15. -/
def execPerm (r : BitVec 4) (s : State) : Out := runCommand (.perm r) (permRun r.toNat) s

end Sys2Proof.Machine
end

