-- ==== Sys2Proof/Machine/Dispatch.lean ====
section
/-! DEFINITION. The meaning of each command, one arm a constructor. -/

namespace Sys2Proof.Machine

def exec (i : Instr) (s : State) : Host.Outcome State Fault Refusal :=
  match i with
  | .perm r => Sys2Proof.Machine.execPerm r s
  | .enc128 => Sys2Proof.Machine.execEnc128 s
  | .enc128a => Sys2Proof.Machine.execEnc128a s
  | .enc80pq => Sys2Proof.Machine.execEnc80pq s
  | .dec128 => Sys2Proof.Machine.execDec128 s
  | .dec128a => Sys2Proof.Machine.execDec128a s
  | .dec80pq => Sys2Proof.Machine.execDec80pq s
  | .hash => Sys2Proof.Machine.execHash s
  | .hasha => Sys2Proof.Machine.execHasha s

end Sys2Proof.Machine
end

