-- ==== Sys2Proof/Machine/HostPort.lean ====
section
/-! DEFINITION. The host interface (44_host_interface.md): the id map (10_state.md R45), HostRead and HostWrite
(R203 to R210), and the script directives of 30_encoding.md R101 as lists of events. -/

namespace Sys2Proof.Machine

/-- The host-addressable items (R45). -/
inductive Item where
  | cmd | status | keyLen | nonceLen | adLen | dLen | oLen
  | x | key | nonce | tagIn | tagOut | ad | din | dout
  deriving DecidableEq, Repr

/-- The id of an item (R45). -/
def itemId : Item → Nat
  | .cmd => 0x00
  | .status => 0x01
  | .keyLen => 0x02
  | .nonceLen => 0x03
  | .adLen => 0x04
  | .dLen => 0x05
  | .oLen => 0x06
  | .x => 0x10
  | .key => 0x11
  | .nonce => 0x12
  | .tagIn => 0x13
  | .tagOut => 0x14
  | .ad => 0x15
  | .din => 0x16
  | .dout => 0x17

/-- The items in the order of their ids. -/
def allItems : List Item :=
  [.cmd, .status, .keyLen, .nonceLen, .adLen, .dLen, .oLen, .x, .key, .nonce, .tagIn, .tagOut, .ad, .din, .dout]

/-- The item with an id; none where the id is reserved (R45, R210). -/
def itemOf (id : Nat) : Option Item := allItems.find? (fun it => itemId it == id)

/-- The element width in bits (R45). -/
def itemBits (p : Params) : Item → Nat
  | .cmd => 8
  | .status => 16
  | .keyLen | .nonceLen | .adLen | .dLen | .oLen => p.lenw
  | .x => 64
  | .key | .nonce | .tagIn | .tagOut | .ad | .din | .dout => 8

/-- The element count; `none` is unbounded (R45, R14). -/
def itemCount (p : Params) : Item → Option Nat
  | .cmd | .status | .keyLen | .nonceLen | .adLen | .dLen | .oLen => some 1
  | .x => some 5
  | .key => some 20
  | .nonce | .tagIn | .tagOut => some 16
  | .ad => p.adCap
  | .din | .dout => p.dCap

/-- Whether an index lies below a count. -/
def below (idx : Nat) : Option Nat → Bool
  | none => true
  | some c => decide (idx < c)

/-- What a read of an element of an item returns with BUSY = 0 (R204, R205, R206, R209), the index in range. -/
def readItem (it : Item) (idx : Nat) (s : State) : Nat :=
  match it with
  | .cmd => s.cmd.toNat
  | .status => statusValue s
  | .keyLen => s.keyLen
  | .nonceLen => s.nonceLen
  | .adLen => s.adLen
  | .dLen => s.dLen
  | .oLen => s.oLen
  | .x => (s.x.get idx).toNat
  | .key => 0
  | .nonce => ((s.nonce[idx]?).getD 0).toNat
  | .tagIn => ((s.tagIn[idx]?).getD 0).toNat
  | .tagOut => ((s.tagOut[idx]?).getD 0).toNat
  | .ad => (byteAt .ad idx s).toNat
  | .din => (byteAt .din idx s).toNat
  | .dout => if idx < s.oLen then (byteAt .dout idx s).toNat else 0

/-- `HostRead(id, idx)` with BUSY = 0: 0 for a reserved id or an index beyond the count (R210). -/
def hostRead (id idx : Nat) (s : State) : Nat :=
  match itemOf id with
  | none => 0
  | some it => if below idx (itemCount s.env.params it) then readItem it idx s else 0

/-- What a write of `v` to an element of an item does with BUSY = 0 (R203, R204, R207, R210), the index in range. A
value wider than the element cannot be expressed (R200); its low bits are taken (log entry 6). -/
def writeItem (it : Item) (idx v : Nat) (s : State) : State :=
  match it with
  | .cmd => cmdWrite (BitVec.ofNat 8 v) s
  | .keyLen => { s with keyLen := v % 2 ^ s.env.params.lenw }
  | .nonceLen => { s with nonceLen := v % 2 ^ s.env.params.lenw }
  | .adLen => { s with adLen := v % 2 ^ s.env.params.lenw }
  | .dLen => { s with dLen := v % 2 ^ s.env.params.lenw }
  | .x => { s with x := s.x.set idx (BitVec.ofNat 64 v) }
  | .key => { s with key := s.key.setIfInBounds idx (BitVec.ofNat 8 v) }
  | .nonce => { s with nonce := s.nonce.setIfInBounds idx (BitVec.ofNat 8 v) }
  | .tagIn => { s with tagIn := s.tagIn.setIfInBounds idx (BitVec.ofNat 8 v) }
  | .ad => { s with ad := s.ad.put idx (BitVec.ofNat 8 v) }
  | .din => { s with din := s.din.put idx (BitVec.ofNat 8 v) }
  | .status | .oLen | .tagOut | .dout => s

/-- `HostWrite(id, idx, v)` with BUSY = 0: ignored for a reserved id or an index beyond the count (R210). -/
def hostWrite (id idx v : Nat) (s : State) : State :=
  match itemOf id with
  | none => s
  | some it => if below idx (itemCount s.env.params it) then writeItem it idx v s else s

/-! ## The host's script -/

/-- The host has issued the next thing of its script. -/
def popEvent (s : State) : State := { s with env := { s.env with inbox := s.env.inbox.tail } }

/-- A read returns its value to the host (R200); nothing else changes (20_memory.md R70). -/
def answer (v : Nat) (s : State) : State := { s with env := { s.env with answers := v :: s.env.answers } }

/-- Whether a read is `HostRead(STATUS, 0)`, the one transaction accepted with BUSY = 1 (R202, R209). -/
def isStatusRead (id idx : Nat) : Bool := id == itemId .status && idx == 0

/-- The length register that a WR of a byte space also writes (R101): KEYLEN for KEY, NONCELEN for NONCE, ADLEN for AD,
DLEN for DIN; none for the others. -/
def lengthItem : Item → Option Item
  | .key => some .keyLen
  | .nonce => some .nonceLen
  | .ad => some .adLen
  | .din => some .dLen
  | .cmd | .status | .keyLen | .nonceLen | .adLen | .dLen | .oLen | .x | .tagIn | .tagOut | .dout => none

/-- HostWrites of successive elements from index 0 on. -/
def wrElements (it : Item) (vs : List Nat) : List HostEvent := vs.zipIdx.map (fun p => .write (itemId it) p.2 p.1)

/-- HostReads of the first n elements. -/
def rdElements (it : Item) (n : Nat) : List HostEvent := (List.range n).map (fun j => .read (itemId it) j)

/-- How many elements RD reads when the directive gives no number (R101): OLEN for DOUT, all for the others. `none` where
"all" is no number, the unbounded AD and DIN. -/
def rdDefault (it : Item) (s : State) : Option Nat := if it = .dout then some s.oLen else itemCount s.env.params it

/-- The directives of a host script (R101), and the mnemonics (R99). EXPECT is no transaction: see `expected`. -/
inductive Directive where
  /-- RESET. -/
  | reset
  /-- WR of a byte space. -/
  | wr (it : Item) (B : List Byte)
  /-- WR X with five words. -/
  | wrX (x : Words)
  /-- WR X[i] with one word. -/
  | wrWord (i : Nat) (w : Word)
  /-- WRLEN of a length register. -/
  | wrLen (it : Item) (n : Nat)
  /-- RD, with a number or without. -/
  | rd (it : Item) (n : Option Nat)
  /-- A mnemonic of R99. -/
  | run (i : Instr)
  deriving DecidableEq, Repr

/-- The host transactions that a directive stands for, in the state it is reached in (R101). `none` for an RD without a
number where no number is all (log entry 19). -/
def directiveEvents (d : Directive) (s : State) : Option (List HostEvent) :=
  match d with
  | .reset => some [.reset]
  | .wr it B =>
    some (wrElements it (B.map (·.toNat)) ++
      match lengthItem it with
      | some l => [.write (itemId l) 0 B.length]
      | none => [])
  | .wrX x => some (wrElements .x ((List.range 5).map (fun i => (x.get i).toNat)))
  | .wrWord i w => some [.write (itemId .x) i w.toNat]
  | .wrLen it n => some [.write (itemId it) 0 n]
  | .rd it (some n) => some (rdElements it n)
  | .rd it none => (rdDefault it s).map (rdElements it)
  | .run i => some [.command (encode i)]

/-- The directive EXPECT (R101): the values that reads of the first elements give are these. -/
def expected (it : Item) (vs : List Nat) (s : State) : Bool :=
  (List.range vs.length).map (fun j => hostRead (itemId it) j s) == vs

end Sys2Proof.Machine
end

