-- ==== Sys2Proof/Machine/Transact.lean ====
section
/-! DEFINITION. What one step does: the host's next transaction with BUSY = 0 (44_host_interface.md R201), a micro-step
of the sequencer with BUSY = 1 (41_sponge.md R130), with the busy rule R202 between them; and how a command is placed
for the next step. -/

namespace Sys2Proof.Machine

/-- A step with BUSY = 0 (R201): the next thing of the host's script. With nothing to do the block stays as it is
(70_reset_and_hazards.md R252). -/
def idleStep (s : State) : Out :=
  match s.env.inbox with
  | [] => .next s
  | .pause :: _ => .next (popEvent s)
  | .reset :: _ => .next (resetEvent (popEvent s))
  | .read id idx :: _ => .next (answer (hostRead id idx s) (popEvent s))
  | .write id idx v :: _ => .next (hostWrite id idx v (popEvent s))
  | .command w :: _ =>
    match decode w with
    | .legal i => exec i (popEvent s)
    | .illegal _ => runIllegal (popEvent s)

/-- A step with BUSY = 1 (R201, R202): RESET and a STATUS read happen; any other transaction stays in the script, held,
and the sequencer does its micro-step; a pause lets one micro-step pass. -/
def busyStep (s : State) : Out :=
  match s.env.inbox with
  | [] => sequencerStep s
  | .pause :: _ => sequencerStep (popEvent s)
  | .reset :: _ => .next (resetEvent (popEvent s))
  | .read id idx :: _ =>
    if isStatusRead id idx then .next (answer (statusValue s) (popEvent s)) else sequencerStep s
  | .write _ _ _ :: _ => sequencerStep s
  | .command _ :: _ => sequencerStep s

/-- `s` with a command word as the next thing the host issues, as a mnemonic (30_encoding.md R99), and the block idle
so that the very next step runs it (log entry 7). A command is one byte; every bit at or above `nbits` is zero. -/
def placeCommand (nbits w : Nat) (s : State) : State :=
  { s with
    busy := false
    env := { s.env with inbox := .command (BitVec.ofNat 8 (w % 2 ^ nbits)) :: s.env.inbox } }

end Sys2Proof.Machine
end

