-- ==== Sys2Proof/Machine/Step.lean ====
section
/-! DEFINITION. One step of the machine, and how a command is placed for it. -/

namespace Sys2Proof.Machine

/-- One step of the machine: the sequencer's when BUSY = 1, the host's when BUSY = 0 (44_host_interface.md R201). -/
def step (s : State) : Host.Outcome State Fault Refusal := if s.busy then busyStep s else idleStep s

/-- `s` with a command placed where the next step takes it from (log entry 7). -/
def State.withFetchWord (s : State) (nbits w : Nat) : State := placeCommand nbits w s

end Sys2Proof.Machine
end

