-- ==== Sys2Proof/Machine/Cores.lean ====
section
/-! DEFINITION. N_CORES copies of the block (20_memory.md R77, 60_exceptions.md R238): the product of the one-copy
machine with itself, with no interaction. -/

namespace Sys2Proof.Machine

/-- N_CORES copies right after reset (00_scope.md R14, R238): each has its own number, so that the bytes nothing has
written are each copy's own, and all have the same parameters and constant tables (R77, log entry 17). -/
def resetCopies (n : Nat) (p : Params) : List State :=
  (List.range n).map (fun k => { State.reset with env := { State.reset.env with copy := k, params := p } })

/-- Copy `n` of several takes one step; the other copies do not (R77). `none` where there is no such copy or the step
stops. -/
def stepCopy (n : Nat) (cores : List State) : Option (List State) :=
  match cores[n]? with
  | none => none
  | some s =>
    match step s with
    | .next t => some (cores.set n t)
    | .fault _ => none
    | .refused _ => none

end Sys2Proof.Machine
end

