-- ==== Sys2Proof/Machine/Pure.lean ====
section
/-! DEFINITION. The pure functions of the commands on byte sequences: Duplex, Encrypt and Decrypt (42_aead.md R177) and
Hash (43_hash.md R190). No meaning uses them: they are what the machine's results are stated against. -/

namespace Sys2Proof.Machine

/-- Absorb `n` full blocks of `r` bytes, `P(p)` after each (R138, R149). -/
def absorbFull (T : Tables) (r p : Nat) : Nat → List Byte → Words → Words
  | 0, _, x => x
  | n + 1, D, x => absorbFull T r p n (D.drop r) (permute T p (rateXor r (D.take r) x))

/-- Absorb the associated data (R138): nothing when it is empty, else the full blocks and one padded block, each followed
by `P(b)`. -/
def absorbAd (T : Tables) (v : AeadVariant) (A : List Byte) (x : Words) : Words :=
  let p := aeadParams T v
  if A = [] then x
  else
    permute T p.b (rateXor p.r (pad p.r (A.drop (p.r * (A.length / p.r)))) (absorbFull T p.r p.b (A.length / p.r) A x))

/-- Duplex `n` full blocks of text, `P(b)` after each (R142): the words after them and the bytes put out. -/
def duplexFull (T : Tables) (d : Dir) (v : AeadVariant) : Nat → List Byte → Words → Words × List Byte
  | 0, _, x => (x, [])
  | n + 1, D, x =>
    let p := aeadParams T v
    let res := duplexBlock d p.r (D.take p.r) x
    let rest := duplexFull T d v n (D.drop p.r) (permute T p.b res.1)
    (rest.1, res.2 ++ rest.2)

/-- Duplex the whole text (R142, R143): all the full blocks, then the last, partial one. -/
def duplexText (T : Tables) (d : Dir) (v : AeadVariant) (D : List Byte) (x : Words) : Words × List Byte :=
  let r := (aeadParams T v).r
  let full := duplexFull T d v (D.length / r) D x
  let last := duplexLast d r (D.drop (r * (D.length / r))) full.1
  (last.1, full.2 ++ last.2)

/-- The words after SP_INIT (R136). -/
def initAead (T : Tables) (v : AeadVariant) (K N : List Byte) : Words :=
  let p := aeadParams T v
  stateXorBytes (40 - p.k) K (permute T p.a (loadAead T v K N))

/-- The words after SP_DOMSEP (R141). -/
def separate (x : Words) : Words := { x with x4 := x.x4 ^^^ 1 }

/-- The words after SP_FINAL (R144). -/
def finalAead (T : Tables) (v : AeadVariant) (K : List Byte) (x : Words) : Words :=
  let p := aeadParams T v
  stateXorBytes 24 (K.drop (p.k - 16)) (permute T p.a (stateXorBytes p.r K x))

/-- `Duplex(dir, v, K, N, A, D)` (R177): the bytes put out and the tag. -/
def duplex (T : Tables) (d : Dir) (v : AeadVariant) (K N A D : List Byte) : List Byte × Vector Byte 16 :=
  let text := duplexText T d v D (separate (absorbAd T v A (initAead T v K N)))
  (text.2, tagOf (finalAead T v K text.1))

/-- `Encrypt(v, K, N, A, P)` (R177): ciphertext and tag. -/
def encrypt (T : Tables) (v : AeadVariant) (K N A P : List Byte) : List Byte × Vector Byte 16 := duplex T .enc v K N A P

/-- `Decrypt(v, K, N, A, C, Tin)` (R177): verified and the plaintext, or not and zeros. -/
def decrypt (T : Tables) (v : AeadVariant) (K N A C : List Byte) (Tin : Vector Byte 16) : Bool × List Byte :=
  let res := duplex T .dec v K N A C
  if res.2 = Tin then (true, res.1) else (false, List.replicate C.length 0)

/-- The words after the whole message is absorbed (R147, R149): `P(a)` after the padded block. -/
def absorbMessage (T : Tables) (h : HashVariant) (M : List Byte) : Words :=
  let p := hashParams T h
  let x := absorbFull T p.r p.b (M.length / p.r) M (permute T p.a (loadHash T h))
  permute T p.a (rateXor p.r (pad p.r (M.drop (p.r * (M.length / p.r)))) x)

/-- Squeeze `n` times 8 bytes, `P(b)` between two squeezes (R150). -/
def squeeze (T : Tables) (h : HashVariant) : Nat → Words → List Byte
  | 0, _ => []
  | 1, x => bytes64 x.x0
  | n + 2, x => bytes64 x.x0 ++ squeeze T h (n + 1) (permute T (hashParams T h).b x)

/-- `Hash(h, M)` (R190): the 32-byte digest. -/
def hashDigest (T : Tables) (h : HashVariant) (M : List Byte) : List Byte := squeeze T h 4 (absorbMessage T h M)

end Sys2Proof.Machine
end

