-- ==== Sys2Proof/Safety.lean ====
section
/-! DEFINITION. What counts as a good state: when a command can start (44_host_interface.md R207), the invariant that
every step keeps, what a fault leaves (60_exceptions.md R228), and the contract about rejected plaintext (R44). -/

namespace Sys2Proof.Machine

/-- The block checks a CMD write: BUSY = 0 and ERR = 0 (R207). -/
def Ready (s : State) : Prop := s.busy = false ∧ s.err = false

/-- The conditions under which an ENC or DEC of variant `v` executes (42_aead.md R178, R207). -/
def AeadReady (v : AeadVariant) (s : State) : Prop :=
  Ready s ∧ s.keyLen = (aeadParams s.tables v).k ∧ s.nonceLen = 16 ∧
    exceeds s.adLen s.env.params.adCap = false ∧ exceeds s.dLen s.env.params.dCap = false

/-- The conditions under which a HASH or HASHA executes (43_hash.md R190, R207). -/
def HashReady (s : State) : Prop := Ready s ∧ exceeds s.dLen s.env.params.dCap = false

/-- The ENC command of a variant (30_encoding.md R94). -/
def encOf : AeadVariant → Instr
  | .v128 => .enc128
  | .v128a => .enc128a
  | .v80pq => .enc80pq

/-- The DEC command of a variant (R94). -/
def decOf : AeadVariant → Instr
  | .v128 => .dec128
  | .v128a => .dec128a
  | .v80pq => .dec80pq

/-- The HASH command of a variant (R95). -/
def hashOf : HashVariant → Instr
  | .hash => .hash
  | .hasha => .hasha

/-- `i` is the ENC or the DEC of variant `v`. -/
def AeadOf (v : AeadVariant) (i : Instr) : Prop := i = encOf v ∨ i = decOf v

/-- The associated data a command reads, `AD[0..ADLEN)` (42_aead.md R170). -/
def adBytes (s : State) : List Byte := memRead .ad 0 s.adLen s

/-- The text a command reads, `DIN[0..DLEN)` (R170). -/
def dinBytes (s : State) : List Byte := memRead .din 0 s.dLen s

/-- `t` is what fault entry with code `c` leaves of `s` (R228): every field by name. -/
structure Faulted (c : ErrCode) (s t : State) : Prop where
  err : t.err = true
  errCode : t.errCode = c
  x : t.x = ⟨0, 0, 0, 0, 0⟩
  key : t.key = Vector.replicate 20 0
  keyLen : t.keyLen = 0
  oLen : t.oLen = 0
  tagOut : t.tagOut = Vector.replicate 16 0
  verified : t.verified = false
  phase : t.phase = .uninitialized
  cmd : t.cmd = s.cmd
  busy : t.busy = s.busy
  done : t.done = s.done
  rnd : t.rnd = s.rnd
  blk : t.blk = s.blk
  nonce : t.nonce = s.nonce
  nonceLen : t.nonceLen = s.nonceLen
  tagIn : t.tagIn = s.tagIn
  adLen : t.adLen = s.adLen
  dLen : t.dLen = s.dLen
  ad : t.ad = s.ad
  din : t.din = s.din
  dout : t.dout = s.dout
  env : t.env = s.env

/-- What no command changes (20_memory.md R61, 10_state.md R24, R25, R38 to R40, R42, R43): the operands other than the
key, and the model's own fields. -/
structure OperandsKept (s t : State) : Prop where
  nonce : t.nonce = s.nonce
  nonceLen : t.nonceLen = s.nonceLen
  tagIn : t.tagIn = s.tagIn
  adLen : t.adLen = s.adLen
  dLen : t.dLen = s.dLen
  ad : t.ad = s.ad
  din : t.din = s.din
  env : t.env = s.env

/-- The constraints R14 puts on the open parameters. -/
structure ParamsOk (p : Params) : Prop where
  lenw : 6 ≤ p.lenw
  adCap : ∀ c, p.adCap = some c → c < 2 ^ p.lenw
  dCap : ∀ c, p.dCap = some c → 32 ≤ c ∧ c < 2 ^ p.lenw

/-- A buffer in canonical form with no byte at or beyond its capacity. -/
def BufferOk (m : Memory) (cap : Option Nat) : Prop := m.wf ∧ ∀ c ∈ m, below c.1 cap = true

/-- A command in flight (R28, R131, R132): the latched word is legal and passed its checks, a row of the transition table
matches, and nothing of the results shows. PERM leaves PHASE as an idle block has it. -/
structure Running (s : State) : Prop where
  notErr : s.err = false
  notDone : s.done = false
  hidden : s.oLen = 0
  command : ∃ i, decode s.cmd = .legal i ∧ checkOperands (opOf i) s = none ∧
    (∀ r, opOf i = .perm r → s.phase = .uninitialized ∨ s.phase = .done)
  row : (nextMicro s).isSome = true

/-- The invariant of the machine: the idle invariant of 10_state.md R46, the running states of R132, the fault flags
(R36, R231), the widths of the length registers (R37 to R41), the form of the buffers. -/
structure StateInv (s : State) : Prop where
  params : ParamsOk s.env.params
  ad : BufferOk s.ad s.env.params.adCap
  din : BufferOk s.din s.env.params.dCap
  dout : BufferOk s.dout s.env.params.dCap
  keyLen : s.keyLen < 2 ^ s.env.params.lenw
  nonceLen : s.nonceLen < 2 ^ s.env.params.lenw
  adLen : s.adLen < 2 ^ s.env.params.lenw
  dLen : s.dLen < 2 ^ s.env.params.lenw
  oLen : s.oLen < 2 ^ s.env.params.lenw ∧ exceeds s.oLen s.env.params.dCap = false
  rnd : s.rnd = 12
  idle : s.busy = false → s.blk = 0 ∧ (s.phase = .uninitialized ∨ s.phase = .done)
  running : s.busy = true → Running s
  code : s.err = false ↔ s.errCode = .none
  faulted : s.err = true → s.phase = .uninitialized ∧ s.oLen = 0 ∧ s.verified = false ∧
    s.tagOut = Vector.replicate 16 0
  cmd : s.cmd = 0 ∨ ∃ i, decode s.cmd = .legal i
  verified : s.verified = true → ∃ i v, decode s.cmd = .legal i ∧ opOf i = .aead .dec v

/-- The latched command is a DEC. -/
def LatchedDec (s : State) : Prop := ∃ i v, decode s.cmd = .legal i ∧ opOf i = .aead .dec v

/-- The contract on rejected plaintext (R44, R145, R226): once a DEC has compared its tags without success, every stored
output byte it would release is 0, both between the comparison and the release and after the release. -/
structure PlaintextHidden (s : State) : Prop where
  released : s.busy = false → LatchedDec s → s.verified = false → ∀ j < s.oLen, byteAt .dout j s = 0
  compared : s.busy = true → LatchedDec s → s.verified = false → s.phase = .finalizing → s.blk = 2 →
    ∀ j < s.dLen, byteAt .dout j s = 0

end Sys2Proof.Machine
end

