-- ==== Sys2Proof/Certificates/Slice0/Obligations.lean ====
section
/-! DEFINITION. The statements for the provers, from the numbered rules of spec/. -/

open Sys2Proof Sys2Proof.Machine

/-! ## Encoding -/

/-- Decode and encode agree on every command and every word: no bit of an encoding is dropped (30_encoding.md R90 to
R97). -/
def Obligations.DecodeInvertsEncode : Prop :=
  (∀ i : Instr, i.wellFormed = true → decode (encode i) = .legal i) ∧
    ∀ (w : Byte) (i : Instr), decode w = .legal i → i.wellFormed = true ∧ encode i = w

/-- R96, R97: the legal words are the 20 of the printed list, each with its command; the other 236 are illegal. -/
def Obligations.LegalWordsAreTheTable : Prop :=
  (∀ (w : Byte) (i : Instr), decode w = .legal i ↔ (w, i) ∈ wordTable) ∧
    wordTable.length = 20 ∧
    ((List.range 256).filter (fun n => (decode (BitVec.ofNat 8 n)).instr?.isNone)).length = 236

/-- A word of each family, written out bit by bit from R92 to R95, and the illegal words of R93 and R222. -/
def Obligations.FamilyWordsDecode : Prop :=
  decode 0b00011100 = .legal (.perm 12) ∧ decode 0b00010001 = .legal (.perm 1) ∧
    decode 0b00100001 = .legal .enc128a ∧ decode 0b00110010 = .legal .dec80pq ∧
    decode 0b01000000 = .legal .hash ∧ decode 0b01000001 = .legal .hasha ∧
    decode 0b00010000 = .illegal (.permRounds 0) ∧ decode 0b00011101 = .illegal (.permRounds 13) ∧
    decode 0b00100011 = .illegal (.aeadVariant 3) ∧ decode 0b01000010 = .illegal (.hashVariant 2) ∧
    decode 0b00000000 = .illegal (.reservedOp 0) ∧ decode 0b01010000 = .illegal (.reservedOp 5)

/-! ## The permutation -/

/-- R113: on every column `pS` acts as SBOX and as the algebraic form; SBOX takes every value of 0..31 once. The table
and the form are marked in the spec as derived from R112. -/
def Obligations.SubstitutionActsOnColumns : Prop :=
  (∀ (x : Words) (j : Nat), j < 64 →
    let a := x.x0.getLsbD j
    let b := x.x1.getLsbD j
    let c := x.x2.getLsbD j
    let d := x.x3.getLsbD j
    let e := x.x4.getLsbD j
    column (pS x) j = sboxTable.getD (column x j) 0 ∧
      (pS x).x0.getLsbD j = ((e && b) ^^ d ^^ (c && b) ^^ c ^^ (b && a) ^^ b ^^ a) ∧
      (pS x).x1.getLsbD j = (e ^^ (d && c) ^^ (d && b) ^^ d ^^ (c && b) ^^ c ^^ b ^^ a) ∧
      (pS x).x2.getLsbD j = ((e && d) ^^ e ^^ c ^^ b ^^ true) ∧
      (pS x).x3.getLsbD j = ((e && a) ^^ e ^^ (d && a) ^^ d ^^ c ^^ b ^^ a) ∧
      (pS x).x4.getLsbD j = ((e && b) ^^ e ^^ d ^^ (b && a) ^^ b)) ∧
    sboxTable.Perm (List.range 32)

/-- R114 with R15: bit j of a word after `pL` is the XOR of its bits j, j + a and j + b modulo 64, with the word's pair
of the spec's ROT. -/
def Obligations.LinearLayerMixesBits : Prop :=
  ∀ (x : Words) (j : Nat), j < 64 →
    (pL specTables x).x0.getLsbD j = (x.x0.getLsbD j ^^ x.x0.getLsbD ((j + 19) % 64) ^^ x.x0.getLsbD ((j + 28) % 64)) ∧
    (pL specTables x).x1.getLsbD j = (x.x1.getLsbD j ^^ x.x1.getLsbD ((j + 61) % 64) ^^ x.x1.getLsbD ((j + 39) % 64)) ∧
    (pL specTables x).x2.getLsbD j = (x.x2.getLsbD j ^^ x.x2.getLsbD ((j + 1) % 64) ^^ x.x2.getLsbD ((j + 6) % 64)) ∧
    (pL specTables x).x3.getLsbD j = (x.x3.getLsbD j ^^ x.x3.getLsbD ((j + 10) % 64) ^^ x.x3.getLsbD ((j + 17) % 64)) ∧
    (pL specTables x).x4.getLsbD j = (x.x4.getLsbD j ^^ x.x4.getLsbD ((j + 7) % 64) ^^ x.x4.getLsbD ((j + 41) % 64))

/-- R119: with the spec's tables `pC(i)` is its own inverse, and `pS`, `pL`, `ROUND(i)` and `P(r)` are bijections on the
320-bit state. The indices beyond 11 and the round counts outside 1 to 12, which no command reaches, rest on log entry
14. -/
def Obligations.PermutationIsBijective : Prop :=
  (∀ (i : Nat) (x : Words), pC specTables i (pC specTables i x) = x) ∧ Function.Bijective pS ∧
    Function.Bijective (pL specTables) ∧ (∀ i : Nat, Function.Bijective (roundAt specTables i)) ∧
    ∀ r : Nat, Function.Bijective (permute specTables r)

/-- R116: `P(r)` applies ROUND(i) for i = 12 − r to 11 in increasing order, and is the last r rounds of `P(12)`, with any
constant tables. No round, r = 0, is log entry 14's. -/
def Obligations.ScheduleCountsUpToEleven : Prop :=
  ∀ (T : Tables) (r : Nat) (x : Words), r ≤ 12 →
    permute T r x = (List.range' (12 - r) r).foldl (fun y i => roundAt T i y) x ∧
      permute T 12 x = permute T r ((List.range (12 - r)).foldl (fun y i => roundAt T i y) x)

/-! ## Byte order, padding, blocks, key positions -/

/-- R62: `be64` as the sum of R62 (and `be32`), `bytes64` its inverse, byte n of the 40-byte view of the state. -/
def Obligations.ByteOrderIsBigEndian : Prop :=
  (∀ w : Word, beWord (bytes64 w) = w) ∧
    (∀ B : List Byte, B.length = 8 → bytes64 (beWord B) = B) ∧
    (∀ b0 b1 b2 b3 b4 b5 b6 b7 : Byte, (beWord [b0, b1, b2, b3, b4, b5, b6, b7]).toNat =
      b0.toNat * 2 ^ 56 + b1.toNat * 2 ^ 48 + b2.toNat * 2 ^ 40 + b3.toNat * 2 ^ 32 + b4.toNat * 2 ^ 24 +
        b5.toNat * 2 ^ 16 + b6.toNat * 2 ^ 8 + b7.toNat) ∧
    (∀ b0 b1 b2 b3 : Byte, (beWord [b0, b1, b2, b3]).toNat =
      b0.toNat * 2 ^ 24 + b1.toNat * 2 ^ 16 + b2.toNat * 2 ^ 8 + b3.toNat) ∧
    ∀ (x : Words) (n : Nat), n < 40 →
      x.bytes[n]? = some ((x.get (n / 8)).extractLsb' (56 - 8 * (n % 8)) 8)

/-- R64: the padded block has exactly r bytes, the data, then 0x80, then zeros; the padding of an empty block flips
only bit 63 of x[0]. -/
def Obligations.PaddingFillsTheBlock : Prop :=
  (∀ (r : Nat) (B : List Byte), B.length < r →
    (pad r B).length = r ∧ (pad r B).take B.length = B ∧ (pad r B)[B.length]? = some 0x80 ∧
      ∀ j, B.length < j → j < r → (pad r B)[j]? = some 0) ∧
    ∀ (r : Nat) (x : Words), r = 8 ∨ r = 16 →
      rateXor r (pad r []) x = { x with x0 := x.x0 ^^^ 0x8000000000000000 }

/-- R65, R66: the t blocks of a stream, in order, are the stream; all but the last are full and the last has
`len mod r` bytes. -/
def Obligations.BlocksPartitionTheStream : Prop :=
  ∀ (b : Buf) (len r : Nat) (s : State), 0 < r →
    (List.range (textBlocks len r)).flatMap (fun j => block b len r j s) = memRead b 0 len s ∧
      (∀ j < len / r, (block b len r j s).length = r) ∧
      (block b len r (len / r) s).length = len % r ∧
      (len ≠ 0 → adBlocks len r = len / r + 1) ∧ adBlocks 0 r = 0

/-- R136, 90_conflicts.md C7: with the spec's tables the loaded state is the 40-byte string IV, key, nonce, for every
variant. -/
def Obligations.LoadedStateIsIvKeyNonce : Prop :=
  ∀ K N : List Byte, N.length = 16 →
    (K.length = 16 → (loadAead specTables .v128 K N).bytes = [0x80, 0x40, 0x0c, 0x06, 0, 0, 0, 0] ++ K ++ N) ∧
      (K.length = 16 → (loadAead specTables .v128a K N).bytes = [0x80, 0x80, 0x0c, 0x08, 0, 0, 0, 0] ++ K ++ N) ∧
      (K.length = 20 → (loadAead specTables .v80pq K N).bytes = [0xa0, 0x40, 0x0c, 0x06] ++ K ++ N)

/-- R144's table and the words of R136: where each key XOR lands, for 16-byte and 20-byte keys. -/
def Obligations.KeyXorLandsInWords : Prop :=
  ∀ (x : Words) (K : List Byte),
    (K.length = 16 →
      stateXorBytes 24 K x = { x with x3 := x.x3 ^^^ beWord (K.take 8), x4 := x.x4 ^^^ beWord (K.drop 8) } ∧
        stateXorBytes 8 K x = { x with x1 := x.x1 ^^^ beWord (K.take 8), x2 := x.x2 ^^^ beWord (K.drop 8) } ∧
        stateXorBytes 16 K x = { x with x2 := x.x2 ^^^ beWord (K.take 8), x3 := x.x3 ^^^ beWord (K.drop 8) }) ∧
      (K.length = 20 →
        stateXorBytes 20 K x =
            { x with
              x2 := x.x2 ^^^ beWord (K.take 4)
              x3 := x.x3 ^^^ beWord ((K.drop 4).take 8)
              x4 := x.x4 ^^^ beWord (K.drop 12) } ∧
          stateXorBytes 8 K x =
            { x with
              x1 := x.x1 ^^^ beWord (K.take 8)
              x2 := x.x2 ^^^ beWord ((K.drop 8).take 8)
              x3 := x.x3 ^^^ (beWord (K.drop 16) <<< 32) })

/-- R143, its derived form of the last block of DEC: rate bytes 0 to ℓ − 1 become the ciphertext bytes, byte ℓ is XORed
with 0x80, the rest and the capacity stay. -/
def Obligations.LastBlockRestoresCiphertext : Prop :=
  ∀ (r : Nat) (B : List Byte) (x : Words), r = 8 ∨ r = 16 → B.length < r →
    rateGet r (duplexLast .dec r B x).1 =
        B ++ ((rateGet r x).getD B.length 0 ^^^ 0x80) :: (rateGet r x).drop (B.length + 1) ∧
      (duplexLast .dec r B x).1.x2 = x.x2 ∧ (duplexLast .dec r B x).1.x3 = x.x3 ∧
      (duplexLast .dec r B x).1.x4 = x.x4 ∧ (r = 8 → (duplexLast .dec r B x).1.x1 = x.x1)

/-- R145, R35: the comparison succeeds exactly when all 128 bits are equal, and the mask is all ones exactly then. -/
def Obligations.TagComparisonIsEquality : Prop :=
  ∀ T U : Vector Byte 16,
    (tagMatches T U = true ↔ T = U) ∧ (T = U → tagMask T U = 0xff) ∧ (T ≠ U → tagMask T U = 0x00)

/-! ## What the commands do -/

/-- R118: on a ready block PERM r, 1 ≤ r ≤ 12, replaces x by `P(r)` of x, leaves RND 12, OLEN 0, TAGOUT 0, VERIFIED 0,
DONE 1, CMD the word, and changes nothing else. With any other r, a command that the decoder never gives (log entry
15), it faults with ILLEGAL_CMD and leaves what R228 says. -/
def Obligations.PermPermutesInPlace : Prop :=
  ∀ (r : BitVec 4) (s : State), Ready s →
    (1 ≤ r.toNat ∧ r.toNat ≤ 12 → exec (.perm r) s = .next { s with
      x := permute s.tables r.toNat s.x, rnd := 12, cmd := 0x10 + r.setWidth 8, busy := false, done := true
      verified := false, oLen := 0, tagOut := Vector.replicate 16 0 }) ∧
      (¬ (1 ≤ r.toNat ∧ r.toNat ≤ 12) → ∃ t, exec (.perm r) s = .next t ∧ Faulted .illegalCmd s t)

/-- R171 to R173: ENC.128, ENC.128A and ENC.80PQ write the ciphertext of `Encrypt` to DOUT and its tag to TAGOUT, set
OLEN to DLEN, zero x, KEY and KEYLEN, end in phase Done with DONE = 1 and VERIFIED = 0, and change nothing else. -/
def Obligations.EncCommandsEncrypt : Prop :=
  ∀ (v : AeadVariant) (s : State), AeadReady v s →
    let res := encrypt s.tables v (keyBytes s.tables v s.key) s.nonce.toList (adBytes s) (dinBytes s)
    exec (encOf v) s = .next { s with
      dout := s.dout.putBytes 0 res.1, tagOut := res.2, oLen := s.dLen, x := ⟨0, 0, 0, 0, 0⟩
      key := Vector.replicate 20 0, keyLen := 0, phase := .done, blk := 0, rnd := 12, busy := false
      done := true, verified := false, cmd := encode (encOf v) }

/-- R174 to R176: DEC.128, DEC.128A and DEC.80PQ write what `Decrypt` returns (the plaintext, or zeros) to DOUT and its
verdict to VERIFIED, leave TAGOUT 0, set OLEN to DLEN, zero x, KEY and KEYLEN, end in phase Done with DONE = 1, and
change nothing else. -/
def Obligations.DecCommandsDecrypt : Prop :=
  ∀ (v : AeadVariant) (s : State), AeadReady v s →
    let res := decrypt s.tables v (keyBytes s.tables v s.key) s.nonce.toList (adBytes s) (dinBytes s) s.tagIn
    exec (decOf v) s = .next { s with
      dout := s.dout.putBytes 0 res.2, verified := res.1, tagOut := Vector.replicate 16 0, oLen := s.dLen
      x := ⟨0, 0, 0, 0, 0⟩, key := Vector.replicate 20 0, keyLen := 0, phase := .done, blk := 0, rnd := 12
      busy := false, done := true, cmd := encode (decOf v) }

/-- R191, R192: HASH and HASHA write the digest of the message to DOUT[0..32), set OLEN to 32, zero x, leave TAGOUT 0
and VERIFIED 0, end in phase Done with DONE = 1, and change nothing else; KEY and KEYLEN keep their values. -/
def Obligations.HashCommandsDigest : Prop :=
  ∀ (h : HashVariant) (s : State), HashReady s →
    exec (hashOf h) s = .next { s with
      dout := s.dout.putBytes 0 (hashDigest s.tables h (dinBytes s)), oLen := 32, x := ⟨0, 0, 0, 0, 0⟩
      tagOut := Vector.replicate 16 0, verified := false, phase := .done, blk := 0, rnd := 12, busy := false
      done := true, cmd := encode (hashOf h) }

/-- R133: a whole command is the composition of its micro-steps: from acceptance the sequencer runs exactly
`microCount` micro-steps, BUSY falls at the last, and the state it then leaves is what `exec` answers. PERM's row of
R132 needs BLK = 0, which the idle invariant gives. -/
def Obligations.CommandIsItsMicroSteps : Prop :=
  ∀ (i : Instr) (s : State), Ready s → checkCommand i s = none → s.blk = 0 →
    ∃ t, runMicro (microCount s.tables (opOf i) s.adLen s.dLen) (accepted i s) = some t ∧ t.busy = false ∧
      exec i s = .next t

/-- R133, R262: the trace of a whole command has `microCount` entries, and the rounds in it add up to `roundCount`; and
the rounds a trace lists for a micro-step are those it runs: the words it leaves are the words before its permutation,
`P` of that many rounds, and what it does to the words afterwards. -/
def Obligations.CommandWorkIsCounted : Prop :=
  (∀ (i : Instr) (s : State) (n : Nat), Ready s → checkCommand i s = none → s.blk = 0 →
    microCount s.tables (opOf i) s.adLen s.dLen ≤ n →
    (microTrace n (accepted i s)).length = microCount s.tables (opOf i) s.adLen s.dLen ∧
      ((microTrace n (accepted i s)).map (·.rounds)).sum = roundCount s.tables (opOf i) s.adLen s.dLen) ∧
    ∀ (s : State) (m : MicroStep), nextMicro s = some m →
      (perform m s).x = wordsAfter m s (permute s.tables (microRounds s.tables m s.blk s.dLen) (wordsBefore m s))

/-! ## What the modes give -/

/-- R179 (1): decrypting the result of an encryption with the same operands verifies and gives the plaintext, for every
length. -/
def Obligations.DecryptInvertsEncrypt : Prop :=
  ∀ (T : Tables) (v : AeadVariant) (K N A P : List Byte),
    decrypt T v K N A (encrypt T v K N A P).1 (encrypt T v K N A P).2 = (true, P)

/-- R179 (3): with any other tag the decryption is rejected and returns zeros of the plaintext's length. -/
def Obligations.OtherTagsAreRejected : Prop :=
  ∀ (T : Tables) (v : AeadVariant) (K N A P : List Byte) (U : Vector Byte 16), U ≠ (encrypt T v K N A P).2 →
    decrypt T v K N A (encrypt T v K N A P).1 U = (false, List.replicate P.length 0)

/-- R179 (2), R190: ciphertext and decrypted text have the length of the input, a digest has 32 bytes. -/
def Obligations.OutputLengths : Prop :=
  (∀ (T : Tables) (v : AeadVariant) (K N A P : List Byte), (encrypt T v K N A P).1.length = P.length) ∧
    (∀ (T : Tables) (v : AeadVariant) (K N A C : List Byte) (U : Vector Byte 16),
      (decrypt T v K N A C U).2.length = C.length) ∧
    ∀ (T : Tables) (h : HashVariant) (M : List Byte), (hashDigest T h M).length = 32

/-- R152: for the same constant tables, variant, key, nonce and associated data, DEC of the ciphertext visits the same
words after each micro-step as ENC of the plaintext. -/
def Obligations.DirectionsVisitTheSameStates : Prop :=
  ∀ (v : AeadVariant) (s t : State), AeadReady v s → AeadReady v t → s.tables = t.tables →
    keyBytes s.tables v s.key = keyBytes t.tables v t.key → s.nonce = t.nonce → adBytes s = adBytes t →
    dinBytes t = (encrypt s.tables v (keyBytes s.tables v s.key) s.nonce.toList (adBytes s) (dinBytes s)).1 →
    ∀ n, 1 ≤ n →
      (runMicro n (accepted (encOf v) s)).map (·.x) = (runMicro n (accepted (decOf v) t)).map (·.x)

/-- R263: the trace of micro-steps, BLK, RND, rounds and buffer indices is the same for any two states that agree on
BUSY, CMD, PHASE, BLK, RND, ADLEN and DLEN and have the same constant tables, whatever x, KEY, NONCE, TAGIN and the
buffers hold. -/
def Obligations.TraceIgnoresData : Prop :=
  ∀ (n : Nat) (s t : State), s.tables = t.tables → s.busy = t.busy → s.cmd = t.cmd → s.phase = t.phase →
    s.blk = t.blk → s.rnd = t.rnd → s.adLen = t.adLen → s.dLen = t.dLen → microTrace n s = microTrace n t

/-- R67: every index a selected micro-step accesses lies inside its stream: AD below ADLEN, DIN below DLEN, DOUT below
DLEN for the micro-steps of ENC and DEC and below 32, the digest's length, for those of HASH. -/
def Obligations.AccessesStayInsideStreams : Prop :=
  ∀ (s : State) (m : MicroStep), nextMicro s = some m → ∀ a ∈ accesses s.tables m s.blk s.adLen s.dLen,
    (a.buf = .ad → a.first + a.count ≤ s.adLen) ∧ (a.buf = .din → a.first + a.count ≤ s.dLen) ∧
      (a.buf = .dout → (∀ h, m ≠ .spHashSqueeze h) → a.first + a.count ≤ s.dLen) ∧
      (a.buf = .dout → ∀ h, m = .spHashSqueeze h → a.first + a.count ≤ 32)

/-- R61, R67: a micro-step changes no byte of AD or DIN, and no byte of DOUT outside the indices it is listed to write; and
neither the words it leaves nor the bytes it writes to DOUT depend on a buffer byte outside the indices it is listed to
read. -/
def Obligations.AccessesAreAllThereIs : Prop :=
  ∀ (m : MicroStep) (s : State),
    (perform m s).ad = s.ad ∧ (perform m s).din = s.din ∧
    (∀ j, byteAt .ad j (perform m s) = byteAt .ad j s ∧ byteAt .din j (perform m s) = byteAt .din j s) ∧
    (∀ j, (∀ a ∈ accesses s.tables m s.blk s.adLen s.dLen, a.write = true → ¬ (a.first ≤ j ∧ j < a.first + a.count)) →
      byteAt .dout j (perform m s) = byteAt .dout j s) ∧
    ∀ t : State, s.tables = t.tables → s.x = t.x → s.key = t.key → s.nonce = t.nonce → s.tagIn = t.tagIn →
      s.blk = t.blk → s.adLen = t.adLen → s.dLen = t.dLen →
      (∀ a ∈ accesses s.tables m s.blk s.adLen s.dLen, a.write = false → ∀ j, a.first ≤ j → j < a.first + a.count →
        byteAt a.buf j s = byteAt a.buf j t) →
      (perform m s).x = (perform m t).x ∧
        ∀ a ∈ accesses s.tables m s.blk s.adLen s.dLen, a.write = true → ∀ j, a.first ≤ j → j < a.first + a.count →
          byteAt .dout j (perform m s) = byteAt .dout j (perform m t)

/-- R179 (4), R193's kind for AEAD, U9: the results of an ENC or DEC are a function of the constant tables, the variant's
key bytes, NONCE, TAGIN, AD[0..ADLEN) and DIN[0..DLEN): whatever else the two states hold, what can be read afterwards
is the same. -/
def Obligations.AeadResultsDependOnOperandsOnly : Prop :=
  ∀ (v : AeadVariant) (i : Instr) (s t : State), AeadOf v i → AeadReady v s → AeadReady v t → s.tables = t.tables →
    keyBytes s.tables v s.key = keyBytes t.tables v t.key → s.nonce = t.nonce → s.tagIn = t.tagIn →
    adBytes s = adBytes t → dinBytes s = dinBytes t →
    ∃ s' t', exec i s = .next s' ∧ exec i t = .next t' ∧ s'.x = t'.x ∧ s'.tagOut = t'.tagOut ∧
      s'.verified = t'.verified ∧ s'.oLen = t'.oLen ∧ ∀ j < s'.oLen, byteAt .dout j s' = byteAt .dout j t'

/-- R193: with the same constant tables the digest depends on the message only, on nothing left in X, KEY, NONCE, AD or
TAGIN; the same message gives the same digest. -/
def Obligations.DigestDependsOnMessageOnly : Prop :=
  ∀ (h : HashVariant) (s t : State), HashReady s → HashReady t → s.tables = t.tables → dinBytes s = dinBytes t →
    ∃ s' t', exec (hashOf h) s = .next s' ∧ exec (hashOf h) t = .next t' ∧ s'.oLen = 32 ∧ t'.oLen = 32 ∧
      ∀ j < 32, byteAt .dout j s' = byteAt .dout j t'

/-! ## Frames -/

/-- PERM's frame: whenever PERM answers a next state, the operands and every byte of AD, DIN and DOUT are unchanged;
without a fault so are KEY, KEYLEN, PHASE, BLK, ERR and ERRCODE (R118); with one the change is R228's. -/
def Obligations.PermFrame : Prop :=
  ∀ (r : BitVec 4) (s t : State), exec (.perm r) s = .next t →
    OperandsKept s t ∧ t.dout = s.dout ∧
      (t.err = s.err → t.key = s.key ∧ t.keyLen = s.keyLen ∧ t.phase = s.phase ∧ t.blk = s.blk ∧
        t.errCode = s.errCode ∧ t.busy = s.busy) ∧
      (t.err ≠ s.err → Faulted .illegalCmd s t)

/-- The frame of ENC and DEC: the operands and every byte of AD and DIN are unchanged, and every byte of DOUT at or
beyond DLEN; ERR and ERRCODE too unless the command faults, and then the change is R228's. -/
def Obligations.AeadFrame : Prop :=
  ∀ (v : AeadVariant) (i : Instr) (s t : State), AeadOf v i → exec i s = .next t →
    OperandsKept s t ∧ (∀ j, s.dLen ≤ j → byteAt .dout j t = byteAt .dout j s) ∧
      (t.err = s.err → t.errCode = s.errCode ∧ t.busy = s.busy) ∧ (t.err ≠ s.err → Faulted t.errCode s t)

/-- The frame of HASH and HASHA: the operands and every byte of AD and DIN are unchanged, and every byte of DOUT at or
beyond 32; without a fault so are KEY, KEYLEN, ERR and ERRCODE; with one the change is R228's. -/
def Obligations.HashFrame : Prop :=
  ∀ (h : HashVariant) (s t : State), exec (hashOf h) s = .next t →
    OperandsKept s t ∧ (∀ j, 32 ≤ j → byteAt .dout j t = byteAt .dout j s) ∧
      (t.err = s.err → t.key = s.key ∧ t.keyLen = s.keyLen ∧ t.errCode = s.errCode ∧ t.busy = s.busy) ∧
      (t.err ≠ s.err → Faulted .badLen s t)

/-! ## Faults -/

/-- R222, R97: on a ready block an illegal word, as a mnemonic or as a raw CMD write, raises ILLEGAL_CMD with the entry
actions of R228, and nothing starts. Both forms of the write are events of the model's script (log entries 2 and 4). -/
def Obligations.IllegalWordsFault : Prop :=
  ∀ (w : Byte) (y : Illegal) (s : State) (rest : List HostEvent), Ready s → decode w = .illegal y →
    (s.env.inbox = .command w :: rest → ∃ t, step s = .next t ∧ Faulted .illegalCmd (popEvent s) t) ∧
      (s.env.inbox = .write 0x00 0 w.toNat :: rest → ∃ t, step s = .next t ∧ Faulted .illegalCmd (popEvent s) t)

/-- R223: on a ready block ENC and DEC with KEYLEN other than the variant's k raise BAD_KEYLEN; HASH, HASHA and PERM
never do; and after an ENC or DEC completes another one faults so. -/
def Obligations.WrongKeyLengthFaults : Prop :=
  (∀ (v : AeadVariant) (i : Instr) (s : State), AeadOf v i → Ready s → s.keyLen ≠ (aeadParams s.tables v).k →
    ∃ t, exec i s = .next t ∧ Faulted .badKeyLen s t) ∧
    (∀ (i : Instr) (s t : State), (∀ v, ¬ AeadOf v i) → s.errCode ≠ .badKeyLen → exec i s = .next t →
      t.errCode ≠ .badKeyLen) ∧
    ∀ (v u : AeadVariant) (i j : Instr) (s t : State), AeadOf v i → AeadOf u j → AeadReady v s → exec i s = .next t →
      ∃ t', exec j t = .next t' ∧ Faulted .badKeyLen t t'

/-- R224: with KEYLEN correct, NONCELEN other than 16 raises BAD_NONCELEN. -/
def Obligations.WrongNonceLengthFaults : Prop :=
  ∀ (v : AeadVariant) (i : Instr) (s : State), AeadOf v i → Ready s → s.keyLen = (aeadParams s.tables v).k →
    s.nonceLen ≠ 16 → ∃ t, exec i s = .next t ∧ Faulted .badNonceLen s t

/-- R225: with KEYLEN and NONCELEN correct, ADLEN above AD_CAP or DLEN above D_CAP raises BAD_LEN; for HASH and HASHA
DLEN above D_CAP does. For ENC and DEC as for HASH and HASHA, lengths equal to their capacities, or an unbounded
capacity, raise no fault. -/
def Obligations.LengthAboveCapacityFaults : Prop :=
  (∀ (v : AeadVariant) (i : Instr) (s : State) (c : Nat), AeadOf v i → Ready s → s.keyLen = (aeadParams s.tables v).k →
    s.nonceLen = 16 →
    (s.env.params.adCap = some c ∧ c < s.adLen ∨ s.env.params.dCap = some c ∧ c < s.dLen) →
    ∃ t, exec i s = .next t ∧ Faulted .badLen s t) ∧
    (∀ (h : HashVariant) (s : State) (c : Nat), Ready s → s.env.params.dCap = some c → c < s.dLen →
      ∃ t, exec (hashOf h) s = .next t ∧ Faulted .badLen s t) ∧
    (∀ (v : AeadVariant) (i : Instr) (s : State), AeadOf v i → Ready s → s.keyLen = (aeadParams s.tables v).k →
      s.nonceLen = 16 → (s.env.params.adCap = none ∨ s.env.params.adCap = some s.adLen) →
      (s.env.params.dCap = none ∨ s.env.params.dCap = some s.dLen) → ∃ t, exec i s = .next t ∧ t.err = false) ∧
    ∀ (h : HashVariant) (s : State), Ready s → (s.env.params.dCap = none ∨ s.env.params.dCap = some s.dLen) →
      ∃ t, exec (hashOf h) s = .next t ∧ t.err = false

/-- R208: with BUSY = 0 and ERR = 1 a CMD write, raw or as a mnemonic, changes nothing of the block; the host's script, the
model's own (log entry 2), moves on. The mnemonic form is log entry 4's. -/
def Obligations.FaultedBlockIgnoresCommands : Prop :=
  ∀ (w : Byte) (s : State) (rest : List HostEvent), s.busy = false → s.err = true →
    (s.env.inbox = .command w :: rest ∨ s.env.inbox = .write 0x00 0 w.toNat :: rest) → step s = .next (popEvent s)

/-- R254, R230, R231: no step clears ERR or changes the code of a fault but a RESET. -/
def Obligations.OnlyResetClearsFault : Prop :=
  ∀ s t : State, step s = .next t → s.err = true → s.env.inbox.head? ≠ some .reset →
    t.err = true ∧ t.errCode = s.errCode

/-- R220, R36: ERR is set only by a CMD write with BUSY = 0, and what that leaves is the fault entry of R228 with a code
other than 0. -/
def Obligations.FaultsOnlyAtCommandWrites : Prop :=
  ∀ s t : State, step s = .next t → s.err = false → t.err = true →
    s.busy = false ∧
      (∃ w : Byte, s.env.inbox.head? = some (.command w) ∨ ∃ v, s.env.inbox.head? = some (.write 0x00 0 v)) ∧
      t.errCode ≠ .none ∧ Faulted t.errCode (popEvent s) t

/-! ## The host interface -/

/-- R202: with BUSY = 1 a STATUS read is answered; any other transaction stays in the script while the sequencer does
its micro-step, which leaves the script as it is. The script is the model's own (log entry 2). -/
def Obligations.BusyHoldsTransactions : Prop :=
  ∀ (s : State) (e : HostEvent) (rest : List HostEvent), s.busy = true → s.env.inbox = e :: rest →
    (e = .read 0x01 0 → step s = .next (answer (statusValue s) (popEvent s))) ∧
      (e ≠ .read 0x01 0 → e ≠ .reset → e ≠ .pause → ∀ m, nextMicro s = some m →
        step s = .next (perform m s) ∧ (perform m s).env = s.env)

/-- R207: on a ready block a raw CMD write of a legal word that passes the checks is accepted: CMD, BUSY, DONE, VERIFIED,
OLEN and TAGOUT as the rule says, and for a sponge command PHASE and BLK; nothing else changes and no micro-step runs
(log entry 4). -/
def Obligations.RawCommandWriteAccepts : Prop :=
  ∀ (w : Byte) (i : Instr) (s : State) (rest : List HostEvent), Ready s → s.env.inbox = .write 0x00 0 w.toNat :: rest →
    decode w = .legal i → checkOperands (opOf i) s = none →
    step s = .next { popEvent s with
      cmd := w, busy := true, done := false, verified := false, oLen := 0, tagOut := Vector.replicate 16 0
      phase := if i.opBits = 1 then s.phase else .uninitialized
      blk := if i.opBits = 1 then s.blk else 0 }

/-- R33: the fields of STATUS, bit by bit, in every state; bits 7 and 15:11 are 0. -/
def Obligations.StatusFields : Prop :=
  ∀ s : State,
    (statusValue s).testBit 0 = s.busy ∧ (statusValue s).testBit 1 = s.done ∧ (statusValue s).testBit 2 = s.verified ∧
      (statusValue s).testBit 3 = s.err ∧ statusValue s / 16 % 8 = errCodeValue s.errCode ∧
      (statusValue s).testBit 7 = false ∧ statusValue s / 256 % 8 = phaseCode s.phase ∧ statusValue s < 2 ^ 11 ∧
      hostRead 0x01 0 s = statusValue s

/-- R203, R204, R205: what the host writes to an operand it reads back, for every value the element can hold; a byte
written to KEY is stored. -/
def Obligations.OperandWriteReadsBack : Prop :=
  (∀ (it : Item) (idx v : Nat) (s : State),
    it ∈ [Item.keyLen, .nonceLen, .adLen, .dLen, .x, .nonce, .tagIn, .ad, .din] →
    below idx (itemCount s.env.params it) = true → v < 2 ^ itemBits s.env.params it →
    hostRead (itemId it) idx (hostWrite (itemId it) idx v s) = v) ∧
    ∀ (idx : Nat) (v : Byte) (s : State), idx < 20 →
      (hostWrite 0x11 idx v.toNat s).key[idx]? = some v

/-- R203, R60: a host write to anything but CMD changes no other element of any item: every other read is as before,
and KEY changes only by a write to KEY. -/
def Obligations.HostWriteTouchesOneElement : Prop :=
  ∀ (id idx v : Nat) (s : State), id ≠ 0x00 →
    (∀ id' idx', ¬ (id' = id ∧ idx' = idx) → hostRead id' idx' (hostWrite id idx v s) = hostRead id' idx' s) ∧
      (id ≠ 0x11 → (hostWrite id idx v s).key = s.key) ∧
      ∀ j, j ≠ idx → (hostWrite id idx v s).key[j]? = s.key[j]?

/-- R23, R205: KEY cannot be read: a read of it returns 0, and no read of anything depends on it. -/
def Obligations.KeyIsWriteOnly : Prop :=
  ∀ (s : State) (id idx : Nat) (k : Vector Byte 20),
    hostRead 0x11 idx s = 0 ∧ hostRead id idx { s with key := k } = hostRead id idx s

/-- R210: a read of a reserved id or beyond the element count returns 0; a write there, or to STATUS, OLEN, TAGOUT or
DOUT, changes nothing. R210 also lets a model refuse such accesses; this one does not (log entry 16). -/
def Obligations.ForbiddenAccessesDoNothing : Prop :=
  ∀ (id idx v : Nat) (s : State),
    ((0x07 ≤ id ∧ id ≤ 0x0f) ∨ 0x18 ≤ id → hostRead id idx s = 0 ∧ hostWrite id idx v s = s) ∧
      (∀ (it : Item) (c : Nat), itemCount s.env.params it = some c → c ≤ idx →
        hostRead (itemId it) idx s = 0 ∧ hostWrite (itemId it) idx v s = s) ∧
      (id = 0x01 ∨ id = 0x06 ∨ id = 0x14 ∨ id = 0x17 → hostWrite id idx v s = s)

/-- R206, R44: DOUT is read through the window OLEN. -/
def Obligations.OutputIsWindowed : Prop :=
  ∀ (idx : Nat) (s : State),
    (s.oLen ≤ idx → hostRead 0x17 idx s = 0) ∧
      (idx < s.oLen → below idx s.env.params.dCap = true → hostRead 0x17 idx s = (byteAt .dout idx s).toNat)

/-- R44, R226, R260, the critical contract: whatever a DEC on a ready block ends with, if VERIFIED is 0 then every host
read of DOUT returns 0. -/
def Obligations.RejectedPlaintextIsNeverRead : Prop :=
  ∀ (v : AeadVariant) (s : State), Ready s → ∃ t, exec (decOf v) s = .next t ∧
    (t.verified = false → ∀ idx, hostRead 0x17 idx t = 0)

/-- R257: completion of ENC or DEC and every fault of a command zero KEY and KEYLEN, and so does RESET; HASH, HASHA and
PERM without a fault keep them. -/
def Obligations.KeyDoesNotPersist : Prop :=
  (∀ (v : AeadVariant) (i : Instr) (s : State), AeadOf v i → Ready s →
    ∃ t, exec i s = .next t ∧ t.key = Vector.replicate 20 0 ∧ t.keyLen = 0) ∧
    (∀ (i : Instr) (s t : State), Ready s → exec i s = .next t → t.err = true →
      t.key = Vector.replicate 20 0 ∧ t.keyLen = 0) ∧
    (∀ (i : Instr) (s t : State), (∀ v, ¬ AeadOf v i) → exec i s = .next t → t.err = s.err →
      t.key = s.key ∧ t.keyLen = s.keyLen) ∧
    ∀ s : State, s.env.inbox.head? = some .reset →
      ∃ t, step s = .next t ∧ t.key = Vector.replicate 20 0 ∧ t.keyLen = 0

/-- R70: a read that is accepted changes no state of the block; the script and the list of answers are the model's own
(log entry 2). -/
def Obligations.ReadsHaveNoSideEffect : Prop :=
  ∀ (s : State) (id idx : Nat) (rest : List HostEvent), s.env.inbox = .read id idx :: rest →
    (s.busy = false ∨ (id = 0x01 ∧ idx = 0)) →
    step s = .next { s with env := { s.env with inbox := rest, answers := hostRead id idx s :: s.env.answers } }

/-! ## Reset, steps, invariants -/

/-- R48, R250: the table of reset values, and STATUS reads 0x0000. Nothing is listed in the buffers: their bytes are free
values (log entry 1). -/
def Obligations.ResetLeavesTheTable : Prop :=
  State.reset.x = ⟨0, 0, 0, 0, 0⟩ ∧ State.reset.key = Vector.replicate 20 0 ∧
    State.reset.nonce = Vector.replicate 16 0 ∧ State.reset.tagIn = Vector.replicate 16 0 ∧
    State.reset.tagOut = Vector.replicate 16 0 ∧ State.reset.phase = .uninitialized ∧ State.reset.busy = false ∧
    State.reset.rnd = 12 ∧ State.reset.blk = 0 ∧ State.reset.cmd = 0x00 ∧ State.reset.done = false ∧
    State.reset.verified = false ∧ State.reset.err = false ∧ State.reset.errCode = .none ∧
    State.reset.keyLen = 0 ∧ State.reset.nonceLen = 0 ∧ State.reset.adLen = 0 ∧ State.reset.dLen = 0 ∧
    State.reset.oLen = 0 ∧ State.reset.ad = [] ∧ State.reset.din = [] ∧ State.reset.dout = [] ∧
    statusValue State.reset = 0

/-- R250, R253: RESET at any time, idle or busy, gives every piece of state its reset value; what the host has still to
do is then done against the reset state. The answers, the parameters, the copy's number and the count of resets are the
model's own (log entries 1 to 3, 13, 17). -/
def Obligations.ResetAtAnyTime : Prop :=
  ∀ (s : State) (rest : List HostEvent), s.env.inbox = .reset :: rest →
    step s = .next { State.reset with env := { s.env with inbox := rest, epoch := s.env.epoch + 1 } }

/-- The step runs the decoded command: with BUSY = 0 and a mnemonic's word next in the host's script the step is `exec`
of the decoded command on the state with that word taken from the script; a command placed by `withFetchWord` is run
by the very next step (log entry 7); and with BUSY = 0 and an empty script the block stays as it is (R252). -/
def Obligations.StepRunsTheDecodedCommand : Prop :=
  (∀ (w : Byte) (i : Instr) (s : State) (rest : List HostEvent), s.busy = false → s.env.inbox = .command w :: rest →
    decode w = .legal i → step s = exec i { s with env := { s.env with inbox := rest } }) ∧
    (∀ (w : Nat) (i : Instr) (s : State), decodeTableWord 8 w = some i →
      step (s.withFetchWord 8 w) = exec i { s with busy := false }) ∧
    ∀ s : State, s.busy = false → s.env.inbox = [] → step s = .next s

/-- The invariant of the machine holds at reset, and so does the contract on rejected plaintext. -/
def Obligations.ResetMeetsTheInvariants : Prop := StateInv State.reset ∧ PlaintextHidden State.reset

/-- From every state that meets the invariant the machine takes a step, and the state after it meets the invariant
(R46, R132): no state without a row is reached and no step stops. -/
def Obligations.StepKeepsTheInvariant : Prop :=
  ∀ s : State, StateInv s → ∃ t, step s = .next t ∧ StateInv t

/-- R44, R145, R251: every step keeps the contract on rejected plaintext: while a DEC's verdict is 0, the output bytes
it released or is about to release are 0. -/
def Obligations.StepKeepsPlaintextHidden : Prop :=
  ∀ s t : State, StateInv s → PlaintextHidden s → step s = .next t → PlaintextHidden t

/-- R133, R202: from every state of the invariant with BUSY = 1 the sequencer reaches the completion step: the hold is
never permanent. -/
def Obligations.HoldIsNeverPermanent : Prop :=
  ∀ s : State, StateInv s → s.busy = true → ∃ n t, runMicro n s = some t ∧ t.busy = false ∧ t.done = true

/-- R22, R10 to R13: the constant tables hold the numbers of the spec, and no step changes them, nor the open parameters
and the copy's number, which are the model's own (log entries 3, 17 and 18). -/
def Obligations.ConstantTablesNeverChange : Prop :=
  (∀ s t : State, step s = .next t →
    t.tables = s.tables ∧ t.env.params = s.env.params ∧ t.env.copy = s.env.copy) ∧
    State.reset.tables = specTables ∧
    (List.range 12).map (rc specTables) =
      [0xf0, 0xe1, 0xd2, 0xc3, 0xb4, 0xa5, 0x96, 0x87, 0x78, 0x69, 0x5a, 0x4b] ∧
    specTables.rot = ⟨⟨19, 28⟩, ⟨61, 39⟩, ⟨1, 6⟩, ⟨10, 17⟩, ⟨7, 41⟩⟩ ∧
    aeadParams specTables .v128 = ⟨16, 8, 12, 6, 0x80400c0600000000⟩ ∧
    aeadParams specTables .v128a = ⟨16, 16, 12, 8, 0x80800c0800000000⟩ ∧
    aeadParams specTables .v80pq = ⟨20, 8, 12, 6, 0xa0400c06⟩ ∧
    hashParams specTables .hash = ⟨8, 12, 12, 0x00400c0000000100⟩ ∧
    hashParams specTables .hasha = ⟨8, 12, 8, 0x00400c0400000100⟩

/-- R77: a step of one copy of the block leaves every other copy as it is. -/
def Obligations.CopiesDoNotInteract : Prop :=
  ∀ (n : Nat) (cores cores' : List State), stepCopy n cores = some cores' →
    cores'.length = cores.length ∧ (∀ m, m ≠ n → cores'[m]? = cores[m]?) ∧
      ∃ s t, cores[n]? = some s ∧ step s = .next t ∧ cores'[n]? = some t
end

