-- ==== Sys2Proof/Laws/State.lean ====
section
/-! SUPPORT. One lemma per field of what each shared update does to a state. -/

namespace Sys2Proof.Machine

@[simp] theorem doutWrite_x (o : Nat) (B : List Byte) (s : State) : (doutWrite o B s).x = s.x := rfl
@[simp] theorem doutWrite_key (o : Nat) (B : List Byte) (s : State) : (doutWrite o B s).key = s.key := rfl
@[simp] theorem doutWrite_nonce (o : Nat) (B : List Byte) (s : State) : (doutWrite o B s).nonce = s.nonce := rfl
@[simp] theorem doutWrite_tagIn (o : Nat) (B : List Byte) (s : State) : (doutWrite o B s).tagIn = s.tagIn := rfl
@[simp] theorem doutWrite_tagOut (o : Nat) (B : List Byte) (s : State) : (doutWrite o B s).tagOut = s.tagOut := rfl
@[simp] theorem doutWrite_phase (o : Nat) (B : List Byte) (s : State) : (doutWrite o B s).phase = s.phase := rfl
@[simp] theorem doutWrite_busy (o : Nat) (B : List Byte) (s : State) : (doutWrite o B s).busy = s.busy := rfl
@[simp] theorem doutWrite_rnd (o : Nat) (B : List Byte) (s : State) : (doutWrite o B s).rnd = s.rnd := rfl
@[simp] theorem doutWrite_blk (o : Nat) (B : List Byte) (s : State) : (doutWrite o B s).blk = s.blk := rfl
@[simp] theorem doutWrite_cmd (o : Nat) (B : List Byte) (s : State) : (doutWrite o B s).cmd = s.cmd := rfl
@[simp] theorem doutWrite_done (o : Nat) (B : List Byte) (s : State) : (doutWrite o B s).done = s.done := rfl
@[simp] theorem doutWrite_verified (o : Nat) (B : List Byte) (s : State) : (doutWrite o B s).verified = s.verified := rfl
@[simp] theorem doutWrite_err (o : Nat) (B : List Byte) (s : State) : (doutWrite o B s).err = s.err := rfl
@[simp] theorem doutWrite_errCode (o : Nat) (B : List Byte) (s : State) : (doutWrite o B s).errCode = s.errCode := rfl
@[simp] theorem doutWrite_keyLen (o : Nat) (B : List Byte) (s : State) : (doutWrite o B s).keyLen = s.keyLen := rfl
@[simp] theorem doutWrite_nonceLen (o : Nat) (B : List Byte) (s : State) : (doutWrite o B s).nonceLen = s.nonceLen := rfl
@[simp] theorem doutWrite_adLen (o : Nat) (B : List Byte) (s : State) : (doutWrite o B s).adLen = s.adLen := rfl
@[simp] theorem doutWrite_dLen (o : Nat) (B : List Byte) (s : State) : (doutWrite o B s).dLen = s.dLen := rfl
@[simp] theorem doutWrite_oLen (o : Nat) (B : List Byte) (s : State) : (doutWrite o B s).oLen = s.oLen := rfl
@[simp] theorem doutWrite_ad (o : Nat) (B : List Byte) (s : State) : (doutWrite o B s).ad = s.ad := rfl
@[simp] theorem doutWrite_din (o : Nat) (B : List Byte) (s : State) : (doutWrite o B s).din = s.din := rfl
@[simp] theorem doutWrite_dout (o : Nat) (B : List Byte) (s : State) : (doutWrite o B s).dout = s.dout.putBytes o B := rfl
@[simp] theorem doutWrite_env (o : Nat) (B : List Byte) (s : State) : (doutWrite o B s).env = s.env := rfl
@[simp] theorem doutWrite_tables (o : Nat) (B : List Byte) (s : State) : (doutWrite o B s).tables = s.tables := rfl

@[simp] theorem popEvent_x (s : State) : (popEvent s).x = s.x := rfl
@[simp] theorem popEvent_key (s : State) : (popEvent s).key = s.key := rfl
@[simp] theorem popEvent_nonce (s : State) : (popEvent s).nonce = s.nonce := rfl
@[simp] theorem popEvent_tagIn (s : State) : (popEvent s).tagIn = s.tagIn := rfl
@[simp] theorem popEvent_tagOut (s : State) : (popEvent s).tagOut = s.tagOut := rfl
@[simp] theorem popEvent_phase (s : State) : (popEvent s).phase = s.phase := rfl
@[simp] theorem popEvent_busy (s : State) : (popEvent s).busy = s.busy := rfl
@[simp] theorem popEvent_rnd (s : State) : (popEvent s).rnd = s.rnd := rfl
@[simp] theorem popEvent_blk (s : State) : (popEvent s).blk = s.blk := rfl
@[simp] theorem popEvent_cmd (s : State) : (popEvent s).cmd = s.cmd := rfl
@[simp] theorem popEvent_done (s : State) : (popEvent s).done = s.done := rfl
@[simp] theorem popEvent_verified (s : State) : (popEvent s).verified = s.verified := rfl
@[simp] theorem popEvent_err (s : State) : (popEvent s).err = s.err := rfl
@[simp] theorem popEvent_errCode (s : State) : (popEvent s).errCode = s.errCode := rfl
@[simp] theorem popEvent_keyLen (s : State) : (popEvent s).keyLen = s.keyLen := rfl
@[simp] theorem popEvent_nonceLen (s : State) : (popEvent s).nonceLen = s.nonceLen := rfl
@[simp] theorem popEvent_adLen (s : State) : (popEvent s).adLen = s.adLen := rfl
@[simp] theorem popEvent_dLen (s : State) : (popEvent s).dLen = s.dLen := rfl
@[simp] theorem popEvent_oLen (s : State) : (popEvent s).oLen = s.oLen := rfl
@[simp] theorem popEvent_ad (s : State) : (popEvent s).ad = s.ad := rfl
@[simp] theorem popEvent_din (s : State) : (popEvent s).din = s.din := rfl
@[simp] theorem popEvent_dout (s : State) : (popEvent s).dout = s.dout := rfl
@[simp] theorem popEvent_env (s : State) : (popEvent s).env = { s.env with inbox := s.env.inbox.tail } := rfl
@[simp] theorem popEvent_tables (s : State) : (popEvent s).tables = s.tables := rfl

@[simp] theorem answer_x (v : Nat) (s : State) : (answer v s).x = s.x := rfl
@[simp] theorem answer_key (v : Nat) (s : State) : (answer v s).key = s.key := rfl
@[simp] theorem answer_nonce (v : Nat) (s : State) : (answer v s).nonce = s.nonce := rfl
@[simp] theorem answer_tagIn (v : Nat) (s : State) : (answer v s).tagIn = s.tagIn := rfl
@[simp] theorem answer_tagOut (v : Nat) (s : State) : (answer v s).tagOut = s.tagOut := rfl
@[simp] theorem answer_phase (v : Nat) (s : State) : (answer v s).phase = s.phase := rfl
@[simp] theorem answer_busy (v : Nat) (s : State) : (answer v s).busy = s.busy := rfl
@[simp] theorem answer_rnd (v : Nat) (s : State) : (answer v s).rnd = s.rnd := rfl
@[simp] theorem answer_blk (v : Nat) (s : State) : (answer v s).blk = s.blk := rfl
@[simp] theorem answer_cmd (v : Nat) (s : State) : (answer v s).cmd = s.cmd := rfl
@[simp] theorem answer_done (v : Nat) (s : State) : (answer v s).done = s.done := rfl
@[simp] theorem answer_verified (v : Nat) (s : State) : (answer v s).verified = s.verified := rfl
@[simp] theorem answer_err (v : Nat) (s : State) : (answer v s).err = s.err := rfl
@[simp] theorem answer_errCode (v : Nat) (s : State) : (answer v s).errCode = s.errCode := rfl
@[simp] theorem answer_keyLen (v : Nat) (s : State) : (answer v s).keyLen = s.keyLen := rfl
@[simp] theorem answer_nonceLen (v : Nat) (s : State) : (answer v s).nonceLen = s.nonceLen := rfl
@[simp] theorem answer_adLen (v : Nat) (s : State) : (answer v s).adLen = s.adLen := rfl
@[simp] theorem answer_dLen (v : Nat) (s : State) : (answer v s).dLen = s.dLen := rfl
@[simp] theorem answer_oLen (v : Nat) (s : State) : (answer v s).oLen = s.oLen := rfl
@[simp] theorem answer_ad (v : Nat) (s : State) : (answer v s).ad = s.ad := rfl
@[simp] theorem answer_din (v : Nat) (s : State) : (answer v s).din = s.din := rfl
@[simp] theorem answer_dout (v : Nat) (s : State) : (answer v s).dout = s.dout := rfl
@[simp] theorem answer_env (v : Nat) (s : State) : (answer v s).env = { s.env with answers := v :: s.env.answers } := rfl
@[simp] theorem answer_tables (v : Nat) (s : State) : (answer v s).tables = s.tables := rfl

@[simp] theorem faultEntry_x (c : ErrCode) (s : State) : (faultEntry c s).x = Words.zero := rfl
@[simp] theorem faultEntry_key (c : ErrCode) (s : State) : (faultEntry c s).key = Vector.replicate 20 0 := rfl
@[simp] theorem faultEntry_nonce (c : ErrCode) (s : State) : (faultEntry c s).nonce = s.nonce := rfl
@[simp] theorem faultEntry_tagIn (c : ErrCode) (s : State) : (faultEntry c s).tagIn = s.tagIn := rfl
@[simp] theorem faultEntry_tagOut (c : ErrCode) (s : State) : (faultEntry c s).tagOut = Vector.replicate 16 0 := rfl
@[simp] theorem faultEntry_phase (c : ErrCode) (s : State) : (faultEntry c s).phase = .uninitialized := rfl
@[simp] theorem faultEntry_busy (c : ErrCode) (s : State) : (faultEntry c s).busy = s.busy := rfl
@[simp] theorem faultEntry_rnd (c : ErrCode) (s : State) : (faultEntry c s).rnd = s.rnd := rfl
@[simp] theorem faultEntry_blk (c : ErrCode) (s : State) : (faultEntry c s).blk = s.blk := rfl
@[simp] theorem faultEntry_cmd (c : ErrCode) (s : State) : (faultEntry c s).cmd = s.cmd := rfl
@[simp] theorem faultEntry_done (c : ErrCode) (s : State) : (faultEntry c s).done = s.done := rfl
@[simp] theorem faultEntry_verified (c : ErrCode) (s : State) : (faultEntry c s).verified = false := rfl
@[simp] theorem faultEntry_err (c : ErrCode) (s : State) : (faultEntry c s).err = true := rfl
@[simp] theorem faultEntry_errCode (c : ErrCode) (s : State) : (faultEntry c s).errCode = c := rfl
@[simp] theorem faultEntry_keyLen (c : ErrCode) (s : State) : (faultEntry c s).keyLen = 0 := rfl
@[simp] theorem faultEntry_nonceLen (c : ErrCode) (s : State) : (faultEntry c s).nonceLen = s.nonceLen := rfl
@[simp] theorem faultEntry_adLen (c : ErrCode) (s : State) : (faultEntry c s).adLen = s.adLen := rfl
@[simp] theorem faultEntry_dLen (c : ErrCode) (s : State) : (faultEntry c s).dLen = s.dLen := rfl
@[simp] theorem faultEntry_oLen (c : ErrCode) (s : State) : (faultEntry c s).oLen = 0 := rfl
@[simp] theorem faultEntry_ad (c : ErrCode) (s : State) : (faultEntry c s).ad = s.ad := rfl
@[simp] theorem faultEntry_din (c : ErrCode) (s : State) : (faultEntry c s).din = s.din := rfl
@[simp] theorem faultEntry_dout (c : ErrCode) (s : State) : (faultEntry c s).dout = s.dout := rfl
@[simp] theorem faultEntry_env (c : ErrCode) (s : State) : (faultEntry c s).env = s.env := rfl
@[simp] theorem faultEntry_tables (c : ErrCode) (s : State) : (faultEntry c s).tables = s.tables := rfl

@[simp] theorem spAdBegin_x (s : State) : (spAdBegin s).x = s.x := rfl
@[simp] theorem spAdBegin_key (s : State) : (spAdBegin s).key = s.key := rfl
@[simp] theorem spAdBegin_nonce (s : State) : (spAdBegin s).nonce = s.nonce := rfl
@[simp] theorem spAdBegin_tagIn (s : State) : (spAdBegin s).tagIn = s.tagIn := rfl
@[simp] theorem spAdBegin_tagOut (s : State) : (spAdBegin s).tagOut = s.tagOut := rfl
@[simp] theorem spAdBegin_phase (s : State) : (spAdBegin s).phase = .absorbingAD := rfl
@[simp] theorem spAdBegin_busy (s : State) : (spAdBegin s).busy = s.busy := rfl
@[simp] theorem spAdBegin_rnd (s : State) : (spAdBegin s).rnd = s.rnd := rfl
@[simp] theorem spAdBegin_blk (s : State) : (spAdBegin s).blk = 0 := rfl
@[simp] theorem spAdBegin_cmd (s : State) : (spAdBegin s).cmd = s.cmd := rfl
@[simp] theorem spAdBegin_done (s : State) : (spAdBegin s).done = s.done := rfl
@[simp] theorem spAdBegin_verified (s : State) : (spAdBegin s).verified = s.verified := rfl
@[simp] theorem spAdBegin_err (s : State) : (spAdBegin s).err = s.err := rfl
@[simp] theorem spAdBegin_errCode (s : State) : (spAdBegin s).errCode = s.errCode := rfl
@[simp] theorem spAdBegin_keyLen (s : State) : (spAdBegin s).keyLen = s.keyLen := rfl
@[simp] theorem spAdBegin_nonceLen (s : State) : (spAdBegin s).nonceLen = s.nonceLen := rfl
@[simp] theorem spAdBegin_adLen (s : State) : (spAdBegin s).adLen = s.adLen := rfl
@[simp] theorem spAdBegin_dLen (s : State) : (spAdBegin s).dLen = s.dLen := rfl
@[simp] theorem spAdBegin_oLen (s : State) : (spAdBegin s).oLen = s.oLen := rfl
@[simp] theorem spAdBegin_ad (s : State) : (spAdBegin s).ad = s.ad := rfl
@[simp] theorem spAdBegin_din (s : State) : (spAdBegin s).din = s.din := rfl
@[simp] theorem spAdBegin_dout (s : State) : (spAdBegin s).dout = s.dout := rfl
@[simp] theorem spAdBegin_env (s : State) : (spAdBegin s).env = s.env := rfl
@[simp] theorem spAdBegin_tables (s : State) : (spAdBegin s).tables = s.tables := rfl

@[simp] theorem spHashBegin_x (s : State) : (spHashBegin s).x = s.x := rfl
@[simp] theorem spHashBegin_key (s : State) : (spHashBegin s).key = s.key := rfl
@[simp] theorem spHashBegin_nonce (s : State) : (spHashBegin s).nonce = s.nonce := rfl
@[simp] theorem spHashBegin_tagIn (s : State) : (spHashBegin s).tagIn = s.tagIn := rfl
@[simp] theorem spHashBegin_tagOut (s : State) : (spHashBegin s).tagOut = s.tagOut := rfl
@[simp] theorem spHashBegin_phase (s : State) : (spHashBegin s).phase = .absorbingText := rfl
@[simp] theorem spHashBegin_busy (s : State) : (spHashBegin s).busy = s.busy := rfl
@[simp] theorem spHashBegin_rnd (s : State) : (spHashBegin s).rnd = s.rnd := rfl
@[simp] theorem spHashBegin_blk (s : State) : (spHashBegin s).blk = 0 := rfl
@[simp] theorem spHashBegin_cmd (s : State) : (spHashBegin s).cmd = s.cmd := rfl
@[simp] theorem spHashBegin_done (s : State) : (spHashBegin s).done = s.done := rfl
@[simp] theorem spHashBegin_verified (s : State) : (spHashBegin s).verified = s.verified := rfl
@[simp] theorem spHashBegin_err (s : State) : (spHashBegin s).err = s.err := rfl
@[simp] theorem spHashBegin_errCode (s : State) : (spHashBegin s).errCode = s.errCode := rfl
@[simp] theorem spHashBegin_keyLen (s : State) : (spHashBegin s).keyLen = s.keyLen := rfl
@[simp] theorem spHashBegin_nonceLen (s : State) : (spHashBegin s).nonceLen = s.nonceLen := rfl
@[simp] theorem spHashBegin_adLen (s : State) : (spHashBegin s).adLen = s.adLen := rfl
@[simp] theorem spHashBegin_dLen (s : State) : (spHashBegin s).dLen = s.dLen := rfl
@[simp] theorem spHashBegin_oLen (s : State) : (spHashBegin s).oLen = s.oLen := rfl
@[simp] theorem spHashBegin_ad (s : State) : (spHashBegin s).ad = s.ad := rfl
@[simp] theorem spHashBegin_din (s : State) : (spHashBegin s).din = s.din := rfl
@[simp] theorem spHashBegin_dout (s : State) : (spHashBegin s).dout = s.dout := rfl
@[simp] theorem spHashBegin_env (s : State) : (spHashBegin s).env = s.env := rfl
@[simp] theorem spHashBegin_tables (s : State) : (spHashBegin s).tables = s.tables := rfl

@[simp] theorem spDomSep_x (s : State) : (spDomSep s).x = separate s.x := rfl
@[simp] theorem spDomSep_key (s : State) : (spDomSep s).key = s.key := rfl
@[simp] theorem spDomSep_nonce (s : State) : (spDomSep s).nonce = s.nonce := rfl
@[simp] theorem spDomSep_tagIn (s : State) : (spDomSep s).tagIn = s.tagIn := rfl
@[simp] theorem spDomSep_tagOut (s : State) : (spDomSep s).tagOut = s.tagOut := rfl
@[simp] theorem spDomSep_phase (s : State) : (spDomSep s).phase = .absorbingText := rfl
@[simp] theorem spDomSep_busy (s : State) : (spDomSep s).busy = s.busy := rfl
@[simp] theorem spDomSep_rnd (s : State) : (spDomSep s).rnd = s.rnd := rfl
@[simp] theorem spDomSep_blk (s : State) : (spDomSep s).blk = 0 := rfl
@[simp] theorem spDomSep_cmd (s : State) : (spDomSep s).cmd = s.cmd := rfl
@[simp] theorem spDomSep_done (s : State) : (spDomSep s).done = s.done := rfl
@[simp] theorem spDomSep_verified (s : State) : (spDomSep s).verified = s.verified := rfl
@[simp] theorem spDomSep_err (s : State) : (spDomSep s).err = s.err := rfl
@[simp] theorem spDomSep_errCode (s : State) : (spDomSep s).errCode = s.errCode := rfl
@[simp] theorem spDomSep_keyLen (s : State) : (spDomSep s).keyLen = s.keyLen := rfl
@[simp] theorem spDomSep_nonceLen (s : State) : (spDomSep s).nonceLen = s.nonceLen := rfl
@[simp] theorem spDomSep_adLen (s : State) : (spDomSep s).adLen = s.adLen := rfl
@[simp] theorem spDomSep_dLen (s : State) : (spDomSep s).dLen = s.dLen := rfl
@[simp] theorem spDomSep_oLen (s : State) : (spDomSep s).oLen = s.oLen := rfl
@[simp] theorem spDomSep_ad (s : State) : (spDomSep s).ad = s.ad := rfl
@[simp] theorem spDomSep_din (s : State) : (spDomSep s).din = s.din := rfl
@[simp] theorem spDomSep_dout (s : State) : (spDomSep s).dout = s.dout := rfl
@[simp] theorem spDomSep_env (s : State) : (spDomSep s).env = s.env := rfl
@[simp] theorem spDomSep_tables (s : State) : (spDomSep s).tables = s.tables := rfl

@[simp] theorem spRelease_x (s : State) : (spRelease s).x = Words.zero := rfl
@[simp] theorem spRelease_key (s : State) : (spRelease s).key = Vector.replicate 20 0 := rfl
@[simp] theorem spRelease_nonce (s : State) : (spRelease s).nonce = s.nonce := rfl
@[simp] theorem spRelease_tagIn (s : State) : (spRelease s).tagIn = s.tagIn := rfl
@[simp] theorem spRelease_tagOut (s : State) : (spRelease s).tagOut = s.tagOut := rfl
@[simp] theorem spRelease_phase (s : State) : (spRelease s).phase = .done := rfl
@[simp] theorem spRelease_busy (s : State) : (spRelease s).busy = false := rfl
@[simp] theorem spRelease_rnd (s : State) : (spRelease s).rnd = s.rnd := rfl
@[simp] theorem spRelease_blk (s : State) : (spRelease s).blk = 0 := rfl
@[simp] theorem spRelease_cmd (s : State) : (spRelease s).cmd = s.cmd := rfl
@[simp] theorem spRelease_done (s : State) : (spRelease s).done = true := rfl
@[simp] theorem spRelease_verified (s : State) : (spRelease s).verified = s.verified := rfl
@[simp] theorem spRelease_err (s : State) : (spRelease s).err = s.err := rfl
@[simp] theorem spRelease_errCode (s : State) : (spRelease s).errCode = s.errCode := rfl
@[simp] theorem spRelease_keyLen (s : State) : (spRelease s).keyLen = 0 := rfl
@[simp] theorem spRelease_nonceLen (s : State) : (spRelease s).nonceLen = s.nonceLen := rfl
@[simp] theorem spRelease_adLen (s : State) : (spRelease s).adLen = s.adLen := rfl
@[simp] theorem spRelease_dLen (s : State) : (spRelease s).dLen = s.dLen := rfl
@[simp] theorem spRelease_oLen (s : State) : (spRelease s).oLen = s.dLen := rfl
@[simp] theorem spRelease_ad (s : State) : (spRelease s).ad = s.ad := rfl
@[simp] theorem spRelease_din (s : State) : (spRelease s).din = s.din := rfl
@[simp] theorem spRelease_dout (s : State) : (spRelease s).dout = s.dout := rfl
@[simp] theorem spRelease_env (s : State) : (spRelease s).env = s.env := rfl
@[simp] theorem spRelease_tables (s : State) : (spRelease s).tables = s.tables := rfl

@[simp] theorem spHashRelease_x (s : State) : (spHashRelease s).x = Words.zero := rfl
@[simp] theorem spHashRelease_key (s : State) : (spHashRelease s).key = s.key := rfl
@[simp] theorem spHashRelease_nonce (s : State) : (spHashRelease s).nonce = s.nonce := rfl
@[simp] theorem spHashRelease_tagIn (s : State) : (spHashRelease s).tagIn = s.tagIn := rfl
@[simp] theorem spHashRelease_tagOut (s : State) : (spHashRelease s).tagOut = s.tagOut := rfl
@[simp] theorem spHashRelease_phase (s : State) : (spHashRelease s).phase = .done := rfl
@[simp] theorem spHashRelease_busy (s : State) : (spHashRelease s).busy = false := rfl
@[simp] theorem spHashRelease_rnd (s : State) : (spHashRelease s).rnd = s.rnd := rfl
@[simp] theorem spHashRelease_blk (s : State) : (spHashRelease s).blk = 0 := rfl
@[simp] theorem spHashRelease_cmd (s : State) : (spHashRelease s).cmd = s.cmd := rfl
@[simp] theorem spHashRelease_done (s : State) : (spHashRelease s).done = true := rfl
@[simp] theorem spHashRelease_verified (s : State) : (spHashRelease s).verified = s.verified := rfl
@[simp] theorem spHashRelease_err (s : State) : (spHashRelease s).err = s.err := rfl
@[simp] theorem spHashRelease_errCode (s : State) : (spHashRelease s).errCode = s.errCode := rfl
@[simp] theorem spHashRelease_keyLen (s : State) : (spHashRelease s).keyLen = s.keyLen := rfl
@[simp] theorem spHashRelease_nonceLen (s : State) : (spHashRelease s).nonceLen = s.nonceLen := rfl
@[simp] theorem spHashRelease_adLen (s : State) : (spHashRelease s).adLen = s.adLen := rfl
@[simp] theorem spHashRelease_dLen (s : State) : (spHashRelease s).dLen = s.dLen := rfl
@[simp] theorem spHashRelease_oLen (s : State) : (spHashRelease s).oLen = 32 := rfl
@[simp] theorem spHashRelease_ad (s : State) : (spHashRelease s).ad = s.ad := rfl
@[simp] theorem spHashRelease_din (s : State) : (spHashRelease s).din = s.din := rfl
@[simp] theorem spHashRelease_dout (s : State) : (spHashRelease s).dout = s.dout := rfl
@[simp] theorem spHashRelease_env (s : State) : (spHashRelease s).env = s.env := rfl
@[simp] theorem spHashRelease_tables (s : State) : (spHashRelease s).tables = s.tables := rfl

@[simp] theorem resetEvent_x (s : State) : (resetEvent s).x = State.reset.x := rfl
@[simp] theorem resetEvent_key (s : State) : (resetEvent s).key = State.reset.key := rfl
@[simp] theorem resetEvent_nonce (s : State) : (resetEvent s).nonce = State.reset.nonce := rfl
@[simp] theorem resetEvent_tagIn (s : State) : (resetEvent s).tagIn = State.reset.tagIn := rfl
@[simp] theorem resetEvent_tagOut (s : State) : (resetEvent s).tagOut = State.reset.tagOut := rfl
@[simp] theorem resetEvent_phase (s : State) : (resetEvent s).phase = State.reset.phase := rfl
@[simp] theorem resetEvent_busy (s : State) : (resetEvent s).busy = State.reset.busy := rfl
@[simp] theorem resetEvent_rnd (s : State) : (resetEvent s).rnd = State.reset.rnd := rfl
@[simp] theorem resetEvent_blk (s : State) : (resetEvent s).blk = State.reset.blk := rfl
@[simp] theorem resetEvent_cmd (s : State) : (resetEvent s).cmd = State.reset.cmd := rfl
@[simp] theorem resetEvent_done (s : State) : (resetEvent s).done = State.reset.done := rfl
@[simp] theorem resetEvent_verified (s : State) : (resetEvent s).verified = State.reset.verified := rfl
@[simp] theorem resetEvent_err (s : State) : (resetEvent s).err = State.reset.err := rfl
@[simp] theorem resetEvent_errCode (s : State) : (resetEvent s).errCode = State.reset.errCode := rfl
@[simp] theorem resetEvent_keyLen (s : State) : (resetEvent s).keyLen = State.reset.keyLen := rfl
@[simp] theorem resetEvent_nonceLen (s : State) : (resetEvent s).nonceLen = State.reset.nonceLen := rfl
@[simp] theorem resetEvent_adLen (s : State) : (resetEvent s).adLen = State.reset.adLen := rfl
@[simp] theorem resetEvent_dLen (s : State) : (resetEvent s).dLen = State.reset.dLen := rfl
@[simp] theorem resetEvent_oLen (s : State) : (resetEvent s).oLen = State.reset.oLen := rfl
@[simp] theorem resetEvent_ad (s : State) : (resetEvent s).ad = State.reset.ad := rfl
@[simp] theorem resetEvent_din (s : State) : (resetEvent s).din = State.reset.din := rfl
@[simp] theorem resetEvent_dout (s : State) : (resetEvent s).dout = State.reset.dout := rfl
@[simp] theorem resetEvent_env (s : State) : (resetEvent s).env = { s.env with epoch := s.env.epoch + 1 } := rfl
@[simp] theorem resetEvent_tables (s : State) : (resetEvent s).tables = s.tables := rfl

end Sys2Proof.Machine
end

