-- ==== Sys2Proof/Laws/Memory.lean ====
section
/-! SUPPORT. The buffers: what a write leaves to read, that it keeps the canonical form, and how sequences of bytes are
written and read. -/

namespace Sys2Proof.Machine

/-! ## One byte -/

theorem Memory.find_put (m : Memory) (a b : Nat) (v : Byte) :
    (m.put a v).find b = if b = a then some v else m.find b := by
  induction m with
  | nil => simp [Memory.put, Memory.find, eq_comm]
  | cons c m ih =>
    unfold Memory.put
    split
    · simp [Memory.find, eq_comm]
    · split
      · next h1 =>
        subst h1
        by_cases h : b = c.1
        · simp [Memory.find, h]
        · simp [Memory.find, h, Ne.symm h]
      · next h0 h1 =>
        simp only [Memory.find, ih]
        by_cases hb : c.1 = b
        · have : b ≠ a := fun e => h1 (e ▸ hb.symm)
          simp [hb, this]
        · simp [hb]

/-- A byte written is the byte read. -/
@[simp] theorem Memory.find_put_same (m : Memory) (a : Nat) (v : Byte) : (m.put a v).find a = some v := by
  simp [Memory.find_put]

theorem Memory.find_put_other (m : Memory) {a b : Nat} (v : Byte) (h : b ≠ a) : (m.put a v).find b = m.find b := by
  simp [Memory.find_put, h]

theorem Memory.mem_put {m : Memory} {a : Nat} {v : Byte} {c : Host.Cell} (h : c ∈ m.put a v) : c ∈ m ∨ c = (a, v) := by
  induction m with
  | nil => exact .inr (by simpa [Memory.put] using h)
  | cons d m ih =>
    unfold Memory.put at h
    split at h
    · simp only [List.mem_cons] at h ⊢; tauto
    · split at h
      · simp only [List.mem_cons] at h ⊢; tauto
      · simp only [List.mem_cons] at h ⊢
        rcases h with h | h
        · exact .inl (.inl h)
        · exact (ih h).imp .inr id

/-- A write keeps the canonical form. -/
theorem Memory.wf_put {m : Memory} (h : m.wf) (a : Nat) (v : Byte) : (m.put a v).wf := by
  induction m with
  | nil => simp [Memory.put, Memory.wf]
  | cons d m ih =>
    obtain ⟨hd, hm⟩ := List.pairwise_cons.mp h
    unfold Memory.put
    split
    · next ha =>
      refine List.pairwise_cons.mpr ⟨fun c hc => ?_, h⟩
      rcases List.mem_cons.mp hc with rfl | hc
      · exact ha
      · exact lt_trans ha (hd c hc)
    · split
      · next ha => exact List.pairwise_cons.mpr ⟨fun c hc => by simpa [ha] using hd c hc, hm⟩
      · next h1 h2 =>
        refine List.pairwise_cons.mpr ⟨fun c hc => ?_, ih hm⟩
        rcases Memory.mem_put hc with hc | rfl
        · exact hd c hc
        · simp only; omega

/-- A second write to one place replaces the first. -/
@[simp] theorem Memory.put_put_same (m : Memory) (a : Nat) (v w : Byte) : (m.put a v).put a w = m.put a w := by
  induction m with
  | nil => simp [Memory.put]
  | cons d m ih =>
    by_cases h1 : a < d.1
    · simp [Memory.put, h1]
    · by_cases h2 : a = d.1
      · simp [Memory.put, h2]
      · simp [Memory.put, h1, h2, ih]

/-- Writes to two places, the lower one first, may be exchanged with a rewrite of the lower. -/
theorem Memory.put_put_put (m : Memory) {a b : Nat} (hab : a < b) (v w u : Byte) :
    ((m.put a v).put b w).put a u = (m.put a u).put b w := by
  induction m with
  | nil =>
    have : ¬ b < a := by omega
    have : b ≠ a := by omega
    simp [Memory.put, *]
  | cons d m ih =>
    by_cases h1 : a < d.1
    · have : ¬ b < a := by omega
      have : b ≠ a := by omega
      simp [Memory.put, *]
    · by_cases h2 : a = d.1
      · subst h2
        have : ¬ b < d.1 := by omega
        have : b ≠ d.1 := by omega
        simp [Memory.put, *]
      · have h3 : ¬ b < d.1 := by omega
        have h4 : b ≠ d.1 := by omega
        simp [Memory.put, h1, h2, h3, h4, ih]

/-! ## Sequences of bytes -/

@[simp] theorem Memory.putBytes_nil (m : Memory) (o : Nat) : m.putBytes o [] = m := rfl

theorem Memory.putBytes_cons (m : Memory) (o : Nat) (v : Byte) (B : List Byte) :
    m.putBytes o (v :: B) = (m.put o v).putBytes (o + 1) B := rfl

theorem Memory.putBytes_append (m : Memory) (o : Nat) (A B : List Byte) :
    m.putBytes o (A ++ B) = (m.putBytes o A).putBytes (o + A.length) B := by
  induction A generalizing m o with
  | nil => rfl
  | cons v A ih =>
    simp only [List.cons_append, Memory.putBytes_cons, ih, List.length_cons]
    congr 1; omega

/-- A byte after a write of a sequence: from the sequence inside its range, as before outside it. -/
theorem Memory.find_putBytes (m : Memory) (o : Nat) (B : List Byte) (j : Nat) :
    (m.putBytes o B).find j = if o ≤ j ∧ j < o + B.length then B[j - o]? else m.find j := by
  induction B generalizing m o with
  | nil => rw [if_neg (by simp)]; rfl
  | cons v B ih =>
    rw [Memory.putBytes_cons, ih, Memory.find_put]
    by_cases h : j = o
    · subst h
      rw [if_neg (by omega), if_pos rfl, if_pos (by simp)]; simp
    · by_cases h2 : o + 1 ≤ j ∧ j < o + 1 + B.length
      · have h4 : j - o = (j - (o + 1)) + 1 := by omega
        rw [if_pos h2, if_pos (by simp only [List.length_cons]; omega), h4, List.getElem?_cons_succ]
      · rw [if_neg h2, if_neg h, if_neg (by simp only [List.length_cons]; omega)]

theorem Memory.wf_putBytes {m : Memory} (h : m.wf) (o : Nat) (B : List Byte) : (m.putBytes o B).wf := by
  induction B generalizing m o with
  | nil => exact h
  | cons v B ih => exact ih (Memory.wf_put h o v) (o + 1)

theorem Memory.mem_putBytes {m : Memory} {o : Nat} {B : List Byte} {c : Host.Cell} (h : c ∈ m.putBytes o B) :
    c ∈ m ∨ (o ≤ c.1 ∧ c.1 < o + B.length) := by
  induction B generalizing m o with
  | nil => exact .inl h
  | cons v B ih =>
    rcases ih h with h | h
    · rcases Memory.mem_put h with h | rfl
      · exact .inl h
      · exact .inr ⟨le_rfl, by simp⟩
    · exact .inr ⟨by omega, by simp only [List.length_cons]; omega⟩

/-- Writes above an index commute with a rewrite of that index. -/
theorem Memory.putBytes_put_lt (m : Memory) {a o : Nat} (h : a < o) (v w : Byte) (B : List Byte) :
    ((m.put a v).putBytes o B).put a w = (m.put a w).putBytes o B := by
  induction B using List.reverseRecOn generalizing w with
  | nil => simp
  | append_singleton B u ih =>
    simp only [Memory.putBytes_append, Memory.putBytes_cons, Memory.putBytes_nil]
    have idem : ((m.put a v).putBytes o B).put a v = (m.put a v).putBytes o B := ih v
    rw [← ih w]
    conv_lhs => rw [← idem]
    rw [Memory.put_put_put _ (by omega)]

/-- A second write of as many bytes to the same place replaces the first. -/
theorem Memory.putBytes_putBytes (m : Memory) (o : Nat) {A B : List Byte} (h : A.length = B.length) :
    (m.putBytes o A).putBytes o B = m.putBytes o B := by
  induction A generalizing m o B with
  | nil => rw [List.length_nil] at h; simp [List.eq_nil_of_length_eq_zero h.symm]
  | cons v A ih =>
    cases B with
    | nil => simp at h
    | cons w B =>
      simp only [Memory.putBytes_cons]
      rw [Memory.putBytes_put_lt m (by omega), ih _ _ (by simpa using h)]

/-! ## Reading -/

@[simp] theorem memRead_zero (b : Buf) (o : Nat) (s : State) : memRead b o 0 s = [] := rfl

theorem memRead_succ (b : Buf) (o n : Nat) (s : State) :
    memRead b o (n + 1) s = byteAt b o s :: memRead b (o + 1) n s := rfl

@[simp] theorem memRead_length (b : Buf) (o n : Nat) (s : State) : (memRead b o n s).length = n := by
  induction n generalizing o with
  | zero => rfl
  | succ n ih => simp [memRead_succ, ih]

theorem memRead_getElem (b : Buf) (o n : Nat) (s : State) (j : Nat) (h : j < (memRead b o n s).length) :
    (memRead b o n s)[j] = byteAt b (o + j) s := by
  induction n generalizing o j with
  | zero => simp at h
  | succ n ih =>
    cases j with
    | zero => rfl
    | succ j =>
      have := ih (o + 1) j (by simpa using h)
      simpa [memRead_succ, Nat.add_assoc, Nat.add_comm 1] using this

theorem memRead_append (b : Buf) (o m n : Nat) (s : State) :
    memRead b o (m + n) s = memRead b o m s ++ memRead b (o + m) n s := by
  apply List.ext_getElem
  · simp
  · intro j h1 h2
    simp only [memRead_getElem, List.getElem_append, memRead_length]
    split
    · rfl
    · congr 1; omega

theorem memRead_take (b : Buf) (o n k : Nat) (s : State) (h : k ≤ n) :
    (memRead b o n s).take k = memRead b o k s := by
  obtain ⟨m, rfl⟩ := Nat.exists_eq_add_of_le h
  simp [memRead_append]

theorem memRead_drop (b : Buf) (o n k : Nat) (s : State) :
    (memRead b o n s).drop k = memRead b (o + k) (n - k) s := by
  by_cases h : k ≤ n
  · obtain ⟨m, rfl⟩ := Nat.exists_eq_add_of_le h
    simp [memRead_append]
  · have : n - k = 0 := by omega
    rw [this, List.drop_eq_nil_of_le (by simp; omega)]; rfl

/-- A read depends on the bytes it reads and on nothing else. -/
theorem memRead_congr {b c : Buf} {o n : Nat} {s t : State}
    (h : ∀ j, o ≤ j → j < o + n → byteAt b j s = byteAt c j t) : memRead b o n s = memRead c o n t := by
  apply List.ext_getElem
  · simp
  · intro j h1 h2
    simp only [memRead_getElem]
    exact h _ (by omega) (by simp at h1; omega)

/-- Reading a buffer byte needs the buffer, the copy's number and the epoch only. -/
theorem byteAt_congr {b : Buf} {j : Nat} {s t : State} (h : bufOf b s = bufOf b t) (hc : s.env.copy = t.env.copy)
    (he : s.env.epoch = t.env.epoch) : byteAt b j s = byteAt b j t := by
  simp [byteAt, h, hc, he]

/-- A byte of DOUT after a write of a sequence. -/
theorem byteAt_doutWrite (o : Nat) (B : List Byte) (j : Nat) (s : State) :
    byteAt .dout j (doutWrite o B s) =
      if h : o ≤ j ∧ j < o + B.length then B[j - o]'(by omega) else byteAt .dout j s := by
  simp only [byteAt, bufOf, doutWrite, Memory.find_putBytes]
  by_cases h : o ≤ j ∧ j < o + B.length
  · have : j - o < B.length := by omega
    simp [h, this]
  · simp [h]

/-- A sequence written into DOUT is the sequence read. -/
theorem memRead_doutWrite_same (o : Nat) (B : List Byte) (s : State) :
    memRead .dout o B.length (doutWrite o B s) = B := by
  apply List.ext_getElem
  · simp
  · intro j h1 h2
    rw [memRead_getElem, byteAt_doutWrite, dif_pos ⟨by omega, by omega⟩]
    congr 1; omega

end Sys2Proof.Machine
end

