-- ==== Sys2Proof/Laws/Operands.lean ====
section
/-! SUPPORT. Byte order, the rate and the duplex: what each operation on bytes and words gives. -/

namespace Sys2Proof.Machine

/-! ## Bytes and words -/

/-- `be64` from any starting word, bit by bit. -/
theorem getLsbD_beWord_aux (B : List Byte) : ∀ (w : Word) (j : Nat), j < 64 →
    (B.foldl (fun (w : Word) (c : Byte) => (w <<< 8) ||| c.setWidth 64) w).getLsbD j =
      if j < 8 * B.length then (B.getD (B.length - 1 - j / 8) 0).getLsbD (j % 8) else w.getLsbD (j - 8 * B.length) := by
  induction B with
  | nil => intros; simp
  | cons c B ih =>
    intro w j hj
    rw [List.foldl_cons, ih _ _ hj, List.length_cons]
    by_cases h1 : j < 8 * B.length
    · rw [if_pos h1, if_pos (by omega)]
      have : B.length + 1 - 1 - j / 8 = (B.length - 1 - j / 8) + 1 := by omega
      rw [this, List.getD_cons_succ]
    · rw [if_neg h1]
      simp only [BitVec.getLsbD_or, BitVec.getLsbD_shiftLeft, BitVec.getLsbD_setWidth]
      by_cases h2 : j < 8 * (B.length + 1)
      · rw [if_pos h2]
        have e : B.length + 1 - 1 - j / 8 = 0 := by omega
        have e2 : j - 8 * B.length = j % 8 := by omega
        rw [e, List.getD_cons_zero, e2]
        have : j % 8 < 8 := Nat.mod_lt _ (by omega)
        simp [this]; omega
      · rw [if_neg h2]
        have : c.getLsbD (j - 8 * B.length) = false := BitVec.getLsbD_of_ge _ _ (by omega)
        have e : j - 8 * B.length - 8 = j - 8 * (B.length + 1) := by omega
        rw [this, e]; simp; omega

/-- Bit `j` of `be64(B)` is bit `j mod 8` of the byte `floor(j / 8)` from the end. -/
theorem getLsbD_beWord (B : List Byte) (j : Nat) (hj : j < 64) :
    (beWord B).getLsbD j = (decide (j < 8 * B.length) && (B.getD (B.length - 1 - j / 8) 0).getLsbD (j % 8)) := by
  rw [beWord, getLsbD_beWord_aux B _ _ hj]
  split <;> simp_all

theorem bytes64_getElem (w : Word) (n : Nat) (h : n < 8) : (bytes64 w)[n]? = some (w.extractLsb' (56 - 8 * n) 8) := by
  interval_cases n <;> rfl

theorem beWord_bytes64 (w : Word) : beWord (bytes64 w) = w := by
  apply BitVec.eq_of_getLsbD_eq
  intro j hj
  have hl : (bytes64 w).length = 8 := rfl
  rw [getLsbD_beWord _ _ hj, hl, List.getD_eq_getElem?_getD, bytes64_getElem _ _ (by omega)]
  have : j % 8 < 8 := Nat.mod_lt _ (by omega)
  have e : 56 - 8 * (8 - 1 - j / 8) + j % 8 = j := by omega
  simp [this, e, hj]

theorem bytes64_beWord (B : List Byte) (h : B.length = 8) : bytes64 (beWord B) = B := by
  apply List.ext_getElem?
  intro n
  by_cases hn : n < 8
  · rw [bytes64_getElem _ _ hn, List.getElem?_eq_getElem (by omega)]
    congr 1
    apply BitVec.eq_of_getLsbD_eq
    intro j hj
    rw [BitVec.getLsbD_extractLsb', getLsbD_beWord _ _ (by omega)]
    have e : B.length - 1 - (56 - 8 * n + j) / 8 = n := by omega
    have e2 : (56 - 8 * n + j) % 8 = j := by omega
    rw [e, e2, List.getD_eq_getElem _ _ (by omega)]
    simp [hj]; omega
  · rw [List.getElem?_eq_none (by simp [bytes64]; omega), List.getElem?_eq_none (by omega)]

theorem bytes64_xor (v w : Word) : bytes64 (v ^^^ w) = xorBytes (bytes64 v) (bytes64 w) := by
  simp [bytes64, xorBytes, BitVec.extractLsb'_xor]

@[simp] theorem bytes64_length (w : Word) : (bytes64 w).length = 8 := rfl

@[simp] theorem xorBytes_length (A B : List Byte) : (xorBytes A B).length = min A.length B.length := by simp [xorBytes]

/-! ## The rate -/

theorem rateGet_length {r : Nat} (hr : r = 8 ∨ r = 16) (x : Words) : (rateGet r x).length = r := by
  rcases hr with rfl | rfl <;> simp [rateGet]

/-- The rate after an XOR is the XOR of the rate (R63). -/
theorem rateGet_rateXor {r : Nat} (hr : r = 8 ∨ r = 16) {B : List Byte} (h : B.length = r) (x : Words) :
    rateGet r (rateXor r B x) = xorBytes (rateGet r x) B := by
  rcases hr with rfl | rfl
  · rw [rateGet, rateXor, rateGet, if_neg (by decide), if_neg (by decide), if_neg (by decide),
      List.take_of_length_le (le_of_eq h), bytes64_xor, bytes64_beWord B h]
  · rw [rateGet, rateXor, rateGet, if_pos rfl, if_pos rfl, if_pos rfl, bytes64_xor, bytes64_xor,
      bytes64_beWord _ (by simp [h]), bytes64_beWord _ (by simp [h]), List.take_of_length_le (l := B.drop 8) (by simp [h])]
    conv_rhs => rw [← List.take_append_drop 8 B, xorBytes, List.zipWith_append (by simp [h])]
    rfl

theorem pad_length {r : Nat} {B : List Byte} (h : B.length < r) : (pad r B).length = r := by
  simp [pad]; omega

/-! ## The duplex -/

theorem duplexBlock_length (d : Dir) {r : Nat} (hr : r = 8 ∨ r = 16) {B : List Byte} (h : B.length = r) (x : Words) :
    (duplexBlock d r B x).2.length = r := by
  cases d
  · exact rateGet_length hr _
  · simp [duplexBlock, rateGet_length hr, h]

theorem duplexLast_length (d : Dir) {r : Nat} (hr : r = 8 ∨ r = 16) {B : List Byte} (h : B.length < r) (x : Words) :
    (duplexLast d r B x).2.length = B.length := by
  cases d <;> simp [duplexLast, rateGet_length hr] <;> omega

end Sys2Proof.Machine
end

