-- ==== Sys2Proof/Laws/Permutation.lean ====
section
/-! SUPPORT. The procedure `P(r)` on the machine is the permutation of the words and leaves RND at 12 (40_permutation.md
R117). -/

namespace Sys2Proof.Machine

@[simp] theorem permute_zero (T : Tables) (x : Words) : permute T 0 x = x := rfl

theorem permute_succ (T : Tables) (n : Nat) (x : Words) : permute T (n + 1) x = permute T n (roundAt T (11 - n) x) := rfl

theorem roundLoop_eq (n k : Nat) (hk : k ≤ 12) (hn : k ≤ n) (s : State) (hr : s.rnd = BitVec.ofNat 4 (12 - k)) :
    roundLoop n s = { s with x := permute s.tables k s.x, rnd := 12 } := by
  induction k generalizing n s with
  | zero =>
    have h12 : s.rnd = 12 := by simpa using hr
    have hl : ¬ s.rnd < 12 := by rw [h12]; decide
    cases n with
    | zero => simp [roundLoop, ← h12]
    | succ n => rw [roundLoop, if_neg hl]; simp [← h12]
  | succ k ih =>
    obtain ⟨n, rfl⟩ : ∃ m, n = m + 1 := ⟨n - 1, by omega⟩
    have hv : s.rnd.toNat = 11 - k := by rw [hr, BitVec.toNat_ofNat]; omega
    have hlt : s.rnd < 12 := by
      rw [BitVec.lt_def, hv]; simp; omega
    have hnext : s.rnd + 1 = BitVec.ofNat 4 (12 - k) := by
      apply BitVec.eq_of_toNat_eq
      rw [BitVec.toNat_add, hv, BitVec.toNat_ofNat]
      simp; omega
    rw [roundLoop, if_pos hlt, ih n (by omega) (by omega) _ hnext]
    simp [roundStep, permute_succ, hv]

/-- All that `P(r)` does: x takes the permutation of x, RND ends at 12, nothing else changes (R117). -/
theorem runP_eq {r : Nat} (h : r ≤ 12) (s : State) : runP r s = { s with x := permute s.tables r s.x, rnd := 12 } := by
  rw [runP, roundLoop_eq 12 r h h _ rfl]

/-- The loop has at most 12 turns, so a round count above 12 (which no command has) acts as 12. -/
theorem runP_eq_min (r : Nat) (s : State) : runP r s = { s with x := permute s.tables (min r 12) s.x, rnd := 12 } := by
  have h : 12 - r = 12 - min r 12 := by omega
  rw [runP, roundLoop_eq 12 (min r 12) (by omega) (by omega) _ (by simp only [h])]

/-- All that the micro-step of PERM does (R118). -/
theorem permRun_eq {r : Nat} (h : r ≤ 12) (s : State) :
    permRun r s = { s with x := permute s.tables r s.x, rnd := 12, oLen := 0, busy := false, done := true } := by
  rw [permRun, runP_eq h]

theorem permRun_eq_min (r : Nat) (s : State) :
    permRun r s = { s with x := permute s.tables (min r 12) s.x, rnd := 12, oLen := 0, busy := false, done := true } := by
  rw [permRun, runP_eq_min]

/-! ## The rows of the tables -/

theorem aead_a_le (T : Tables) (v : AeadVariant) : (aeadParams T v).a ≤ 12 := Nat.le_of_lt_succ (aeadRow T v).a.isLt
theorem aead_b_le (T : Tables) (v : AeadVariant) : (aeadParams T v).b ≤ 12 := Nat.le_of_lt_succ (aeadRow T v).b.isLt
theorem hash_a_le (T : Tables) (h : HashVariant) : (hashParams T h).a ≤ 12 := Nat.le_of_lt_succ (hashRow T h).a.isLt
theorem hash_b_le (T : Tables) (h : HashVariant) : (hashParams T h).b ≤ 12 := Nat.le_of_lt_succ (hashRow T h).b.isLt

theorem rateLength_cases (r : Rate) : rateLength r = 8 ∨ rateLength r = 16 := by cases r <;> simp [rateLength]

theorem aead_r_cases (T : Tables) (v : AeadVariant) : (aeadParams T v).r = 8 ∨ (aeadParams T v).r = 16 :=
  rateLength_cases _
theorem hash_r_cases (T : Tables) (h : HashVariant) : (hashParams T h).r = 8 ∨ (hashParams T h).r = 16 :=
  rateLength_cases _
theorem aead_r_pos (T : Tables) (v : AeadVariant) : 0 < (aeadParams T v).r := by have := aead_r_cases T v; omega
theorem hash_r_pos (T : Tables) (h : HashVariant) : 0 < (hashParams T h).r := by have := hash_r_cases T h; omega

theorem keyLength_cases (k : KeySize) : keyLength k = 16 ∨ keyLength k = 20 := by cases k <;> simp [keyLength]

theorem aead_k_cases (T : Tables) (v : AeadVariant) : (aeadParams T v).k = 16 ∨ (aeadParams T v).k = 20 :=
  keyLength_cases _

end Sys2Proof.Machine
end

