-- ==== Sys2Proof/Laws/Sponge.lean ====
section
/-! SUPPORT. The micro-steps: each as one record update (41_sponge.md R136 to R151), and what no micro-step changes. -/

namespace Sys2Proof.Machine

theorem spInit_eq (v : AeadVariant) (s : State) :
    spInit v s =
      { s with
        x := initAead s.tables v (keyBytes s.tables v s.key) s.nonce.toList
        rnd := 12
        phase := .initialized } := by
  simp only [spInit, initAead]; rw [runP_eq (aead_a_le _ v)]

theorem spAdBlock_eq (v : AeadVariant) (s : State) :
    spAdBlock v s =
      { s with
        x := permute s.tables (aeadParams s.tables v).b (rateXor (aeadParams s.tables v).r
          (if s.blk + 1 = adBlocks s.adLen (aeadParams s.tables v).r
            then pad (aeadParams s.tables v).r (block .ad s.adLen (aeadParams s.tables v).r s.blk s)
            else block .ad s.adLen (aeadParams s.tables v).r s.blk s) s.x)
        rnd := 12
        blk := s.blk + 1 } := by
  simp only [spAdBlock]; rw [runP_eq (aead_b_le _ v)]

theorem spTextBlock_eq (d : Dir) (v : AeadVariant) (s : State) :
    spTextBlock d v s =
      { s with
        x := permute s.tables (aeadParams s.tables v).b
          (duplexBlock d (aeadParams s.tables v).r
            (memRead .din ((aeadParams s.tables v).r * s.blk) (aeadParams s.tables v).r s) s.x).1
        rnd := 12
        blk := s.blk + 1
        dout := s.dout.putBytes ((aeadParams s.tables v).r * s.blk)
          (duplexBlock d (aeadParams s.tables v).r
            (memRead .din ((aeadParams s.tables v).r * s.blk) (aeadParams s.tables v).r s) s.x).2 } := by
  simp only [spTextBlock]; rw [runP_eq (aead_b_le _ v)]; rfl

theorem spTextLast_eq (d : Dir) (v : AeadVariant) (s : State) :
    spTextLast d v s =
      { s with
        x := (duplexLast d (aeadParams s.tables v).r
          (memRead .din ((aeadParams s.tables v).r * s.blk) (s.dLen % (aeadParams s.tables v).r) s) s.x).1
        phase := .finalizing
        blk := 0
        dout := s.dout.putBytes ((aeadParams s.tables v).r * s.blk) (duplexLast d (aeadParams s.tables v).r
          (memRead .din ((aeadParams s.tables v).r * s.blk) (s.dLen % (aeadParams s.tables v).r) s) s.x).2 } := rfl

theorem spFinal_eq (v : AeadVariant) (s : State) :
    spFinal v s = { s with x := finalAead s.tables v (keyBytes s.tables v s.key) s.x, rnd := 12, blk := 1 } := by
  simp only [spFinal, finalAead]; rw [runP_eq (aead_a_le _ v)]

theorem spTag_enc (s : State) : spTag .enc s = { s with tagOut := tagOf s.x, blk := 2 } := rfl

theorem spTag_dec (s : State) :
    spTag .dec s =
      { s with
        dout := s.dout.putBytes 0 ((memRead .dout 0 s.dLen s).map (· &&& tagMask (tagOf s.x) s.tagIn))
        verified := tagMatches (tagOf s.x) s.tagIn
        blk := 2 } := rfl

theorem spHashInit_eq (h : HashVariant) (s : State) :
    spHashInit h s =
      { s with
        x := permute s.tables (hashParams s.tables h).a (loadHash s.tables h)
        rnd := 12
        phase := .initialized } := by
  rw [spHashInit, runP_eq (hash_a_le _ h)]

theorem spHashBlock_full (h : HashVariant) (s : State) (hb : s.blk + 1 < textBlocks s.dLen (hashParams s.tables h).r) :
    spHashBlock h s =
      { s with
        x := permute s.tables (hashParams s.tables h).b
          (rateXor (hashParams s.tables h).r (block .din s.dLen (hashParams s.tables h).r s.blk s) s.x)
        rnd := 12
        blk := s.blk + 1 } := by
  simp only [spHashBlock, if_pos hb]; rw [runP_eq (hash_b_le _ h)]

theorem spHashBlock_last (h : HashVariant) (s : State)
    (hb : ¬ s.blk + 1 < textBlocks s.dLen (hashParams s.tables h).r) :
    spHashBlock h s =
      { s with
        x := permute s.tables (hashParams s.tables h).a
          (rateXor (hashParams s.tables h).r
            (pad (hashParams s.tables h).r (block .din s.dLen (hashParams s.tables h).r s.blk s)) s.x)
        rnd := 12
        phase := .finalizing
        blk := 0 } := by
  simp only [spHashBlock, if_neg hb]; rw [runP_eq (hash_a_le _ h)]

theorem spHashSqueeze_eq (h : HashVariant) (s : State) :
    spHashSqueeze h s =
      { s with
        x := if s.blk < 3 then permute s.tables (hashParams s.tables h).b s.x else s.x
        rnd := if s.blk < 3 then 12 else s.rnd
        blk := s.blk + 1
        dout := s.dout.putBytes (8 * s.blk) (bytes64 s.x.x0) } := by
  by_cases hb : s.blk < 3
  · simp only [spHashSqueeze, if_pos hb]; rw [runP_eq (hash_b_le _ h)]; rfl
  · simp only [spHashSqueeze, if_neg hb]; rfl

/-- What no micro-step changes (20_memory.md R61, R74): the operands other than the key, CMD, the fault flags, the
model's own fields. -/
structure MicroKept (s t : State) : Prop where
  nonce : t.nonce = s.nonce
  tagIn : t.tagIn = s.tagIn
  cmd : t.cmd = s.cmd
  err : t.err = s.err
  errCode : t.errCode = s.errCode
  nonceLen : t.nonceLen = s.nonceLen
  adLen : t.adLen = s.adLen
  dLen : t.dLen = s.dLen
  ad : t.ad = s.ad
  din : t.din = s.din
  env : t.env = s.env

theorem perform_kept (m : MicroStep) (s : State) : MicroKept s (perform m s) := by
  cases m with
  | permRun r => rw [perform, permRun_eq_min]; constructor <;> rfl
  | spInit v => rw [perform, spInit_eq]; constructor <;> rfl
  | spAdBegin => constructor <;> rfl
  | spAdBlock v => rw [perform, spAdBlock_eq]; constructor <;> rfl
  | spDomSep => constructor <;> rfl
  | spTextBlock d v => rw [perform, spTextBlock_eq]; constructor <;> rfl
  | spTextLast d v => rw [perform, spTextLast_eq]; constructor <;> rfl
  | spFinal v => rw [perform, spFinal_eq]; constructor <;> rfl
  | spTag d => cases d <;> constructor <;> rfl
  | spRelease => constructor <;> rfl
  | spHashInit h => rw [perform, spHashInit_eq]; constructor <;> rfl
  | spHashBegin => constructor <;> rfl
  | spHashBlock h =>
    by_cases hb : s.blk + 1 < textBlocks s.dLen (hashParams s.tables h).r
    · rw [perform, spHashBlock_full h s hb]; constructor <;> rfl
    · rw [perform, spHashBlock_last h s hb]; constructor <;> rfl
  | spHashSqueeze h => rw [perform, spHashSqueeze_eq]; constructor <;> rfl
  | spHashRelease => constructor <;> rfl

/-- PHASE after a micro-step (R132). -/
def phaseAfter (T : Tables) (m : MicroStep) (phase : Phase) (blk dLen : Nat) : Phase :=
  match m with
  | .permRun _ => phase
  | .spInit _ => .initialized
  | .spAdBegin => .absorbingAD
  | .spAdBlock _ => phase
  | .spDomSep => .absorbingText
  | .spTextBlock _ _ => phase
  | .spTextLast _ _ => .finalizing
  | .spFinal _ => phase
  | .spTag _ => phase
  | .spRelease => .done
  | .spHashInit _ => .initialized
  | .spHashBegin => .absorbingText
  | .spHashBlock h => if blk + 1 < textBlocks dLen (hashParams T h).r then phase else .finalizing
  | .spHashSqueeze _ => phase
  | .spHashRelease => .done

/-- BLK after a micro-step (R132). -/
def blkAfter (T : Tables) (m : MicroStep) (blk dLen : Nat) : Nat :=
  match m with
  | .permRun _ => blk
  | .spInit _ => blk
  | .spAdBegin => 0
  | .spAdBlock _ => blk + 1
  | .spDomSep => 0
  | .spTextBlock _ _ => blk + 1
  | .spTextLast _ _ => 0
  | .spFinal _ => 1
  | .spTag _ => 2
  | .spRelease => 0
  | .spHashInit _ => blk
  | .spHashBegin => 0
  | .spHashBlock h => if blk + 1 < textBlocks dLen (hashParams T h).r then blk + 1 else 0
  | .spHashSqueeze _ => blk + 1
  | .spHashRelease => 0

/-- The micro-steps that end a command (R34). -/
def completes : MicroStep → Bool
  | .permRun _ => true
  | .spRelease => true
  | .spHashRelease => true
  | .spInit _ => false
  | .spAdBegin => false
  | .spAdBlock _ => false
  | .spDomSep => false
  | .spTextBlock _ _ => false
  | .spTextLast _ _ => false
  | .spFinal _ => false
  | .spTag _ => false
  | .spHashInit _ => false
  | .spHashBegin => false
  | .spHashBlock _ => false
  | .spHashSqueeze _ => false

/-- What a micro-step does to the sequencer's own state: PHASE, BLK, BUSY, DONE (R132). -/
structure Control (m : MicroStep) (s t : State) : Prop where
  phase : t.phase = phaseAfter s.tables m s.phase s.blk s.dLen
  blk : t.blk = blkAfter s.tables m s.blk s.dLen
  busy : t.busy = (s.busy && !completes m)
  done : t.done = (s.done || completes m)

theorem perform_control (m : MicroStep) (s : State) : Control m s (perform m s) := by
  cases m with
  | permRun r => rw [perform, permRun_eq_min]; constructor <;> simp [phaseAfter, blkAfter, completes]
  | spInit v => rw [perform, spInit_eq]; constructor <;> simp [phaseAfter, blkAfter, completes]
  | spAdBegin => constructor <;> simp [perform, phaseAfter, blkAfter, completes]
  | spAdBlock v => rw [perform, spAdBlock_eq]; constructor <;> simp [phaseAfter, blkAfter, completes]
  | spDomSep => constructor <;> simp [perform, phaseAfter, blkAfter, completes]
  | spTextBlock d v => rw [perform, spTextBlock_eq]; constructor <;> simp [phaseAfter, blkAfter, completes]
  | spTextLast d v => rw [perform, spTextLast_eq]; constructor <;> simp [phaseAfter, blkAfter, completes]
  | spFinal v => rw [perform, spFinal_eq]; constructor <;> simp [phaseAfter, blkAfter, completes]
  | spTag d => cases d <;> constructor <;> simp [perform, spTag, maskDout, phaseAfter, blkAfter, completes]
  | spRelease => constructor <;> simp [perform, phaseAfter, blkAfter, completes]
  | spHashInit h => rw [perform, spHashInit_eq]; constructor <;> simp [phaseAfter, blkAfter, completes]
  | spHashBegin => constructor <;> simp [perform, phaseAfter, blkAfter, completes]
  | spHashBlock h =>
    by_cases hb : s.blk + 1 < textBlocks s.dLen (hashParams s.tables h).r
    · rw [perform, spHashBlock_full h s hb]; constructor <;> simp [phaseAfter, blkAfter, completes, hb]
    · rw [perform, spHashBlock_last h s hb]; constructor <;> simp [phaseAfter, blkAfter, completes, hb]
  | spHashSqueeze h => rw [perform, spHashSqueeze_eq]; constructor <;> simp [phaseAfter, blkAfter, completes]
  | spHashRelease => constructor <;> simp [perform, phaseAfter, blkAfter, completes]

/-- The row of the transition table, from what the sequencer reads (R131, R132). -/
theorem nextMicro_eq {s : State} {i : Instr} (h : decode s.cmd = .legal i) :
    nextMicro s = select s.tables (opOf i) s.phase s.blk s.adLen s.dLen := by
  simp [nextMicro, h]

/-- A micro-step that is performed leaves RND at 12 if it found it there. -/
theorem perform_rnd (m : MicroStep) {s : State} (h : s.rnd = 12) : (perform m s).rnd = 12 := by
  cases m with
  | permRun r => rw [perform, permRun_eq_min]
  | spInit v => rw [perform, spInit_eq]
  | spAdBegin => exact h
  | spAdBlock v => rw [perform, spAdBlock_eq]
  | spDomSep => exact h
  | spTextBlock d v => rw [perform, spTextBlock_eq]
  | spTextLast d v => rw [perform, spTextLast_eq]; exact h
  | spFinal v => rw [perform, spFinal_eq]
  | spTag d => cases d <;> exact h
  | spRelease => exact h
  | spHashInit k => rw [perform, spHashInit_eq]
  | spHashBegin => exact h
  | spHashBlock k =>
    by_cases hb : s.blk + 1 < textBlocks s.dLen (hashParams s.tables k).r
    · rw [perform, spHashBlock_full k s hb]
    · rw [perform, spHashBlock_last k s hb]
  | spHashSqueeze k => rw [perform, spHashSqueeze_eq]; simp [h]
  | spHashRelease => exact h

/-! ## Sequences of micro-steps -/

/-- One more micro-step in front. -/
theorem runMicro_succ {s t : State} {m : MicroStep} {n : Nat} (hb : s.busy = true) (hm : nextMicro s = some m)
    (h : runMicro n (perform m s) = some t) : runMicro (n + 1) s = some t := by
  simp [runMicro, hb, hm, h]

/-- `m + n` micro-steps are `m` and then `n`. -/
theorem runMicro_add (m n : Nat) (s : State) : runMicro (m + n) s = (runMicro m s).bind (runMicro n) := by
  induction m generalizing s with
  | zero => simp [runMicro]
  | succ m ih =>
    rw [Nat.succ_add, runMicro, runMicro]
    split
    · split
      · exact ih _
      · rfl
    · rfl

theorem times_succ (n : Nat) (f : State → State) (s : State) : times (n + 1) f s = f (times n f s) := by
  induction n generalizing s with
  | zero => rfl
  | succ n ih => exact ih (f s)

end Sys2Proof.Machine
end

