-- ==== Sys2Proof/Laws/Commands.lean ====
section
/-! SUPPORT. The repeated micro-steps of a command, `n` at once: absorbing the associated data, duplexing the text,
absorbing a message, as the pure functions say them. -/

namespace Sys2Proof.Machine

theorem duplexFull_length (d : Dir) (v : AeadVariant) (n : Nat) (D : List Byte) (x : Words)
    (h : (aeadParams T v).r * n ≤ D.length) : (duplexFull T d v n D x).2.length = (aeadParams T v).r * n := by
  induction n generalizing D x with
  | zero => rfl
  | succ n ih =>
    rw [Nat.mul_succ] at h
    simp only [duplexFull, List.length_append]
    rw [ih _ _ (by simp; omega), duplexBlock_length d (aead_r_cases _ v) (by simp; omega), Nat.mul_succ]
    omega

/-- `n` full blocks of associated data (R138). -/
theorem times_spAdBlock (v : AeadVariant) (n : Nat) (s : State) (hr : s.rnd = 12)
    (h : s.blk + n ≤ s.adLen / (aeadParams s.tables v).r) :
    times n (spAdBlock v) s = { s with
      x := absorbFull s.tables (aeadParams s.tables v).r (aeadParams s.tables v).b n
        (memRead .ad ((aeadParams s.tables v).r * s.blk) (s.adLen - (aeadParams s.tables v).r * s.blk) s) s.x
      blk := s.blk + n } := by
  induction n generalizing s with
  | zero => rfl
  | succ n ih =>
    have h1 : (aeadParams s.tables v).r * (s.blk + 1 + n) ≤ s.adLen :=
      (Nat.mul_le_mul_left _ (by omega)).trans (Nat.mul_div_le s.adLen (aeadParams s.tables v).r)
    have hlast : ¬ s.blk + 1 = adBlocks s.adLen (aeadParams s.tables v).r := by
      unfold adBlocks; split <;> omega
    have hfull : s.adLen - (aeadParams s.tables v).r * s.blk ≥ (aeadParams s.tables v).r := by
      rw [Nat.mul_add, Nat.mul_add] at h1; omega
    have e : (aeadParams s.tables v).r * (s.blk + 1) =
        (aeadParams s.tables v).r * s.blk + (aeadParams s.tables v).r := by ring
    rw [times,
      ih _ (by rw [spAdBlock_eq])
        (by rw [spAdBlock_eq]; change s.blk + 1 + n ≤ s.adLen / (aeadParams s.tables v).r; omega),
      spAdBlock_eq, if_neg hlast]
    simp only [State.mk.injEq, true_and, hr, and_true]
    refine ⟨?_, by omega⟩
    rw [absorbFull, memRead_take _ _ _ _ _ hfull, memRead_drop, block, blockLen, min_eq_left hfull, e, Nat.sub_sub]
    rfl

/-- `n` full blocks of text (R142). -/
theorem times_spTextBlock (d : Dir) (v : AeadVariant) (n : Nat) (s : State) (hr : s.rnd = 12)
    (h : s.blk + n ≤ s.dLen / (aeadParams s.tables v).r) :
    times n (spTextBlock d v) s =
      let D := memRead .din ((aeadParams s.tables v).r * s.blk) (s.dLen - (aeadParams s.tables v).r * s.blk) s
      { s with
        x := (duplexFull s.tables d v n D s.x).1
        blk := s.blk + n
        dout := s.dout.putBytes ((aeadParams s.tables v).r * s.blk) (duplexFull s.tables d v n D s.x).2 } := by
  induction n generalizing s with
  | zero => rfl
  | succ n ih =>
    have h1 : (aeadParams s.tables v).r * (s.blk + 1 + n) ≤ s.dLen :=
      (Nat.mul_le_mul_left _ (by omega)).trans (Nat.mul_div_le s.dLen (aeadParams s.tables v).r)
    have hfull : s.dLen - (aeadParams s.tables v).r * s.blk ≥ (aeadParams s.tables v).r := by
      rw [Nat.mul_add, Nat.mul_add] at h1; omega
    have e : (aeadParams s.tables v).r * (s.blk + 1) =
        (aeadParams s.tables v).r * s.blk + (aeadParams s.tables v).r := by ring
    rw [times,
      ih _ (by rw [spTextBlock_eq])
        (by rw [spTextBlock_eq]; change s.blk + 1 + n ≤ s.dLen / (aeadParams s.tables v).r; omega),
      spTextBlock_eq]
    simp only [State.mk.injEq, true_and, hr, and_true]
    rw [duplexFull]
    simp only [memRead_take _ _ _ _ _ hfull, memRead_drop, e, Nat.sub_sub, Memory.putBytes_append]
    rw [duplexBlock_length d (aead_r_cases _ v) (by simp)]
    exact ⟨rfl, by omega, rfl⟩

/-- `n` full blocks of a message (R149). -/
theorem times_spHashBlock (v : HashVariant) (n : Nat) (s : State) (hr : s.rnd = 12)
    (h : s.blk + n ≤ s.dLen / (hashParams s.tables v).r) :
    times n (spHashBlock v) s = { s with
      x := absorbFull s.tables (hashParams s.tables v).r (hashParams s.tables v).b n
        (memRead .din ((hashParams s.tables v).r * s.blk) (s.dLen - (hashParams s.tables v).r * s.blk) s) s.x
      blk := s.blk + n } := by
  induction n generalizing s with
  | zero => rfl
  | succ n ih =>
    have h1 : (hashParams s.tables v).r * (s.blk + 1 + n) ≤ s.dLen :=
      (Nat.mul_le_mul_left _ (by omega)).trans (Nat.mul_div_le s.dLen (hashParams s.tables v).r)
    have hfull : s.dLen - (hashParams s.tables v).r * s.blk ≥ (hashParams s.tables v).r := by
      rw [Nat.mul_add, Nat.mul_add] at h1; omega
    have hf : s.blk + 1 < textBlocks s.dLen (hashParams s.tables v).r := by unfold textBlocks; omega
    have e : (hashParams s.tables v).r * (s.blk + 1) =
        (hashParams s.tables v).r * s.blk + (hashParams s.tables v).r := by ring
    rw [times,
      ih _ (by rw [spHashBlock_full v s hf])
        (by rw [spHashBlock_full v s hf]; change s.blk + 1 + n ≤ s.dLen / (hashParams s.tables v).r; omega),
      spHashBlock_full v s hf]
    simp only [State.mk.injEq, true_and, hr, and_true]
    refine ⟨?_, by omega⟩
    rw [absorbFull, memRead_take _ _ _ _ _ hfull, memRead_drop, block, blockLen, min_eq_left hfull, e, Nat.sub_sub]
    rfl

end Sys2Proof.Machine
end

