-- ==== Sys2Proof/Laws/Ops.lean ====
section
/-! SUPPORT. What the shared operations can do: the run of a command, fault entry, the checks, the host's reads and
writes. -/

namespace Sys2Proof.Machine

/-! ## Commands -/

/-- The body of a command's meaning: its micro-steps, composed. -/
def bodyOf : Instr → State → State
  | .perm r => permRun r.toNat
  | .enc128 => aeadBody .enc .v128
  | .enc128a => aeadBody .enc .v128a
  | .enc80pq => aeadBody .enc .v80pq
  | .dec128 => aeadBody .dec .v128
  | .dec128a => aeadBody .dec .v128a
  | .dec80pq => aeadBody .dec .v80pq
  | .hash => hashBody .hash
  | .hasha => hashBody .hasha

/-- Every meaning is a run of its command. -/
theorem exec_eq (i : Instr) (s : State) : exec i s = runCommand i (bodyOf i) s := by cases i <;> rfl

theorem bodyOf_aead {i : Instr} {d : Dir} {v : AeadVariant} (h : opOf i = .aead d v) : bodyOf i = aeadBody d v := by
  cases i <;> simp_all [opOf, bodyOf]

theorem bodyOf_hash {i : Instr} {h : HashVariant} (e : opOf i = .hash h) : bodyOf i = hashBody h := by
  cases i <;> simp_all [opOf, bodyOf]

@[simp] theorem opOf_encOf (v : AeadVariant) : opOf (encOf v) = .aead .enc v := by cases v <;> rfl
@[simp] theorem opOf_decOf (v : AeadVariant) : opOf (decOf v) = .aead .dec v := by cases v <;> rfl
@[simp] theorem opOf_hashOf (h : HashVariant) : opOf (hashOf h) = .hash h := by cases h <;> rfl
@[simp] theorem wellFormed_encOf (v : AeadVariant) : (encOf v).wellFormed = true := by cases v <;> rfl
@[simp] theorem wellFormed_decOf (v : AeadVariant) : (decOf v).wellFormed = true := by cases v <;> rfl
@[simp] theorem wellFormed_hashOf (h : HashVariant) : (hashOf h).wellFormed = true := by cases h <;> rfl

theorem runCommand_ready {i : Instr} {body : State → State} {s : State} (h : Ready s) :
    runCommand i body s =
      match checkCommand i s with
      | some c => .next (faultEntry c s)
      | none => .next (body (accepted i s)) := by
  cases hc : checkCommand i s <;> simp [runCommand, h.1, h.2, hc]

/-- A ready block whose checks pass runs the command. -/
theorem exec_accepted {i : Instr} {s : State} (h : Ready s) (hc : checkCommand i s = none) :
    exec i s = .next (bodyOf i (accepted i s)) := by
  rw [exec_eq, runCommand_ready h, hc]

/-- A ready block whose checks fail takes the fault. -/
theorem exec_faults {i : Instr} {s : State} {c : ErrCode} (h : Ready s) (hc : checkCommand i s = some c) :
    exec i s = .next (faultEntry c s) := by
  rw [exec_eq, runCommand_ready h, hc]

/-- All that a command can do: nothing (held or ignored), a fault, or its micro-steps after acceptance. -/
theorem exec_cases {i : Instr} {s t : State} (h : exec i s = .next t) :
    (¬ Ready s ∧ t = s) ∨ (Ready s ∧ ∃ c, checkCommand i s = some c ∧ t = faultEntry c s) ∨
      (Ready s ∧ checkCommand i s = none ∧ t = bodyOf i (accepted i s)) := by
  rw [exec_eq] at h
  by_cases hr : Ready s
  · rw [runCommand_ready hr] at h
    cases hc : checkCommand i s with
    | some c => exact .inr (.inl ⟨hr, c, rfl, by rw [hc] at h; exact (Host.Outcome.next.inj h).symm⟩)
    | none => exact .inr (.inr ⟨hr, rfl, by rw [hc] at h; exact (Host.Outcome.next.inj h).symm⟩)
  · refine .inl ⟨hr, ?_⟩
    simp only [runCommand] at h
    split at h
    · exact (Host.Outcome.next.inj h).symm
    · split at h
      · exact (Host.Outcome.next.inj h).symm
      · next hb he => exact absurd ⟨by simpa using hb, by simpa using he⟩ hr

/-- Every command answers a next state, in every state. -/
theorem exec_next (i : Instr) (s : State) : ∃ t, exec i s = .next t := by
  rw [exec_eq, runCommand]
  split
  · exact ⟨_, rfl⟩
  · split
    · exact ⟨_, rfl⟩
    · split <;> exact ⟨_, rfl⟩

theorem faulted_faultEntry (c : ErrCode) (s : State) : Faulted c s (faultEntry c s) := by constructor <;> rfl

/-! ## Checks -/

theorem checkCommand_wf {i : Instr} (h : i.wellFormed = true) (s : State) :
    checkCommand i s = checkOperands (opOf i) s := by simp [checkCommand, h]

/-- The checks see the lengths and the capacities only. -/
theorem checkOperands_congr {o : Op} {s t : State} (hk : s.keyLen = t.keyLen) (hn : s.nonceLen = t.nonceLen)
    (ha : s.adLen = t.adLen) (hd : s.dLen = t.dLen) (hp : s.env.params = t.env.params) :
    checkOperands o s = checkOperands o t := by
  cases o <;> simp [checkOperands, State.tables, hk, hn, ha, hd, hp]

theorem checkOperands_aead_none {d : Dir} {v : AeadVariant} {s : State} :
    checkOperands (.aead d v) s = none ↔
      s.keyLen = (aeadParams s.tables v).k ∧ s.nonceLen = 16 ∧ exceeds s.adLen s.env.params.adCap = false ∧
        exceeds s.dLen s.env.params.dCap = false := by
  simp only [checkOperands]
  split_ifs <;> simp_all

theorem checkOperands_hash_none {h : HashVariant} {s : State} :
    checkOperands (.hash h) s = none ↔ exceeds s.dLen s.env.params.dCap = false := by
  simp only [checkOperands]
  split_ifs <;> simp_all

/-- No check fails with the code 0. -/
theorem checkCommand_ne_none {i : Instr} {s : State} {c : ErrCode} (h : checkCommand i s = some c) : c ≠ .none := by
  unfold checkCommand at h
  split at h
  · cases ho : opOf i <;> rw [ho] at h <;> simp only [checkOperands] at h
    · cases h
    · split_ifs at h <;> cases h <;> decide
    · split_ifs at h; cases h; decide
  · cases h; decide

/-- The state that acceptance leaves, for a sponge command (R207). -/
theorem accepted_sponge {i : Instr} (h : ∀ r, opOf i ≠ .perm r) (s : State) :
    accepted i s = { s with
      cmd := encode i, busy := true, done := false, verified := false, oLen := 0
      tagOut := Vector.replicate 16 0, phase := .uninitialized, blk := 0 } := by
  unfold accepted startPhase
  cases ho : opOf i with
  | perm r => exact absurd ho (h r)
  | aead d v => rfl
  | hash k => rfl

theorem accepted_perm (r : BitVec 4) (s : State) :
    accepted (.perm r) s = { s with
      cmd := encode (.perm r), busy := true, done := false, verified := false, oLen := 0
      tagOut := Vector.replicate 16 0 } := rfl

/-! ## The host's port -/

/-- All that a host write can do (R203, R204, R207, R210). -/
theorem hostWrite_cases (id idx v : Nat) (s : State) :
    hostWrite id idx v s = s ∨
      ∃ it, itemOf id = some it ∧ below idx (itemCount s.env.params it) = true ∧
        hostWrite id idx v s = writeItem it idx v s := by
  unfold hostWrite
  split
  · exact .inl rfl
  · next it h =>
    split
    · next hb => exact .inr ⟨it, h, hb, rfl⟩
    · exact .inl rfl

/-- All that a CMD write can do (R207, R208). -/
theorem cmdWrite_cases (w : Byte) (s : State) :
    (s.err = true ∧ cmdWrite w s = s) ∨
      (s.err = false ∧ ∃ c, c ≠ .none ∧ cmdWrite w s = faultEntry c s) ∨
      (s.err = false ∧ ∃ i, decode w = .legal i ∧ checkCommand i s = none ∧ cmdWrite w s = accepted i s) := by
  unfold cmdWrite
  by_cases he : s.err = true
  · exact .inl ⟨he, by simp [he]⟩
  · have he' : s.err = false := by simpa using he
    simp only [he', Bool.false_eq_true, if_false]
    cases hd : decode w with
    | illegal y => exact .inr (.inl ⟨trivial, .illegalCmd, by decide, rfl⟩)
    | legal i =>
      unfold acceptCommand
      cases hc : checkCommand i s with
      | some c => exact .inr (.inl ⟨trivial, c, checkCommand_ne_none hc, by simp [hc]⟩)
      | none => exact .inr (.inr ⟨trivial, i, rfl, hc, by simp [hc]⟩)

@[simp] theorem itemOf_itemId (it : Item) : itemOf (itemId it) = some it := by cases it <;> rfl

theorem itemOf_some {id : Nat} {it : Item} (h : itemOf id = some it) : itemId it = id := by
  have := List.find?_some h
  simpa using this

end Sys2Proof.Machine
end

