-- ==== Sys2Proof/Laws/PerInstr.lean ====
section
/-! SUPPORT. Statements made for every instruction, one lemma a constructor. -/

namespace Sys2Proof.Laws.EncodingFields

/-- The two fields of a command's encoded word are its operation and its argument (30_encoding.md R90). -/
def Statement (i : Instr) : Prop := opField (encode i) = i.opBits ∧ argField (encode i) = i.argBits

theorem perm (r : BitVec 4) : Statement (.perm r) := by
  constructor
  · show (1#4 ++ r).extractLsb' 4 4 = 1#4
    revert r; decide
  · show (1#4 ++ r).extractLsb' 0 4 = r
    revert r; decide
theorem enc128 : Statement .enc128 := by constructor <;> decide
theorem enc128a : Statement .enc128a := by constructor <;> decide
theorem enc80pq : Statement .enc80pq := by constructor <;> decide
theorem dec128 : Statement .dec128 := by constructor <;> decide
theorem dec128a : Statement .dec128a := by constructor <;> decide
theorem dec80pq : Statement .dec80pq := by constructor <;> decide
theorem hash : Statement .hash := by constructor <;> decide
theorem hasha : Statement .hasha := by constructor <;> decide

end Sys2Proof.Laws.EncodingFields
end

