-- ==== Sys2Proof/Laws/Step.lean ====
section
/-! SUPPORT. Everything one step can do, said once. -/

namespace Sys2Proof.Machine

/-- The ways a step goes from one state to the next. -/
inductive StepsTo (s : State) : State → Prop where
  /-- The sequencer's micro-step, the script as it is or with a pause taken from it. -/
  | micro (u : State) (m : MicroStep) (hb : s.busy = true) (hu : u = s ∨ u = popEvent s)
      (hm : nextMicro s = some m) (hr : s.env.inbox.head? ≠ some .reset) : StepsTo s (perform m u)
  | statusRead (hb : s.busy = true) (h : s.env.inbox.head? = some (.read (itemId .status) 0)) :
      StepsTo s (answer (statusValue s) (popEvent s))
  | reset (h : s.env.inbox.head? = some .reset) : StepsTo s (resetEvent (popEvent s))
  | empty (hb : s.busy = false) (h : s.env.inbox = []) : StepsTo s s
  | pause (hb : s.busy = false) (h : s.env.inbox.head? = some .pause) : StepsTo s (popEvent s)
  | read (id idx : Nat) (hb : s.busy = false) (h : s.env.inbox.head? = some (.read id idx)) :
      StepsTo s (answer (hostRead id idx s) (popEvent s))
  | write (id idx v : Nat) (hb : s.busy = false) (h : s.env.inbox.head? = some (.write id idx v)) :
      StepsTo s (hostWrite id idx v (popEvent s))
  | command (w : Byte) (i : Instr) (t : State) (hb : s.busy = false) (h : s.env.inbox.head? = some (.command w))
      (hd : decode w = .legal i) (he : exec i (popEvent s) = .next t) : StepsTo s t
  | illegal (w : Byte) (y : Illegal) (t : State) (hb : s.busy = false) (h : s.env.inbox.head? = some (.command w))
      (hd : decode w = .illegal y) (he : runIllegal (popEvent s) = .next t) : StepsTo s t

theorem nextMicro_popEvent (s : State) : nextMicro (popEvent s) = nextMicro s := rfl

theorem sequencerStep_next {s t : State} (h : sequencerStep s = .next t) : ∃ m, nextMicro s = some m ∧ t = perform m s := by
  unfold sequencerStep at h
  split at h
  · next m hm => exact ⟨m, hm, (Host.Outcome.next.inj h).symm⟩
  · cases h

/-- A step that answers a next state does one of the things above. -/
theorem step_cases {s t : State} (h : step s = .next t) : StepsTo s t := by
  unfold step at h
  split at h
  · next hb =>
    unfold busyStep at h
    split at h
    · next hi => obtain ⟨m, hm, rfl⟩ := sequencerStep_next h; exact .micro s m hb (.inl rfl) hm (by simp [hi])
    · next hi =>
      obtain ⟨m, hm, rfl⟩ := sequencerStep_next h
      exact .micro (popEvent s) m hb (.inr rfl) (by rwa [nextMicro_popEvent] at hm) (by simp [hi])
    · next hi => cases h; exact .reset (by simp [hi])
    · next id idx _ hi =>
      split at h
      · next hs =>
        cases h
        have hs' : id = itemId .status ∧ idx = 0 := by simpa [isStatusRead] using hs
        exact .statusRead hb (by simp [hi, hs'.1, hs'.2])
      · obtain ⟨m, hm, rfl⟩ := sequencerStep_next h; exact .micro s m hb (.inl rfl) hm (by simp [hi])
    · next hi => obtain ⟨m, hm, rfl⟩ := sequencerStep_next h; exact .micro s m hb (.inl rfl) hm (by simp [hi])
    · next hi => obtain ⟨m, hm, rfl⟩ := sequencerStep_next h; exact .micro s m hb (.inl rfl) hm (by simp [hi])
  · next hb =>
    have hb : s.busy = false := by simpa using hb
    unfold idleStep at h
    split at h
    · next hi => cases h; exact .empty hb hi
    · next hi => cases h; exact .pause hb (by simp [hi])
    · next hi => cases h; exact .reset (by simp [hi])
    · next id idx _ hi => cases h; exact .read id idx hb (by simp [hi])
    · next id idx v _ hi => cases h; exact .write id idx v hb (by simp [hi])
    · next w _ hi =>
      split at h
      · next i hd => exact .command w i t hb (by simp [hi]) hd h
      · next y hd => exact .illegal w y t hb (by simp [hi]) hd h

theorem runIllegal_cases {s t : State} (h : runIllegal s = .next t) :
    (s.err = true ∧ t = s) ∨ (s.err = false ∧ t = faultEntry .illegalCmd s) := by
  unfold runIllegal at h
  split at h
  · next he => exact .inl ⟨he, (Host.Outcome.next.inj h).symm⟩
  · next he => exact .inr ⟨by simpa using he, (Host.Outcome.next.inj h).symm⟩

end Sys2Proof.Machine
end

