-- ==== Sys2Proof/Tests/Slice0.lean ====
section
/-! SUPPORT. Tests of one step each, their expected results copied from 95_test_vectors.md or worked out by hand from the
rule named; and a named witness for every statement with hypotheses. -/

namespace Sys2Proof.Tests

-- One theorem at a time: many kernel evaluations at once exhaust the memory that threads may take.
set_option Elab.async false

open Sys2Proof Sys2Proof.Machine

/-! ## Helpers -/

/-- The `n` bytes whose hexadecimal digits, in index order, are those of `w`. -/
def hex (n w : Nat) : List Byte := (List.range n).map (fun j => BitVec.ofNat 8 (w >>> (8 * (n - 1 - j))))

/-- The bytes 0, 1, ..., n − 1. -/
def upTo (n : Nat) : List Byte := (List.range n).map (BitVec.ofNat 8)

/-- A register of `n` bytes from a list. -/
def vec (n : Nat) (B : List Byte) : Vector Byte n := Vector.ofFn (fun i : Fin n => B.getD i.val 0)

/-- A buffer that holds `B` from index 0 on. -/
def mem (B : List Byte) : Memory := Memory.putBytes [] 0 B

/-- The input pattern of 95_test_vectors.md: KEY[j] = NONCE[j] = AD[j] = DIN[j] = j, with the lengths given. -/
def st (k a d : Nat) : State :=
  { State.reset with
    key := vec 20 (upTo k), keyLen := k, nonce := vec 16 (upTo 16), nonceLen := 16
    adLen := a, dLen := d, ad := mem (upTo a), din := mem (upTo d) }

/-- The same with text `B` and a tag, for DEC. -/
def stDec (k a : Nat) (B T : List Byte) : State :=
  { st k a B.length with din := mem B, tagIn := vec 16 T }

/-- A state with this in the host's script. -/
def told (e : HostEvent) (s : State) : State := { s with env := { s.env with inbox := [e] } }

/-- A state with capacities `ca` and `cd`. -/
def caps (ca cd : Nat) (s : State) : State :=
  { s with env := { s.env with params := { suggestedParams with adCap := some ca, dCap := some cd } } }

/-- A state with these constant tables in place of the spec's (R22). -/
def tabled (T : Tables) (s : State) : State :=
  { s with env := { s.env with params := { s.env.params with tables := T } } }

/-- Something read off the next state. -/
def ofNext {α : Type} (f : State → α) (o : Out) : Option α :=
  match o with
  | .next s => some (f s)
  | .fault _ => none
  | .refused _ => none

/-- STATUS, DOUT[0..OLEN), TAGOUT. -/
def results (s : State) : Nat × List Byte × List Byte := (statusValue s, memRead .dout 0 s.oLen s, s.tagOut.toList)

/-- STATUS and CMD. -/
def statusCmd (s : State) : Nat × Byte := (statusValue s, s.cmd)

/-- Z, ONES and A of 95_test_vectors.md. -/
def wordsZ : Words := ⟨0, 0, 0, 0, 0⟩
/-- ONES. -/
def wordsOnes : Words :=
  ⟨0xffffffffffffffff, 0xffffffffffffffff, 0xffffffffffffffff, 0xffffffffffffffff, 0xffffffffffffffff⟩
/-- A. -/
def wordsA : Words :=
  ⟨0x0123456789abcdef, 0xfedcba9876543210, 0x0f1e2d3c4b5a6978, 0x8796a5b4c3d2e1f0, 0xdeadbeefcafebabe⟩

/-! ## WellFormed: the round counts next to both bounds (R93) -/

theorem test_wf_perm_zero_refused : (Instr.perm 0).wellFormed = false := by decide
theorem test_wf_perm_thirteen_refused : (Instr.perm 13).wellFormed = false := by decide
theorem test_wf_perm_bounds : (Instr.perm 1).wellFormed = true ∧ (Instr.perm 12).wellFormed = true := by decide

/-! ## Decoding: every constructor by a word written out from R90 to R95, `op` then `arg` -/

theorem test_decode_perm : decode (0b0001#4 ++ 0b1100#4) = .legal (.perm 12) := by decide
theorem test_decode_enc128 : decode (0b0010#4 ++ 0b0000#4) = .legal .enc128 := by decide
theorem test_decode_enc128a : decode (0b0010#4 ++ 0b0001#4) = .legal .enc128a := by decide
theorem test_decode_enc80pq : decode (0b0010#4 ++ 0b0010#4) = .legal .enc80pq := by decide
theorem test_decode_dec128 : decode (0b0011#4 ++ 0b0000#4) = .legal .dec128 := by decide
theorem test_decode_dec128a : decode (0b0011#4 ++ 0b0001#4) = .legal .dec128a := by decide
theorem test_decode_dec80pq : decode (0b0011#4 ++ 0b0010#4) = .legal .dec80pq := by decide
theorem test_decode_hash : decode (0b0100#4 ++ 0b0000#4) = .legal .hash := by decide
theorem test_decode_hasha : decode (0b0100#4 ++ 0b0001#4) = .legal .hasha := by decide

/-- Rows F2 to F10: the words that fault. -/
theorem test_decode_illegal :
    ([0x00, 0x10, 0x1d, 0x1f, 0x23, 0x3f, 0x42, 0x50, 0xff, 0x2f] : List Byte).all (fun w => (decode w).instr?.isNone) := by
  decide

/-- R100: the three pseudo-instructions are words 0x1c, 0x16, 0x18. -/
theorem test_pseudo : encode .pa = 0x1c ∧ encode .pb6 = 0x16 ∧ encode .pb8 = 0x18 := by decide

/-- A mnemonic is the name of its row of the opcode table. -/
theorem test_mnemonics : Instr.enc80pq.mnemonic = "ENC.80PQ" ∧ (Instr.perm 3).mnemonic = "PERM" := by decide

/-- R92: the low nibble alone is the argument, so a table word of fewer than 8 bits has `op` 0. -/
theorem test_table_word : decodeTableWord 8 0x1c = some (.perm 12) ∧ decodeTableWord 8 0x150 = none := by decide

/-! ## The permutation (95_test_vectors.md section 2) -/

theorem test_pC : pC specTables 4 wordsA =
    ⟨0x0123456789abcdef, 0xfedcba9876543210, 0x0f1e2d3c4b5a69cc, 0x8796a5b4c3d2e1f0, 0xdeadbeefcafebabe⟩ := by
  decide +kernel

theorem test_pS : pS wordsA =
    ⟨0xa7e7e5e777736577, 0x26446424fedbacb9, 0x56147210caddbe99, 0xa8f9c8dbb4a18487, 0x796b1b4b3d2c5b4e⟩ := by
  decide +kernel

/-- The row that shows the direction and the pair of each word: bit 0 of every word set. -/
theorem test_pL_bit_zero : pL specTables ⟨1, 1, 1, 1, 1⟩ =
    ⟨0x0000201000000001, 0x0000000002000009, 0x8400000000000001, 0x0040800000000001, 0x0200000000800001⟩ := by
  decide +kernel

theorem test_pL : pL specTables wordsA =
    ⟨0xe2227bb3f3336aa2, 0x38d5c63fe5081be2, 0xe8ad43169fda3461, 0x8b4f03d6fc3874a1, 0xd4f59acf4a041114⟩ := by
  decide +kernel

theorem test_round : roundAt specTables 6 wordsOnes =
    ⟨0xffffffffffffffff, 0x000000012c000426, 0xa7ffffffffffff20, 0xda34ffffffffff69, 0xffffffffffffffff⟩ := by
  decide +kernel

/-- Section 6, a negative vector: the document's own rotation pairs give another permutation (90_conflicts.md C1). -/
theorem test_document_pairs : permute documentTables 12 wordsZ =
    ⟨0xf4c5f29a99315ac8, 0xd6643e920b6be42c, 0x7220f8fda6f76dc6, 0x62a80df8511deaa9, 0x8b19d70d15edf1c2⟩ := by
  decide +kernel

/-- Section 6: with the document's pairs as the machine's table, ENC.128 of nothing gives this tag. -/
theorem test_document_enc : ofNext results (exec .enc128 (tabled documentTables (st 16 0 0))) =
    some (0x0502, [], hex 16 0xc830ee5224d4b136b8093a8bf5cbf885) := by decide +kernel

/-- Section 6: and HASH of nothing this digest. -/
theorem test_document_hash : ofNext results (exec .hash (tabled documentTables (st 0 0 0))) =
    some (0x0502, hex 32 0x6fede39a9534abcd0952de46a0897e983ea4a4b0898a99e300ebc0886baa9d45, hex 16 0) := by
  decide +kernel

/-- Section 6: Ascon-80pq with the document's rate 16 and b = 8 (90_conflicts.md C2), the initial value kept. -/
theorem test_document_80pq :
    ofNext results (exec .enc80pq
      (tabled { specTables with v80pq := { specTables.v80pq with rate := .r16, b := 8 } } (st 20 0 0))) =
    some (0x0502, [], hex 16 0x3ebbfbdc038a103f5432e2ea546cb621) := by decide +kernel

/-! ## The commands (sections 2.5, 3.2, 3.4, 4.1): at most two vectors each -/

/-- `P(12)(A)`; STATUS 0x0002. -/
theorem test_perm_twelve : ofNext (fun t => (t.x, statusValue t, t.oLen)) (exec (.perm 12) { State.reset with x := wordsA }) =
    some (⟨0xd7f5c77b4d5d4824, 0xa0d380385ff3c6b3, 0x452fc36f19dbb7a0, 0xb494c643091a1669, 0xb222b716139be21c⟩, 2, 0) := by
  decide +kernel

/-- Row F27's command: PHASE stays Done, OLEN becomes 0, one round with the last constant. -/
theorem test_perm_one :
    ofNext (fun t => (t.x, statusValue t, t.oLen))
      (exec (.perm 1) { State.reset with x := ⟨1, 0, 0, 0, 0⟩, phase := .done, done := true, oLen := 32, cmd := 0x40 }) =
    some (⟨0x000944a00000004a, 0x000000009400021a, 0x53ffffffffffff90, 0x12a500000000004a, 0⟩, 0x0502, 0) := by
  decide +kernel

theorem test_enc128_4_11 : ofNext results (exec .enc128 (st 16 4 11)) =
    some (0x0502, hex 11 0x7763f8ba6ce91ed1684f01, hex 16 0x05c50fb633147f93027d24d68a66dcac) := by decide +kernel

/-- Whole multiples of the rate: an extra all-padding block on each side. -/
theorem test_enc128_8_8 : ofNext results (exec .enc128 (st 16 8 8)) =
    some (0x0502, hex 8 0x69ffee6f5505a489, hex 16 0xe897e5f141b2e4a2dad326085a79408a) := by decide +kernel

theorem test_enc128a_17_15 : ofNext results (exec .enc128a (st 16 17 15)) =
    some (0x0502, hex 15 0xbc26a071c86e16ad251fd2ad8d3139, hex 16 0x382808d9d51c8b899c5e71c42190c2a8) := by decide +kernel

theorem test_enc128a_16_16 : ofNext results (exec .enc128a (st 16 16 16)) =
    some (0x0502, hex 16 0x52499ac9c84323a4ae24eaeccf45c137, hex 16 0x316d7ab17724ba67a85ecd3c0457c459) := by
  decide +kernel

theorem test_enc80pq_0_0 : ofNext results (exec .enc80pq (st 20 0 0)) =
    some (0x0502, [], hex 16 0xabb688efa0b9d56b33277a2c97d2146b) := by decide +kernel

theorem test_enc80pq_15_17 : ofNext results (exec .enc80pq (st 20 15 17)) =
    some (0x0502, hex 17 0xcbcbe5e9529419990489d65ff2300ad917, hex 16 0x502e66da5f21c2fdd9540e7fff0ca9cd) := by
  decide +kernel

/-- Trace D1: the plaintext, VERIFIED 1, TAGOUT 0. -/
theorem test_dec128_verified :
    ofNext results (exec .dec128
      (stDec 16 4 (hex 11 0x7763f8ba6ce91ed1684f01) (hex 16 0x05c50fb633147f93027d24d68a66dcac))) =
    some (0x0506, upTo 11, hex 16 0) := by decide +kernel

/-- Trace D2: TAGIN[15] is 0xad instead of 0xac, so zeros and VERIFIED 0. -/
theorem test_dec128_rejected :
    ofNext results (exec .dec128
      (stDec 16 4 (hex 11 0x7763f8ba6ce91ed1684f01) (hex 16 0x05c50fb633147f93027d24d68a66dcad))) =
    some (0x0502, hex 11 0, hex 16 0) := by decide +kernel

theorem test_dec128a_verified :
    ofNext results (exec .dec128a
      (stDec 16 17 (hex 15 0xbc26a071c86e16ad251fd2ad8d3139) (hex 16 0x382808d9d51c8b899c5e71c42190c2a8))) =
    some (0x0506, upTo 15, hex 16 0) := by decide +kernel

/-- DIN[0] with its top bit flipped. -/
theorem test_dec128a_tampered :
    ofNext results (exec .dec128a
      (stDec 16 4 (hex 11 0x521bed6e930728bf2cf7bb) (hex 16 0x0d70856b7b38d0c3409fd87cfc2515ac))) =
    some (0x0502, hex 11 0, hex 16 0) := by decide +kernel

theorem test_dec80pq_verified :
    ofNext results (exec .dec80pq
      (stDec 20 4 (hex 11 0x8987022ae20dd3923df4d1) (hex 16 0x8e9fac9181f8c2b3d742aff9537c254b))) =
    some (0x0506, upTo 11, hex 16 0) := by decide +kernel

/-- TAGIN[0] with its top bit flipped. -/
theorem test_dec80pq_rejected :
    ofNext results (exec .dec80pq
      (stDec 20 4 (hex 11 0x8987022ae20dd3923df4d1) (hex 16 0x0e9fac9181f8c2b3d742aff9537c254b))) =
    some (0x0502, hex 11 0, hex 16 0) := by decide +kernel

/-- Row F19: KEYLEN 7 and NONCELEN 3 play no part and stay. -/
theorem test_hash_0 :
    ofNext (fun t => (results t, t.keyLen, t.nonceLen)) (exec .hash { State.reset with keyLen := 7, nonceLen := 3 }) =
    some ((0x0502, hex 32 0x7346bc14f036e87ae03d0997913088f5f68411434b3cf8b54fa796a80d251f91, hex 16 0), 7, 3) := by
  decide +kernel

theorem test_hash_8 : ofNext results (exec .hash (st 0 0 8)) =
    some (0x0502, hex 32 0xf4c6a44b29915d3d57cf928a18ec6226bb8dd6c1136acd24965f7e7780cd69cf, hex 16 0) := by
  decide +kernel

theorem test_hasha_3 : ofNext results (exec .hasha (st 0 0 3)) =
    some (0x0502, hex 32 0x6a51ea8b2467c6410338d2a27278b998a158dad4ea46d17ec3df920133628441, hex 16 0) := by
  decide +kernel

theorem test_hasha_9 : ofNext results (exec .hasha (st 0 0 9)) =
    some (0x0502, hex 32 0x7d3e9e36b5865a874dbc7f9373fb184fa722a94dd3ee04612b5363c949b5089b, hex 16 0) := by
  decide +kernel

/-! ## Micro-steps -/

/-- Trace E1: the names and BLK of its nine micro-steps. -/
theorem test_trace_e1 :
    (microTrace 20 (accepted .enc128 (st 16 4 11))).map (fun e => (e.step, e.blk)) =
    [(.spInit .v128, 0), (.spAdBegin, 0), (.spAdBlock .v128, 0), (.spDomSep, 1), (.spTextBlock .enc .v128, 0),
     (.spTextLast .enc .v128, 1), (.spFinal .v128, 0), (.spTag .enc, 1), (.spRelease, 2)] := by decide +kernel

/-- Trace E1 step 1, SP_INIT: the words and STATUS 0x0101. -/
theorem test_sp_init :
    (fun t => (t.x, statusValue t)) (spInit .v128 (accepted .enc128 (st 16 4 11))) =
    (⟨0xbc830fbef3a1651b, 0x487a66865036b909, 0xa031b0c5810c1cd6, 0xdd7ce72083702217, 0x9b17156ede557ce7⟩, 0x0101) := by
  decide +kernel

/-- Trace H1: the names of its eight micro-steps. -/
theorem test_trace_h1 :
    (microTrace 20 (accepted .hash State.reset)).map (·.step) =
    [.spHashInit .hash, .spHashBegin, .spHashBlock .hash, .spHashSqueeze .hash, .spHashSqueeze .hash,
     .spHashSqueeze .hash, .spHashSqueeze .hash, .spHashRelease] := by decide +kernel

/-- Row 32, 32 of section 3.2 for ENC.128: 16 steps and 78 rounds; for ENC.128A 12 and 64. -/
theorem test_counts :
    (microCount specTables (.aead .enc .v128) 32 32, roundCount specTables (.aead .enc .v128) 32 32) = (16, 78) ∧
      (microCount specTables (.aead .enc .v128a) 32 32, roundCount specTables (.aead .enc .v128a) 32 32) = (12, 64) ∧
      (microCount specTables (.hash .hasha) 0 32, roundCount specTables (.hash .hasha) 0 32) = (12, 80) := by decide

/-! ## Faults, the host interface and reset (section 5), one step each -/

/-- Rows F2 to F10: ILLEGAL_CMD, STATUS 0x0018, CMD not latched. -/
theorem test_illegal_faults :
    ofNext statusCmd (step (told (.write 0x00 0 0x1d) State.reset)) = some (0x0018, 0x00) ∧
      ofNext statusCmd (step (told (.command 0xff) State.reset)) = some (0x0018, 0x00) := by decide +kernel

/-- Row F11: 20 key bytes for ENC.128. KEYLEN reads 0 afterwards. -/
theorem test_bad_keylen :
    ofNext (fun t => (statusCmd t, hostRead 0x02 0 t)) (step (told (.command 0x20) (st 20 0 0))) =
    some ((0x0028, 0x00), 0) := by decide +kernel

/-- Rows F13, F14: a nonce of 12 bytes; with KEYLEN 15 the key's length is found wrong first. -/
theorem test_bad_noncelen :
    ofNext statusCmd (step (told (.command 0x21) { st 16 0 0 with nonceLen := 12 })) = some (0x0038, 0x00) ∧
      ofNext statusCmd (step (told (.command 0x30) { st 15 0 0 with nonceLen := 12 })) = some (0x0028, 0x00) := by
  decide +kernel

/-- Rows F16, F17, F18: a length of 65 with capacity 64. -/
theorem test_bad_len :
    ofNext statusCmd (step (told (.command 0x20) (caps 64 64 { st 16 0 0 with adLen := 65 }))) = some (0x0048, 0x00) ∧
      ofNext statusCmd (step (told (.command 0x40) (caps 64 64 { st 16 0 0 with dLen := 65 }))) = some (0x0048, 0x00) ∧
      ofNext statusCmd (step (told (.command 0x20) (caps 64 64 { st 16 0 0 with adLen := 65, nonceLen := 15 }))) =
        some (0x0038, 0x00) := by decide +kernel

/-- Row F24: with ERR = 1 a corrected retry and an illegal word are both ignored. -/
theorem test_faulted_ignores :
    ofNext statusCmd (step (told (.command 0x20) (faultEntry .badKeyLen (st 16 0 0)))) = some (0x0028, 0x00) ∧
      ofNext statusCmd (step (told (.write 0x00 0 0x00) (faultEntry .badKeyLen (st 16 0 0)))) = some (0x0028, 0x00) := by
  decide +kernel

/-- Row F23: after a completed HASH an illegal word faults; DONE still reads 1, CMD 0x40. -/
theorem test_fault_keeps_done :
    ofNext (fun t => (statusCmd t, hostRead 0x17 0 t))
      (step (told (.command 0x00) { State.reset with
        phase := .done, done := true, oLen := 32, cmd := 0x40, dout := mem (upTo 32) })) =
    some ((0x001a, 0x40), 0) := by decide +kernel

/-- Row F26: index 11 is beyond OLEN = 11, and OLEN = 4 hides what stands at index 4. -/
theorem test_dout_window :
    hostRead 0x17 11 { State.reset with oLen := 11, dout := mem (upTo 12) } = 0 ∧
      hostRead 0x17 10 { State.reset with oLen := 11, dout := mem (upTo 12) } = 10 ∧
      hostRead 0x17 4 { State.reset with oLen := 4, dout := mem (upTo 12) } = 0 := by decide +kernel

/-- Row F28. -/
theorem test_key_reads_zero :
    hostRead 0x11 15 (st 16 0 0) = 0 ∧ hostRead 0x02 0 (st 16 0 0) = 16 ∧
      hostWrite 0x01 0 0xffff State.reset = State.reset ∧ hostWrite 0x07 0 1 State.reset = State.reset ∧
      hostRead 0x18 0 State.reset = 0 := by decide +kernel

/-- A raw CMD write only accepts: STATUS 0x0001, x untouched (section 3.3). -/
theorem test_raw_accept :
    ofNext (fun t => (statusValue t, t.x)) (step (told (.write 0x00 0 0x20) { st 16 4 11 with x := wordsA })) =
    some (0x0001, wordsA) := by decide +kernel

/-- With BUSY = 1 a write to KEY waits in the script and the sequencer does SP_INIT (STATUS 0x0101); a STATUS read is
answered with 0x0001. -/
theorem test_busy_holds :
    ofNext (fun t => (statusValue t, t.env.inbox)) (step (told (.write 0x11 0 0xff) (accepted .enc128 (st 16 4 11)))) =
        some (0x0101, [.write 0x11 0 0xff]) ∧
      ofNext (fun t => (statusValue t, t.env.answers)) (step (told (.read 0x01 0) (accepted .enc128 (st 16 4 11)))) =
        some (0x0001, [0x0001]) := by decide +kernel

/-- Reset during a command: every register at its reset value. -/
theorem test_reset_busy :
    ofNext (fun t => (statusValue t, t.key, t.x, t.oLen)) (step (told .reset (spInit .v128 (accepted .enc128 (st 16 4 11))))) =
    some (0, Vector.replicate 20 0, wordsZ, 0) := by decide +kernel

/-- A command placed for the next step runs as the first after reset: HASH of the empty message. -/
theorem test_placed_hash : ofNext (fun t => memRead .dout 0 8 t) (step (State.reset.withFetchWord 8 0x40)) =
    some (hex 8 0x7346bc14f036e87a) := by decide +kernel

/-- The directives of R101: WR NONCE of two bytes is two writes and the length, WR TAGIN of one byte a write and no
length, and X has no length either. -/
theorem test_directive_wr :
    directiveEvents (.wr .nonce [0xaa, 0xbb]) State.reset =
        some [.write 0x12 0 0xaa, .write 0x12 1 0xbb, .write 0x03 0 2] ∧
      directiveEvents (.wr .tagIn [0xcc]) State.reset = some [.write 0x13 0 0xcc] ∧
      directiveEvents (.wrWord 4 7) State.reset = some [.write 0x10 4 7] ∧
      directiveEvents (.wrLen .dLen 5) State.reset = some [.write 0x05 0 5] := by decide

/-- The default of RD (R101): OLEN elements of DOUT, all sixteen of TAGOUT, all of a buffer with a capacity. -/
theorem test_directive_rd :
    directiveEvents (.rd .dout none) { State.reset with oLen := 2 } = some [.read 0x17 0, .read 0x17 1] ∧
      (directiveEvents (.rd .tagOut none) State.reset).map (·.length) = some 16 ∧
      (directiveEvents (.rd .ad none) (caps 3 4 State.reset)).map (·.length) = some 3 ∧
      directiveEvents (.rd .x (some 1)) State.reset = some [.read 0x10 0] ∧
      directiveEvents (.rd .ad none) State.reset = none := by decide

/-- The copies of R14 are numbered apart, so their unwritten bytes are each their own (R77, R238). -/
theorem test_copies_numbered : (resetCopies 3 suggestedParams).map (·.env.copy) = [0, 1, 2] := by decide

/-- With two copies the other is left alone. -/
theorem test_copies :
    (stepCopy 1 [State.reset, told (.write 0x00 0 0x00) State.reset]).map (fun l => l.map statusValue) =
    some [0x0000, 0x0018] := by decide +kernel

/-! ## Witnesses: for every statement with hypotheses, values that meet all of them together, at the bounds of each
clause -/

/-- DecodeInvertsEncode: PERM at both bounds. -/
theorem test_wit_decode_inverts :
    (Instr.perm 1).wellFormed = true ∧ (Instr.perm 12).wellFormed = true ∧ decode 0x1c = .legal (.perm 12) := by decide

/-- SubstitutionActsOnColumns, LinearLayerMixesBits: columns 0 and 63. -/
theorem test_wit_columns : 0 < 64 ∧ 63 < 64 ∧ column (pS ⟨0x8000000000000000, 0, 0, 0, 0⟩) 63 = 0x1e := by decide +kernel

/-- ScheduleCountsUpToEleven: no round and all twelve. -/
theorem test_wit_schedule : 0 ≤ 12 ∧ 12 ≤ 12 ∧ List.range' (12 - 6) 6 = [6, 7, 8, 9, 10, 11] := by decide

/-- ByteOrderIsBigEndian: eight bytes; bytes 0 and 39 of the state. -/
theorem test_wit_byte_order :
    (upTo 8).length = 8 ∧ 39 < 40 ∧ beWord (upTo 8) = 0x0001020304050607 ∧ wordsA.bytes[39]? = some 0xbe := by
  decide +kernel

/-- PaddingFillsTheBlock: no byte and r − 1 bytes, for both rates. -/
theorem test_wit_padding :
    ([] : List Byte).length < 8 ∧ (upTo 7).length < 8 ∧ (upTo 15).length < 16 ∧ pad 8 (upTo 3) = hex 8 0x0001028000000000 := by
  decide +kernel

/-- BlocksPartitionTheStream: a length that is a multiple of the rate, and one that is not. -/
theorem test_wit_blocks :
    0 < 8 ∧ 1 < 16 / 8 ∧ (16 ≠ 0) ∧ textBlocks 16 8 = 3 ∧ adBlocks 17 16 = 2 ∧ block .ad 4 8 0 (st 16 4 0) = upTo 4 := by
  decide +kernel

/-- LoadedStateIsIvKeyNonce: keys of 16 and 20 bytes; trace E4's loaded words. -/
theorem test_wit_loaded :
    (upTo 16).length = 16 ∧ (upTo 20).length = 20 ∧
      loadAead specTables .v80pq (upTo 20) (upTo 16) =
        ⟨0xa0400c0600010203, 0x0405060708090a0b, 0x0c0d0e0f10111213, 0x0001020304050607, 0x08090a0b0c0d0e0f⟩ := by
  decide +kernel

/-- KeyXorLandsInWords: keys of 16 and 20 bytes. -/
theorem test_wit_key_xor :
    (upTo 16).length = 16 ∧ (upTo 20).length = 20 ∧
      stateXorBytes 20 (upTo 20) wordsZ = ⟨0, 0, 0x00010203, 0x0405060708090a0b, 0x0c0d0e0f10111213⟩ := by decide +kernel

/-- LastBlockRestoresCiphertext: no byte and r − 1 bytes. -/
theorem test_wit_last_block : ([] : List Byte).length < 8 ∧ (upTo 7).length < 8 ∧ (upTo 15).length < 16 := by decide

/-- TagComparisonIsEquality: two tags that differ in the last bit. -/
theorem test_wit_tags :
    vec 16 (upTo 16) = vec 16 (upTo 16) ∧ vec 16 (upTo 15) ≠ vec 16 (upTo 16) ∧
      tagMask (vec 16 (upTo 15)) (vec 16 (upTo 16)) = 0 := by decide +kernel

/-- PermPermutesInPlace: a ready block; 1, 12, and the two words next to them. -/
theorem test_wit_perm :
    Ready State.reset ∧ (1 ≤ (1#4).toNat ∧ (12#4).toNat ≤ 12) ∧ ¬ (1 ≤ (0#4).toNat) ∧ ¬ ((13#4).toNat ≤ 12) :=
  ⟨⟨rfl, rfl⟩, by decide, by decide, by decide⟩

/-- EncCommandsEncrypt, DecCommandsDecrypt: a ready block for each variant, the last one with lengths equal to the
capacities. -/
theorem test_wit_aead_ready :
    AeadReady .v128 (st 16 4 11) ∧ AeadReady .v128a (st 16 0 0) ∧ AeadReady .v80pq (caps 33 64 (st 20 33 64)) :=
  ⟨⟨⟨rfl, rfl⟩, rfl, rfl, rfl, rfl⟩, ⟨⟨rfl, rfl⟩, rfl, rfl, rfl, rfl⟩, ⟨⟨rfl, rfl⟩, rfl, rfl, rfl, rfl⟩⟩

/-- HashCommandsDigest, DigestDependsOnMessageOnly: two ready blocks with one message and different keys, one of them
with DLEN equal to D_CAP. -/
theorem test_wit_hash_ready :
    HashReady (st 16 4 32) ∧ HashReady (caps 64 32 (st 0 0 32)) ∧
      (st 16 4 32).tables = (caps 64 32 (st 0 0 32)).tables ∧
      dinBytes (st 16 4 32) = dinBytes (caps 64 32 (st 0 0 32)) :=
  ⟨⟨⟨rfl, rfl⟩, rfl⟩, ⟨⟨rfl, rfl⟩, rfl⟩, rfl, by decide +kernel⟩

/-- CommandIsItsMicroSteps, CommandWorkIsCounted: a command of each family on a ready block that passes its checks. -/
theorem test_wit_micro :
    Ready (st 16 4 11) ∧ (st 16 4 11).blk = 0 ∧ checkCommand (.perm 12) (st 16 4 11) = none ∧
      checkCommand .enc128 (st 16 4 11) = none ∧ checkCommand .dec128a (st 16 4 11) = none ∧
      checkCommand .hasha (st 16 4 11) = none ∧ microCount specTables (opOf .enc128) 4 11 ≤ 9 ∧
      nextMicro (accepted (.perm 12) State.reset) = some (.permRun 12) ∧
      nextMicro { accepted .hash State.reset with phase := .finalizing, blk := 3 } = some (.spHashSqueeze .hash) :=
  ⟨⟨rfl, rfl⟩, rfl, by decide, by decide, by decide, by decide, by decide, by decide, by decide⟩

/-- OtherTagsAreRejected: the tag of trace E1 with its last bit flipped. -/
theorem test_wit_other_tag :
    vec 16 (hex 16 0x05c50fb633147f93027d24d68a66dcad) ≠ (encrypt specTables .v128 (upTo 16) (upTo 16) (upTo 4) (upTo 11)).2 := by
  decide +kernel

/-- DirectionsVisitTheSameStates: trace E1's block and trace D1's. -/
theorem test_wit_directions :
    let s := st 16 4 11
    let t := stDec 16 4 (hex 11 0x7763f8ba6ce91ed1684f01) []
    AeadReady .v128 s ∧ AeadReady .v128 t ∧ s.tables = t.tables ∧ keyBytes specTables .v128 s.key = keyBytes specTables .v128 t.key ∧ s.nonce = t.nonce ∧
      adBytes s = adBytes t ∧
      dinBytes t = (encrypt specTables .v128 (keyBytes specTables .v128 s.key) s.nonce.toList (adBytes s) (dinBytes s)).1 ∧ 1 ≤ 1 :=
  ⟨⟨⟨rfl, rfl⟩, rfl, rfl, rfl, rfl⟩, ⟨⟨rfl, rfl⟩, rfl, rfl, rfl, rfl⟩, rfl, by decide +kernel, by decide +kernel,
    by decide +kernel, by decide +kernel, le_refl 1⟩

/-- TraceIgnoresData: two commands in flight with different keys, texts and words. -/
theorem test_wit_trace :
    let s := accepted .enc128 (st 16 4 11)
    let t := { s with x := wordsA, key := vec 20 [], din := mem (hex 11 0), tagIn := vec 16 (upTo 3) }
    s.tables = t.tables ∧ s.busy = t.busy ∧ s.cmd = t.cmd ∧ s.phase = t.phase ∧ s.blk = t.blk ∧ s.rnd = t.rnd ∧
      s.adLen = t.adLen ∧ s.dLen = t.dLen ∧ s ≠ t :=
  ⟨rfl, rfl, rfl, rfl, rfl, rfl, rfl, rfl, by decide +kernel⟩

/-- AccessesStayInsideStreams: the last text block of ENC.128 with DLEN 11, the fourth squeeze of HASH with DLEN 0. -/
theorem test_wit_accesses :
    nextMicro { accepted .enc128 (st 16 4 11) with phase := .absorbingText, blk := 1 } = some (.spTextLast .enc .v128) ∧
      Access.mk .din false 8 3 ∈ accesses specTables (.spTextLast .enc .v128) 1 4 11 ∧
      Access.mk .dout true 8 3 ∈ accesses specTables (.spTextLast .enc .v128) 1 4 11 ∧
      nextMicro { accepted .enc128 (st 16 4 11) with phase := .absorbingAD } = some (.spAdBlock .v128) ∧
      Access.mk .ad false 0 4 ∈ accesses specTables (.spAdBlock .v128) 0 4 11 ∧
      nextMicro { accepted .hash State.reset with phase := .finalizing, blk := 3 } = some (.spHashSqueeze .hash) ∧
      Access.mk .dout true 24 8 ∈ accesses specTables (.spHashSqueeze .hash) 3 0 0 := by decide +kernel

/-- AccessesAreAllThereIs: the last text block of DLEN 11, which writes DOUT[8..11) and so neither 7 nor 11; and two
states that differ in DIN[0], which that step does not read. -/
theorem test_wit_accesses_all :
    let s := { accepted .enc128 (st 16 4 11) with blk := 1 }
    let t := { s with din := s.din.put 0 0xff }
    (∀ a ∈ accesses specTables (.spTextLast .enc .v128) 1 4 11, a.write = true →
      ¬ (a.first ≤ 7 ∧ 7 < a.first + a.count) ∧ ¬ (a.first ≤ 11 ∧ 11 < a.first + a.count)) ∧
      (s.tables = t.tables ∧ s.x = t.x ∧ s.key = t.key ∧ s.nonce = t.nonce ∧ s.tagIn = t.tagIn ∧ s.blk = t.blk ∧
        s.adLen = t.adLen ∧ s.dLen = t.dLen) ∧
      Access.mk .dout true 8 3 ∈ accesses specTables (.spTextLast .enc .v128) 1 4 11 ∧
      byteAt .din 0 s ≠ byteAt .din 0 t ∧
      ∀ a ∈ accesses specTables (.spTextLast .enc .v128) 1 4 11, a.write = false → ∀ j, a.first ≤ j → j < a.first + a.count →
        byteAt a.buf j s = byteAt a.buf j t := by
  refine ⟨by decide, ⟨rfl, rfl, rfl, rfl, rfl, rfl, rfl, rfl⟩, by decide, by decide +kernel, ?_⟩
  intro a ha hw j h1 h2
  have h : ∀ k < 3, byteAt .din (8 + k) { accepted .enc128 (st 16 4 11) with blk := 1 } =
      byteAt .din (8 + k)
        { accepted .enc128 (st 16 4 11) with blk := 1, din := (accepted .enc128 (st 16 4 11)).din.put 0 0xff } := by
    decide +kernel
  have ha' : a = ⟨.din, false, 8, 3⟩ ∨ a = ⟨.dout, true, 8, 3⟩ := by
    simpa [accesses, aeadParams, aeadRow, specTables, rateLength] using ha
  rcases ha' with rfl | rfl
  · have := h (j - 8) (by simp at h1 h2; omega)
    rwa [show 8 + (j - 8) = j from Nat.add_sub_cancel' h1] at this
  · cases hw

/-- AeadResultsDependOnOperandsOnly: ENC.128 on two ready blocks that differ in X, in KEY[16] and in the AD bytes past
ADLEN. -/
theorem test_wit_operands_only :
    let s := st 16 4 11
    let t := { s with x := wordsA, key := vec 20 (upTo 17), ad := mem (upTo 6) }
    AeadOf .v128 .enc128 ∧ AeadReady .v128 s ∧ AeadReady .v128 t ∧ s ≠ t ∧ s.tables = t.tables ∧
      keyBytes specTables .v128 s.key = keyBytes specTables .v128 t.key ∧ s.nonce = t.nonce ∧ s.tagIn = t.tagIn ∧ adBytes s = adBytes t ∧ dinBytes s = dinBytes t :=
  ⟨.inl rfl, ⟨⟨rfl, rfl⟩, rfl, rfl, rfl, rfl⟩, ⟨⟨rfl, rfl⟩, rfl, rfl, rfl, rfl⟩, by decide +kernel, rfl, by decide +kernel,
    rfl, rfl, by decide +kernel, by decide +kernel⟩

/-- PermFrame, AeadFrame, HashFrame: a next state without a fault and one with, for a command of each family. -/
theorem test_wit_frames :
    (∃ t, exec (.perm 1) (st 16 0 0) = .next t ∧ t.err = false) ∧
      (∃ t, exec (.perm 0) (st 16 0 0) = .next t ∧ t.err ≠ (st 16 0 0).err) ∧
      (∃ t, exec .dec80pq (st 20 4 11) = .next t ∧ t.err = (st 20 4 11).err) ∧
      (∃ t, exec .enc128a (st 20 4 11) = .next t ∧ t.err ≠ (st 20 4 11).err) ∧
      (∃ t, exec .hasha (st 0 0 9) = .next t ∧ t.err = (st 0 0 9).err) ∧
      (∃ t, exec .hash (caps 64 32 (st 0 0 33)) = .next t ∧ t.err ≠ (caps 64 32 (st 0 0 33)).err) :=
  ⟨⟨_, rfl, by decide +kernel⟩, ⟨_, rfl, by decide +kernel⟩, ⟨_, rfl, by decide +kernel⟩, ⟨_, rfl, by decide +kernel⟩,
    ⟨_, rfl, by decide +kernel⟩, ⟨_, rfl, by decide +kernel⟩⟩

/-- IllegalWordsFault: a ready block, an illegal word of each form. -/
theorem test_wit_illegal :
    Ready (told (.command 0x2f) State.reset) ∧ decode 0x2f = .illegal (.aeadVariant 15) ∧
      (told (.command 0x2f) State.reset).env.inbox = .command 0x2f :: [] ∧
      (told (.write 0x00 0 0x10) State.reset).env.inbox = .write 0x00 0 (0x10 : Byte).toNat :: [] :=
  ⟨⟨rfl, rfl⟩, by decide, rfl, rfl⟩

/-- WrongKeyLengthFaults: key lengths next to the right one; HASH on a ready block; a second ENC after a DEC. -/
theorem test_wit_wrong_key :
    AeadOf .v128 .dec128 ∧ Ready (st 15 0 0) ∧ (st 15 0 0).keyLen ≠ (aeadParams specTables .v128).k ∧
      (st 17 0 0).keyLen ≠ (aeadParams specTables .v128).k ∧ (∀ v, ¬ AeadOf v .hash) ∧ (st 0 0 0).errCode ≠ .badKeyLen ∧
      (∃ t, exec .hash (st 0 0 0) = .next t) ∧ AeadReady .v128 (st 16 0 0) ∧ ∃ t, exec .dec128 (st 16 0 0) = .next t := by
  refine ⟨.inr rfl, ⟨rfl, rfl⟩, by decide, by decide, ?_, by decide, ⟨_, rfl⟩, ⟨⟨rfl, rfl⟩, rfl, rfl, rfl, rfl⟩, ⟨_, rfl⟩⟩
  intro v h
  cases v <;> rcases h with h | h <;> exact absurd h (by decide)

/-- WrongNonceLengthFaults: nonce lengths 15 and 17. -/
theorem test_wit_wrong_nonce :
    AeadOf .v80pq .enc80pq ∧ Ready { st 20 0 0 with nonceLen := 15 } ∧
      ({ st 20 0 0 with nonceLen := 15 } : State).keyLen = (aeadParams specTables .v80pq).k ∧
      ({ st 20 0 0 with nonceLen := 15 } : State).nonceLen ≠ 16 ∧
      ({ st 20 0 0 with nonceLen := 17 } : State).nonceLen ≠ 16 :=
  ⟨.inl rfl, ⟨rfl, rfl⟩, rfl, by decide, by decide⟩

/-- LengthAboveCapacityFaults: lengths one above AD_CAP and D_CAP, equal to each, and an unbounded capacity. -/
theorem test_wit_bad_len :
    AeadOf .v128 .enc128 ∧ Ready (caps 64 64 (st 16 65 0)) ∧ (caps 64 64 (st 16 65 0)).keyLen = (aeadParams specTables .v128).k ∧
      (caps 64 64 (st 16 65 0)).nonceLen = 16 ∧
      ((caps 64 64 (st 16 65 0)).env.params.adCap = some 64 ∧ 64 < (caps 64 64 (st 16 65 0)).adLen) ∧
      ((caps 64 64 (st 16 0 65)).env.params.dCap = some 64 ∧ 64 < (caps 64 64 (st 16 0 65)).dLen) ∧
      (caps 64 64 (st 0 0 64)).env.params.dCap = some (caps 64 64 (st 0 0 64)).dLen ∧
      (st 0 0 64).env.params.dCap = none ∧
      (Ready (caps 64 63 (st 16 64 63)) ∧ (caps 64 63 (st 16 64 63)).keyLen = (aeadParams specTables .v128).k ∧
        (caps 64 63 (st 16 64 63)).env.params.adCap = some (caps 64 63 (st 16 64 63)).adLen ∧
        (caps 64 63 (st 16 64 63)).env.params.dCap = some (caps 64 63 (st 16 64 63)).dLen) ∧
      (st 16 65 65).env.params.adCap = none ∧ (st 16 65 65).env.params.dCap = none :=
  ⟨.inl rfl, ⟨rfl, rfl⟩, rfl, rfl, ⟨rfl, by decide⟩, ⟨rfl, by decide⟩, rfl, rfl, ⟨⟨rfl, rfl⟩, rfl, rfl, rfl⟩, rfl, rfl⟩

/-- FaultedBlockIgnoresCommands, OnlyResetClearsFault: a faulted block with a CMD write next in the script. -/
theorem test_wit_faulted :
    let s := told (.command 0x40) (faultEntry .badKeyLen State.reset)
    s.busy = false ∧ s.err = true ∧ s.env.inbox = .command 0x40 :: [] ∧ s.env.inbox.head? ≠ some .reset ∧
      ∃ t, step s = .next t :=
  ⟨rfl, rfl, rfl, by decide, ⟨_, rfl⟩⟩

/-- FaultsOnlyAtCommandWrites: the step that faults. -/
theorem test_wit_faulting :
    ∃ t, step (told (.command 0x00) State.reset) = .next t ∧ (told (.command 0x00) State.reset).err = false ∧
      t.err = true :=
  ⟨_, rfl, rfl, rfl⟩

/-- BusyHoldsTransactions: a command in flight, a STATUS read and a held write. -/
theorem test_wit_busy :
    let s := told (.read 0x01 0) (accepted .enc128 (st 16 4 11))
    let t := told (.write 0x02 0 7) (accepted .enc128 (st 16 4 11))
    s.busy = true ∧ s.env.inbox = .read 0x01 0 :: [] ∧ t.busy = true ∧ t.env.inbox = .write 0x02 0 7 :: [] ∧
      (HostEvent.write 0x02 0 7 ≠ .read 0x01 0 ∧ HostEvent.write 0x02 0 7 ≠ .reset ∧ HostEvent.write 0x02 0 7 ≠ .pause) ∧
      nextMicro t = some (.spInit .v128) :=
  ⟨rfl, rfl, rfl, rfl, by decide, by decide⟩

/-- RawCommandWriteAccepts: a sponge command and a PERM. -/
theorem test_wit_accept :
    Ready (told (.write 0x00 0 0x20) (st 16 4 11)) ∧
      (told (.write 0x00 0 0x20) (st 16 4 11)).env.inbox = .write 0x00 0 (0x20 : Byte).toNat :: [] ∧
      decode 0x20 = .legal .enc128 ∧ checkOperands (opOf .enc128) (st 16 4 11) = none ∧
      (told (.write 0x00 0 0x1c) State.reset).env.inbox = .write 0x00 0 (0x1c : Byte).toNat :: [] ∧
      decode 0x1c = .legal (.perm 12) ∧ checkOperands (opOf (.perm 12)) State.reset = none :=
  ⟨⟨rfl, rfl⟩, rfl, by decide, by decide, rfl, by decide, rfl⟩

/-- OperandWriteReadsBack: the first and the last element and the largest value of items of each width; KEY[19]. -/
theorem test_wit_operands :
    Item.x ∈ [Item.keyLen, .nonceLen, .adLen, .dLen, .x, .nonce, .tagIn, .ad, .din] ∧
      below 4 (itemCount State.reset.env.params .x) = true ∧ 2 ^ 64 - 1 < 2 ^ itemBits State.reset.env.params .x ∧
      below 0 (itemCount State.reset.env.params .keyLen) = true ∧
      2 ^ 32 - 1 < 2 ^ itemBits State.reset.env.params .keyLen ∧
      below 63 (itemCount (caps 64 64 State.reset).env.params .ad) = true ∧
      255 < 2 ^ itemBits State.reset.env.params .ad ∧ 19 < 20 := by decide +kernel

/-- HostWriteTouchesOneElement: a write to NONCE[3] against KEY, NONCE[4] and AD[3]. -/
theorem test_wit_one_element :
    (0x12 : Nat) ≠ 0x00 ∧ (0x12 : Nat) ≠ 0x11 ∧ ¬ ((0x12 : Nat) = 0x12 ∧ (4 : Nat) = 3) ∧
      ¬ ((0x15 : Nat) = 0x12 ∧ (3 : Nat) = 3) := by decide

/-- ForbiddenAccessesDoNothing: the first and last id of each reserved range; the first index past a count. -/
theorem test_wit_forbidden :
    itemOf 0x07 = none ∧ itemOf 0x0f = none ∧ itemOf 0x18 = none ∧ itemOf 0xff = none ∧
      itemCount State.reset.env.params .key = some 20 ∧ 20 ≤ 20 ∧
      itemCount (caps 64 64 State.reset).env.params .dout = some 64 := by decide

/-- OutputIsWindowed: the index OLEN and the one before it. -/
theorem test_wit_window :
    ({ State.reset with oLen := 11 } : State).oLen ≤ 11 ∧ 10 < ({ State.reset with oLen := 11 } : State).oLen ∧
      below 10 ({ State.reset with oLen := 11 } : State).env.params.dCap = true := by decide

/-- RejectedPlaintextIsNeverRead, KeyDoesNotPersist: trace D2's command ends with VERIFIED 0 and OLEN 11, and an ENC, a
fault, a HASH and a reset each meet their clause. -/
theorem test_wit_key_and_plaintext :
    ofNext (fun t => (t.verified, t.oLen)) (exec .dec128
      (stDec 16 4 (hex 11 0x7763f8ba6ce91ed1684f01) (hex 16 0x05c50fb633147f93027d24d68a66dcad))) = some (false, 11) ∧
      AeadOf .v128 .enc128 ∧ Ready (st 16 4 11) ∧ (∃ t, exec (.perm 13) (st 16 4 11) = .next t ∧ t.err = true) ∧
      (∃ t, exec (.perm 1) (st 16 4 11) = .next t ∧ t.err = (st 16 4 11).err) ∧ (∀ v, ¬ AeadOf v (.perm 1)) ∧
      (told .reset (st 16 4 11)).env.inbox.head? = some .reset := by
  refine ⟨by decide +kernel, .inl rfl, ⟨rfl, rfl⟩, ⟨_, rfl, rfl⟩, ⟨_, rfl, by decide +kernel⟩, ?_, rfl⟩
  intro v h
  cases v <;> rcases h with h | h <;> exact absurd h (by decide)

/-- ReadsHaveNoSideEffect: an idle read, and a STATUS read with BUSY = 1. -/
theorem test_wit_reads :
    (told (.read 0x10 4) State.reset).env.inbox = .read 0x10 4 :: [] ∧ (told (.read 0x10 4) State.reset).busy = false ∧
      (told (.read 0x01 0) (accepted .hash State.reset)).env.inbox = .read 0x01 0 :: [] ∧
      (told (.read 0x01 0) (accepted .hash State.reset)).busy = true :=
  ⟨rfl, rfl, rfl, rfl⟩

/-- ResetAtAnyTime: a reset with a command in flight. -/
theorem test_wit_reset :
    (told .reset (accepted .enc128 (st 16 4 11))).env.inbox = .reset :: [] ∧
      (told .reset (accepted .enc128 (st 16 4 11))).busy = true :=
  ⟨rfl, rfl⟩

/-- StepRunsTheDecodedCommand: a mnemonic next in the script, a table word, an empty script. -/
theorem test_wit_step :
    (told (.command 0x41) (st 0 0 9)).busy = false ∧ (told (.command 0x41) (st 0 0 9)).env.inbox = .command 0x41 :: [] ∧
      decode 0x41 = .legal .hasha ∧ decodeTableWord 8 0x41 = some .hasha ∧ (st 0 0 9).busy = false ∧
      (st 0 0 9).env.inbox = [] :=
  ⟨rfl, rfl, by decide, by decide, rfl, rfl⟩

/-- A DEC of two bytes between its comparison, which failed, and its release. -/
def rejected : State :=
  { accepted .dec128 (st 16 0 2) with phase := .finalizing, blk := 2, dout := mem [0, 0] }

/-- StepKeepsTheInvariant, HoldIsNeverPermanent: a command in flight that meets the invariant. -/
theorem test_wit_invariant : StateInv rejected ∧ rejected.busy = true := by
  refine ⟨⟨⟨by decide, nofun, nofun⟩, ⟨by decide +kernel, fun _ _ => rfl⟩, ⟨by decide +kernel, fun _ _ => rfl⟩,
    ⟨by decide +kernel, fun _ _ => rfl⟩, by decide, by decide, by decide, by decide, by decide, rfl, nofun, ?_, by decide,
    nofun, .inr ⟨.dec128, by decide⟩, nofun⟩, rfl⟩
  exact fun _ => ⟨rfl, rfl, rfl, ⟨.dec128, by decide, by decide, nofun⟩, by decide⟩

/-- StepKeepsPlaintextHidden: the same state meets the contract, and takes a step. -/
theorem test_wit_hidden : StateInv rejected ∧ PlaintextHidden rejected ∧ ∃ t, step rejected = .next t := by
  refine ⟨test_wit_invariant.1, ⟨nofun, ?_⟩, ⟨_, rfl⟩⟩
  intro _ _ _ _ _
  have h : ∀ j < 2, byteAt .dout j rejected = 0 := by decide +kernel
  exact h

/-- ConstantTablesNeverChange: a step of a machine with other tables than the spec's. -/
theorem test_wit_tables :
    ∃ t, step (tabled documentTables State.reset) = .next t ∧ (tabled documentTables State.reset).tables ≠ specTables :=
  ⟨_, rfl, by decide⟩

/-- CopiesDoNotInteract: the second of two copies takes a step. -/
theorem test_wit_copies : ∃ l, stepCopy 1 [State.reset, told .pause State.reset] = some l := ⟨_, rfl⟩

end Sys2Proof.Tests
end

/-! ## The transition table R132 as a relation

The rows of `select`, said once: every proof about the sequencer splits on `Row` and not on the nested conditions of
`selectAead` and `selectHash`. -/

namespace Sys2Proof.Machine

/-- A row of R132: the operation, the phase and the block index at which a micro-step is the next one. -/
inductive Row (T : Tables) (adLen dLen : Nat) : Op → Phase → Nat → MicroStep → Prop where
  | permRun (r : Nat) (phase : Phase) : Row T adLen dLen (.perm r) phase 0 (.permRun r)
  | spInit (d : Dir) (v : AeadVariant) : Row T adLen dLen (.aead d v) .uninitialized 0 (.spInit v)
  | spAdBegin (d : Dir) (v : AeadVariant) : Row T adLen dLen (.aead d v) .initialized 0 .spAdBegin
  | spAdBlock (d : Dir) (v : AeadVariant) (blk : Nat) (h : blk < adBlocks adLen (aeadParams T v).r) :
      Row T adLen dLen (.aead d v) .absorbingAD blk (.spAdBlock v)
  | spDomSep (d : Dir) (v : AeadVariant) :
      Row T adLen dLen (.aead d v) .absorbingAD (adBlocks adLen (aeadParams T v).r) .spDomSep
  | spTextBlock (d : Dir) (v : AeadVariant) (blk : Nat) (h : blk < dLen / (aeadParams T v).r) :
      Row T adLen dLen (.aead d v) .absorbingText blk (.spTextBlock d v)
  | spTextLast (d : Dir) (v : AeadVariant) :
      Row T adLen dLen (.aead d v) .absorbingText (dLen / (aeadParams T v).r) (.spTextLast d v)
  | spFinal (d : Dir) (v : AeadVariant) : Row T adLen dLen (.aead d v) .finalizing 0 (.spFinal v)
  | spTag (d : Dir) (v : AeadVariant) : Row T adLen dLen (.aead d v) .finalizing 1 (.spTag d)
  | spRelease (d : Dir) (v : AeadVariant) : Row T adLen dLen (.aead d v) .finalizing 2 .spRelease
  | spHashInit (h : HashVariant) : Row T adLen dLen (.hash h) .uninitialized 0 (.spHashInit h)
  | spHashBegin (h : HashVariant) : Row T adLen dLen (.hash h) .initialized 0 .spHashBegin
  | spHashBlock (h : HashVariant) (blk : Nat) (hb : blk < textBlocks dLen (hashParams T h).r) :
      Row T adLen dLen (.hash h) .absorbingText blk (.spHashBlock h)
  | spHashSqueeze (h : HashVariant) (blk : Nat) (hb : blk < 4) :
      Row T adLen dLen (.hash h) .finalizing blk (.spHashSqueeze h)
  | spHashRelease (h : HashVariant) : Row T adLen dLen (.hash h) .finalizing 4 .spHashRelease

section

variable {T : Tables} {adLen dLen blk : Nat} {o : Op} {phase : Phase} {m : MicroStep}

theorem Row.select_eq (row : Row T adLen dLen o phase blk m) : select T o phase blk adLen dLen = some m := by
  cases row with
  | spAdBlock d v _ h => simp [select, selectAead, h]
  | spTextBlock d v _ h => simp [select, selectAead, textBlocks, h]
  | spHashBlock v _ h => simp [select, selectHash, h]
  | spHashSqueeze v _ h => simp [select, selectHash, h]
  | _ => simp [select, selectAead, selectHash, textBlocks]

theorem row_of_selectAead {d : Dir} {v : AeadVariant} (h : selectAead T d v phase blk adLen dLen = some m) :
    Row T adLen dLen (.aead d v) phase blk m := by
  cases phase <;> simp only [selectAead, textBlocks, Nat.add_lt_add_iff_right, Nat.add_right_cancel_iff] at h
  case done => cases h
  all_goals split_ifs at h <;> subst_vars <;> cases h
  · exact .spInit d v
  · exact .spAdBegin d v
  · exact .spAdBlock d v blk ‹_›
  · exact .spDomSep d v
  · exact .spTextBlock d v blk ‹_›
  · exact .spTextLast d v
  · exact .spFinal d v
  · exact .spTag d v
  · exact .spRelease d v

theorem row_of_selectHash {v : HashVariant} (h : selectHash T v phase blk dLen = some m) :
    Row T adLen dLen (.hash v) phase blk m := by
  cases phase <;> simp only [selectHash] at h
  case absorbingAD | done => cases h
  all_goals split_ifs at h <;> subst_vars <;> cases h
  · exact .spHashInit v
  · exact .spHashBegin v
  · exact .spHashBlock v blk ‹_›
  · exact .spHashSqueeze v blk ‹_›
  · exact .spHashRelease v

theorem row_of_select (h : select T o phase blk adLen dLen = some m) : Row T adLen dLen o phase blk m := by
  cases o with
  | perm r =>
    simp only [select] at h
    split_ifs at h with hb
    subst hb; cases h
    exact .permRun r phase
  | aead d v => exact row_of_selectAead h
  | hash v => exact row_of_selectHash h

theorem select_eq_some_iff : select T o phase blk adLen dLen = some m ↔ Row T adLen dLen o phase blk m :=
  ⟨row_of_select, Row.select_eq⟩

/-- Every micro-step but the last of a command leaves PHASE and BLK where another row matches (R132). -/
theorem Row.next_isSome (row : Row T adLen dLen o phase blk m) (hc : completes m = false) :
    (select T o (phaseAfter T m phase blk dLen) (blkAfter T m blk dLen) adLen dLen).isSome = true := by
  suffices h : ∃ m', Row T adLen dLen o (phaseAfter T m phase blk dLen) (blkAfter T m blk dLen) m' by
    obtain ⟨m', h⟩ := h
    simp [h.select_eq]
  cases row with
  | permRun r => cases hc
  | spInit d v => exact ⟨_, .spAdBegin d v⟩
  | spAdBegin d v =>
    by_cases h : 0 < adBlocks adLen (aeadParams T v).r
    · exact ⟨_, .spAdBlock d v _ h⟩
    · exact ⟨_, (Nat.eq_zero_of_not_pos h) ▸ Row.spDomSep d v⟩
  | spAdBlock d v _ hb =>
    rcases Nat.lt_or_eq_of_le (Nat.succ_le_of_lt hb) with h | h
    · exact ⟨_, .spAdBlock d v _ h⟩
    · exact ⟨_, h ▸ Row.spDomSep d v⟩
  | spDomSep d v =>
    rcases Nat.eq_zero_or_pos (dLen / (aeadParams T v).r) with h | h
    · exact ⟨_, h ▸ Row.spTextLast d v⟩
    · exact ⟨_, .spTextBlock d v _ h⟩
  | spTextBlock d v _ hb =>
    rcases Nat.lt_or_eq_of_le (Nat.succ_le_of_lt hb) with h | h
    · exact ⟨_, .spTextBlock d v _ h⟩
    · exact ⟨_, h ▸ Row.spTextLast d v⟩
  | spTextLast d v => exact ⟨_, .spFinal d v⟩
  | spFinal d v => exact ⟨_, .spTag d v⟩
  | spTag d v => exact ⟨_, .spRelease d v⟩
  | spRelease d v => cases hc
  | spHashInit v => exact ⟨_, .spHashBegin v⟩
  | spHashBegin v => exact ⟨_, .spHashBlock v _ (Nat.succ_pos _)⟩
  | spHashBlock v _ hb =>
    by_cases h : blk + 1 < textBlocks dLen (hashParams T v).r
    · simp only [phaseAfter, blkAfter, if_pos h]; exact ⟨_, .spHashBlock v _ h⟩
    · simp only [phaseAfter, blkAfter, if_neg h]; exact ⟨_, .spHashSqueeze v 0 (by omega)⟩
  | spHashSqueeze v _ hb =>
    rcases Nat.lt_or_eq_of_le (Nat.succ_le_of_lt hb) with h | h
    · exact ⟨_, .spHashSqueeze v _ h⟩
    · exact ⟨_, h ▸ Row.spHashRelease v⟩
  | spHashRelease v => cases hc

/-- The last micro-step of a command leaves BLK at 0, and PHASE Done unless the command is PERM (R46). -/
theorem Row.completes_idle (row : Row T adLen dLen o phase blk m) (hc : completes m = true) :
    blkAfter T m blk dLen = 0 ∧
      (phaseAfter T m phase blk dLen = .done ∨ (∃ r, o = .perm r) ∧ phaseAfter T m phase blk dLen = phase) := by
  cases row with
  | permRun r => exact ⟨rfl, .inr ⟨⟨r, rfl⟩, rfl⟩⟩
  | spRelease d v => exact ⟨rfl, .inl rfl⟩
  | spHashRelease v => exact ⟨rfl, .inl rfl⟩
  | _ => cases hc

/-- PERM is one micro-step. -/
theorem Row.completes_perm {r : Nat} (row : Row T adLen dLen (.perm r) phase blk m) : completes m = true := by
  cases row; rfl

/-- An ENC or DEC ends with its release. -/
theorem Row.completes_aead {d : Dir} {v : AeadVariant} (row : Row T adLen dLen (.aead d v) phase blk m)
    (hc : completes m = true) : m = .spRelease ∧ phase = .finalizing ∧ blk = 2 := by
  cases row with
  | spRelease => exact ⟨rfl, rfl, rfl⟩
  | _ => cases hc

theorem Row.op_of_spTag {d : Dir} (row : Row T adLen dLen o phase blk (.spTag d)) : ∃ v, o = .aead d v := by
  cases row with
  | spTag _ v => exact ⟨v, rfl⟩

/-- An ENC or DEC is about to release its text after SP_TAG only. -/
theorem Row.spTag_of_after {d : Dir} {v : AeadVariant} (row : Row T adLen dLen (.aead d v) phase blk m)
    (hp : phaseAfter T m phase blk dLen = .finalizing) (hb : blkAfter T m blk dLen = 2) : m = .spTag d := by
  cases row with
  | spTag => rfl
  | spTextLast | spFinal | spRelease => cases hb
  | _ => cases hp

end

theorem nextMicro_eq_some_iff {s : State} {i : Instr} (h : decode s.cmd = .legal i) {m : MicroStep} :
    nextMicro s = some m ↔ Row s.tables s.adLen s.dLen (opOf i) s.phase s.blk m := by
  rw [nextMicro_eq h, select_eq_some_iff]

end Sys2Proof.Machine

/-! ## What a micro-step does to the results

KEYLEN, OLEN, VERIFIED and the listed bytes of DOUT after a micro-step; `perform_kept` and `perform_control` say the
rest. -/

namespace Sys2Proof.Machine

/-- OLEN after a micro-step (R118, R146, R151). -/
def oLenAfter (m : MicroStep) (oLen dLen : Nat) : Nat :=
  match m with
  | .permRun _ => 0
  | .spRelease => dLen
  | .spHashRelease => 32
  | _ => oLen

/-- The run of DOUT bytes that a micro-step writes (R67): first index and count. -/
def doutRange (T : Tables) (m : MicroStep) (blk dLen : Nat) : Nat × Nat :=
  match m with
  | .spTextBlock _ v => ((aeadParams T v).r * blk, (aeadParams T v).r)
  | .spTextLast _ v => ((aeadParams T v).r * blk, dLen % (aeadParams T v).r)
  | .spTag .dec => (0, dLen)
  | .spHashSqueeze _ => (8 * blk, 8)
  | _ => (0, 0)

/-- What a micro-step does to KEYLEN, OLEN, VERIFIED and DOUT. -/
structure Results (m : MicroStep) (s t : State) : Prop where
  keyLen : t.keyLen = if m = .spRelease then 0 else s.keyLen
  oLen : t.oLen = oLenAfter m s.oLen s.dLen
  verified : m ≠ .spTag .dec → t.verified = s.verified
  dout : ∃ B, B.length = (doutRange s.tables m s.blk s.dLen).2 ∧
    t.dout = s.dout.putBytes (doutRange s.tables m s.blk s.dLen).1 B

/-- A micro-step that leaves all of them as they are. -/
theorem Results.of_same {m : MicroStep} {s t : State} (hr : m ≠ .spRelease)
    (ho : oLenAfter m s.oLen s.dLen = s.oLen) (hd : doutRange s.tables m s.blk s.dLen = (0, 0))
    (hk : t.keyLen = s.keyLen) (hl : t.oLen = s.oLen) (hv : t.verified = s.verified) (ht : t.dout = s.dout) :
    Results m s t where
  keyLen := by rw [if_neg hr, hk]
  oLen := by rw [ho, hl]
  verified _ := hv
  dout := ⟨[], by rw [hd]; rfl, ht⟩

theorem perform_results (m : MicroStep) (s : State) : Results m s (perform m s) := by
  cases m with
  | permRun r => rw [perform, permRun_eq_min]; exact ⟨rfl, rfl, fun _ => rfl, [], rfl, rfl⟩
  | spInit v => rw [perform, spInit_eq]; exact .of_same nofun rfl rfl rfl rfl rfl rfl
  | spAdBegin => exact .of_same nofun rfl rfl rfl rfl rfl rfl
  | spAdBlock v => rw [perform, spAdBlock_eq]; exact .of_same nofun rfl rfl rfl rfl rfl rfl
  | spDomSep => exact .of_same nofun rfl rfl rfl rfl rfl rfl
  | spTextBlock d v =>
    rw [perform, spTextBlock_eq]
    exact ⟨rfl, rfl, fun _ => rfl, _, duplexBlock_length d (aead_r_cases _ v) (memRead_length ..) s.x, rfl⟩
  | spTextLast d v =>
    have hlt : s.dLen % (aeadParams s.tables v).r < (aeadParams s.tables v).r := Nat.mod_lt _ (aead_r_pos _ v)
    rw [perform, spTextLast_eq]
    refine ⟨rfl, rfl, fun _ => rfl, _, ?_, rfl⟩
    rw [duplexLast_length d (aead_r_cases _ v) (by rwa [memRead_length]), memRead_length]; rfl
  | spFinal v => rw [perform, spFinal_eq]; exact .of_same nofun rfl rfl rfl rfl rfl rfl
  | spTag d =>
    cases d with
    | enc => exact .of_same nofun rfl rfl rfl rfl rfl rfl
    | dec => exact ⟨rfl, rfl, fun h => absurd rfl h, _, by simp [doutRange], rfl⟩
  | spRelease => exact ⟨rfl, rfl, fun _ => rfl, [], rfl, rfl⟩
  | spHashInit v => rw [perform, spHashInit_eq]; exact .of_same nofun rfl rfl rfl rfl rfl rfl
  | spHashBegin => exact .of_same nofun rfl rfl rfl rfl rfl rfl
  | spHashBlock v =>
    by_cases hb : s.blk + 1 < textBlocks s.dLen (hashParams s.tables v).r
    · rw [perform, spHashBlock_full v s hb]; exact .of_same nofun rfl rfl rfl rfl rfl rfl
    · rw [perform, spHashBlock_last v s hb]; exact .of_same nofun rfl rfl rfl rfl rfl rfl
  | spHashSqueeze v => rw [perform, spHashSqueeze_eq]; exact ⟨rfl, rfl, fun _ => rfl, _, rfl, rfl⟩
  | spHashRelease => exact ⟨rfl, rfl, fun _ => rfl, [], rfl, rfl⟩

/-- OLEN is not touched before the command completes. -/
theorem oLenAfter_of_not_completes {m : MicroStep} (hc : completes m = false) (oLen dLen : Nat) :
    oLenAfter m oLen dLen = oLen := by
  cases m with
  | permRun | spRelease | spHashRelease => cases hc
  | _ => rfl

/-- OLEN after a micro-step of the table: as before, 0, a digest's length, or DLEN after a sponge command. -/
theorem Row.oLenAfter_cases {T : Tables} {adLen dLen blk : Nat} {o : Op} {phase : Phase} {m : MicroStep}
    (row : Row T adLen dLen o phase blk m) (oLen : Nat) :
    oLenAfter m oLen dLen = oLen ∨ oLenAfter m oLen dLen = 0 ∨ oLenAfter m oLen dLen = 32 ∨
      (∀ r, o ≠ .perm r) ∧ oLenAfter m oLen dLen = dLen := by
  cases row with
  | permRun r => exact .inr (.inl rfl)
  | spRelease d v => exact .inr (.inr (.inr ⟨nofun, rfl⟩))
  | spHashRelease v => exact .inr (.inr (.inl rfl))
  | _ => exact .inl rfl

/-- A micro-step of the table writes DOUT below 32 or, in a sponge command, below DLEN (R67). -/
theorem Row.doutRange_le {T : Tables} {adLen dLen blk : Nat} {o : Op} {phase : Phase} {m : MicroStep}
    (row : Row T adLen dLen o phase blk m) :
    (doutRange T m blk dLen).1 + (doutRange T m blk dLen).2 ≤ 32 ∨
      (∀ r, o ≠ .perm r) ∧ (doutRange T m blk dLen).1 + (doutRange T m blk dLen).2 ≤ dLen := by
  cases row with
  | spTextBlock d v _ h =>
    refine .inr ⟨nofun, ?_⟩
    calc (aeadParams T v).r * blk + (aeadParams T v).r = (aeadParams T v).r * (blk + 1) := rfl
      _ ≤ (aeadParams T v).r * (dLen / (aeadParams T v).r) := Nat.mul_le_mul_left _ h
      _ ≤ dLen := Nat.mul_div_le ..
  | spTextLast d v => exact .inr ⟨nofun, (Nat.div_add_mod ..).le⟩
  | spTag d v =>
    cases d with
    | enc => exact .inl (Nat.zero_le _)
    | dec => exact .inr ⟨nofun, (Nat.zero_add dLen).le⟩
  | spHashSqueeze v _ hb => exact .inl (show 8 * blk + 8 ≤ 32 by omega)
  | _ => exact .inl (Nat.zero_le _)

/-- After a comparison that failed, the mask has zeroed the whole text in DOUT (R145). -/
theorem byteAt_spTag_dec {s : State} (hv : (spTag .dec s).verified = false) {j : Nat} (hj : j < s.dLen) :
    byteAt .dout j (spTag .dec s) = 0 := by
  have hmask : tagMask (tagOf s.x) s.tagIn = 0x00 := if_neg (by simpa [spTag_dec] using hv)
  have hmasked : byteAt .dout j (spTag .dec s) = byteAt .dout j (maskDout 0x00 s) := by
    rw [← hmask]; exact byteAt_congr rfl rfl rfl
  rw [hmasked, maskDout, byteAt_doutWrite, dif_pos (by simpa using hj)]
  simp

/-! ## Commands change no operand -/

theorem MicroKept.refl (s : State) : MicroKept s s := ⟨rfl, rfl, rfl, rfl, rfl, rfl, rfl, rfl, rfl, rfl, rfl⟩

theorem MicroKept.trans {s t u : State} (h : MicroKept s t) (k : MicroKept t u) : MicroKept s u where
  nonce := k.nonce.trans h.nonce
  tagIn := k.tagIn.trans h.tagIn
  cmd := k.cmd.trans h.cmd
  err := k.err.trans h.err
  errCode := k.errCode.trans h.errCode
  nonceLen := k.nonceLen.trans h.nonceLen
  adLen := k.adLen.trans h.adLen
  dLen := k.dLen.trans h.dLen
  ad := k.ad.trans h.ad
  din := k.din.trans h.din
  env := k.env.trans h.env

theorem MicroKept.perform {s t : State} (h : MicroKept s t) (m : MicroStep) : MicroKept s (perform m t) :=
  h.trans (perform_kept m t)

theorem MicroKept.times {s t : State} (h : MicroKept s t) (n : Nat) (m : MicroStep) :
    MicroKept s (times n (Machine.perform m) t) := by
  induction n generalizing t with
  | zero => exact h
  | succ n ih => exact ih (h.perform m)

/-- The body of every command keeps what no micro-step changes. -/
theorem bodyOf_kept (i : Instr) (s : State) : MicroKept s (bodyOf i s) := by
  have aead (d : Dir) (v : AeadVariant) : MicroKept s (aeadBody d v s) :=
    ((((((((((MicroKept.refl s).perform (.spInit v)).perform .spAdBegin).times _ (.spAdBlock v)).perform .spDomSep).times _
      (.spTextBlock d v)).perform (.spTextLast d v)).perform (.spFinal v)).perform (.spTag d)).perform .spRelease)
  have hash (v : HashVariant) : MicroKept s (hashBody v s) :=
    ((((((MicroKept.refl s).perform (.spHashInit v)).perform .spHashBegin).times _ (.spHashBlock v)).times 4
      (.spHashSqueeze v)).perform .spHashRelease)
  cases i with
  | perm r => exact perform_kept (.permRun r.toNat) s
  | enc128 | enc128a | enc80pq | dec128 | dec128a | dec80pq => exact aead _ _
  | hash | hasha => exact hash _

/-! ## A whole command is its micro-steps (R133) -/

/-- `s` is a state of a command in flight: operation `o`, constant tables `T`, the two lengths that R132 reads, and the
phase and block index it stands at. -/
structure Awaits (T : Tables) (adLen dLen : Nat) (o : Op) (phase : Phase) (blk : Nat) (s : State) : Prop where
  busy : s.busy = true
  latched : ∃ i, decode s.cmd = .legal i ∧ opOf i = o
  tables : s.tables = T
  adLen : s.adLen = adLen
  dLen : s.dLen = dLen
  phase : s.phase = phase
  blk : s.blk = blk

theorem runMicro_trans {m n : Nat} {s t u : State} (h : runMicro m s = some t) (k : runMicro n t = some u) :
    runMicro (m + n) s = some u := by
  rw [runMicro_add, h, Option.bind_some, k]

section

variable {T : Tables} {adLen dLen blk : Nat} {o : Op} {phase : Phase} {m : MicroStep} {s : State}

theorem Awaits.nextMicro (h : Awaits T adLen dLen o phase blk s) (row : Row T adLen dLen o phase blk m) :
    nextMicro s = some m := by
  obtain ⟨-, ⟨i, hd, rfl⟩, rfl, rfl, rfl, rfl, rfl⟩ := h
  exact (nextMicro_eq_some_iff hd).mpr row

theorem Awaits.run_one (h : Awaits T adLen dLen o phase blk s) (row : Row T adLen dLen o phase blk m) :
    runMicro 1 s = some (perform m s) :=
  runMicro_succ h.busy (h.nextMicro row) rfl

/-- A micro-step that is not the last takes the command to the next row. -/
theorem Awaits.perform (h : Awaits T adLen dLen o phase blk s) (hc : completes m = false) :
    Awaits T adLen dLen o (phaseAfter T m phase blk dLen) (blkAfter T m blk dLen) (perform m s) := by
  have k := perform_kept m s
  have c := perform_control m s
  obtain ⟨hb, hl, rfl, rfl, rfl, rfl, rfl⟩ := h
  exact ⟨by rw [c.busy, hb, hc]; rfl, by rwa [k.cmd], by rw [State.tables, k.env], k.adLen, k.dLen, c.phase, c.blk⟩

theorem Awaits.advance (h : Awaits T adLen dLen o phase blk s) (row : Row T adLen dLen o phase blk m)
    (hc : completes m = false) :
    runMicro 1 s = some (Machine.perform m s) ∧
      Awaits T adLen dLen o (phaseAfter T m phase blk dLen) (blkAfter T m blk dLen) (Machine.perform m s) :=
  ⟨h.run_one row, h.perform hc⟩

/-- `n` turns of a micro-step that stays in its phase and counts BLK. -/
theorem Awaits.turns (h : Awaits T adLen dLen o phase blk s) (n : Nat) (hc : completes m = false)
    (turn : ∀ b, b < blk + n → Row T adLen dLen o phase b m ∧ phaseAfter T m phase b dLen = phase ∧
      blkAfter T m b dLen = b + 1) :
    runMicro n s = some (times n (Machine.perform m) s) ∧
      Awaits T adLen dLen o phase (blk + n) (times n (Machine.perform m) s) := by
  induction n generalizing s blk with
  | zero => exact ⟨rfl, h⟩
  | succ n ih =>
    obtain ⟨row, hp, hb⟩ := turn blk (by omega)
    have next := h.perform hc
    rw [hp, hb] at next
    obtain ⟨run, last⟩ := ih next (fun b hlt => turn b (by omega))
    refine ⟨runMicro_succ h.busy (h.nextMicro row) run, ?_⟩
    rwa [Nat.add_assoc, Nat.add_comm 1 n] at last

end

section

variable {T : Tables} {adLen dLen : Nat} {s : State}

/-- The micro-steps of an ENC or DEC, in the order of R132, end at its release. -/
theorem Awaits.runMicro_aead {d : Dir} {v : AeadVariant} (h : Awaits T adLen dLen (.aead d v) .uninitialized 0 s) :
    runMicro (adBlocks adLen (aeadParams T v).r + textBlocks dLen (aeadParams T v).r + 6) s =
      some (aeadBody d v s) := by
  obtain ⟨r1, h1⟩ := h.advance (.spInit d v) rfl
  obtain ⟨r2, h2⟩ := h1.advance (.spAdBegin d v) rfl
  obtain ⟨r3, h3⟩ := h2.turns (m := .spAdBlock v) (adBlocks adLen (aeadParams T v).r) rfl
    (fun b hb => ⟨.spAdBlock d v b (by simpa [blkAfter] using hb), rfl, rfl⟩)
  rw [show blkAfter T .spAdBegin _ dLen = 0 from rfl, Nat.zero_add] at h3
  obtain ⟨r4, h4⟩ := h3.advance (.spDomSep d v) rfl
  obtain ⟨r5, h5⟩ := h4.turns (m := .spTextBlock d v) (dLen / (aeadParams T v).r) rfl
    (fun b hb => ⟨.spTextBlock d v b (by simpa [blkAfter] using hb), rfl, rfl⟩)
  rw [show blkAfter T .spDomSep _ dLen = 0 from rfl, Nat.zero_add] at h5
  obtain ⟨r6, h6⟩ := h5.advance (.spTextLast d v) rfl
  obtain ⟨r7, h7⟩ := h6.advance (.spFinal d v) rfl
  obtain ⟨r8, h8⟩ := h7.advance (.spTag d v) rfl
  have r9 := h8.run_one (.spRelease d v)
  have run := runMicro_trans (runMicro_trans (runMicro_trans (runMicro_trans (runMicro_trans (runMicro_trans
    (runMicro_trans (runMicro_trans r1 r2) r3) r4) r5) r6) r7) r8) r9
  have count : adBlocks adLen (aeadParams T v).r + textBlocks dLen (aeadParams T v).r + 6 =
      1 + 1 + adBlocks adLen (aeadParams T v).r + 1 + dLen / (aeadParams T v).r + 1 + 1 + 1 + 1 := by
    unfold textBlocks; omega
  obtain ⟨-, -, rfl, rfl, rfl, -, -⟩ := h
  rw [count, run]
  rfl

/-- The micro-steps of a HASH or HASHA, in the order of R132, end at its release. -/
theorem Awaits.runMicro_hash {v : HashVariant} (h : Awaits T adLen dLen (.hash v) .uninitialized 0 s) :
    runMicro (textBlocks dLen (hashParams T v).r + 7) s = some (hashBody v s) := by
  obtain ⟨r1, h1⟩ := h.advance (.spHashInit v) rfl
  obtain ⟨r2, h2⟩ := h1.advance (.spHashBegin v) rfl
  obtain ⟨r3, h3⟩ := h2.turns (m := .spHashBlock v) (dLen / (hashParams T v).r) rfl (fun b hb => by
    have hlt : b < dLen / (hashParams T v).r := by simpa [blkAfter] using hb
    have hfull : b + 1 < textBlocks dLen (hashParams T v).r := Nat.succ_lt_succ hlt
    exact ⟨.spHashBlock v b (by omega), if_pos hfull, if_pos hfull⟩)
  rw [show blkAfter T .spHashBegin _ dLen = 0 from rfl, Nat.zero_add] at h3
  obtain ⟨r4, h4⟩ := h3.advance (.spHashBlock v _ (Nat.lt_succ_self _)) rfl
  have hlast : ¬ dLen / (hashParams T v).r + 1 < textBlocks dLen (hashParams T v).r := lt_irrefl _
  simp only [phaseAfter, blkAfter, if_neg hlast] at h4
  obtain ⟨r5, h5⟩ := h4.turns (m := .spHashSqueeze v) 4 rfl
    (fun b hb => ⟨.spHashSqueeze v b (by simpa using hb), rfl, rfl⟩)
  have r6 := h5.run_one (.spHashRelease v)
  have run := runMicro_trans (runMicro_trans (runMicro_trans (runMicro_trans (runMicro_trans r1 r2) r3) r4) r5) r6
  have count : textBlocks dLen (hashParams T v).r + 7 = 1 + 1 + dLen / (hashParams T v).r + 1 + 4 + 1 := by
    unfold textBlocks; omega
  obtain ⟨-, -, rfl, -, rfl, -, -⟩ := h
  rw [count, run]
  simp only [hashBody, textBlocks, times_succ (s.dLen / _)]
  rfl

end

/-! ## Acceptance -/

/-- The decoder reads back every command it can be given (R96). -/
theorem decode_encode {i : Instr} (h : i.wellFormed = true) : decode (encode i) = .legal i := by
  cases i with
  | perm r => revert r; decide
  | enc128 | enc128a | enc80pq | dec128 | dec128a | dec80pq | hash | hasha => decide

theorem checkCommand_eq_none_iff {i : Instr} {s : State} :
    checkCommand i s = none ↔ i.wellFormed = true ∧ checkOperands (opOf i) s = none := by
  unfold checkCommand
  split <;> simp_all

/-- PHASE after acceptance (R207). -/
def startingPhase (o : Op) (phase : Phase) : Phase :=
  match o with
  | .perm _ => phase
  | .aead _ _ | .hash _ => .uninitialized

/-- The state that acceptance leaves of a block with BLK = 0 (R207). -/
theorem accepted_eq (i : Instr) {s : State} (h : s.blk = 0) :
    accepted i s = { s with
      cmd := encode i, busy := true, done := false, verified := false, oLen := 0
      tagOut := Vector.replicate 16 0, phase := startingPhase (opOf i) s.phase, blk := 0 } := by
  unfold accepted startPhase
  cases opOf i with
  | perm r => simp only [startingPhase, ← h]
  | aead d v => rfl
  | hash v => rfl

/-- Acceptance leaves a command at its first row. -/
theorem accepted_awaits {i : Instr} {s : State} (hc : checkCommand i s = none) (hb : s.blk = 0) :
    Awaits s.tables s.adLen s.dLen (opOf i) (startingPhase (opOf i) s.phase) 0 (accepted i s) := by
  rw [accepted_eq i hb]
  exact ⟨rfl, ⟨i, decode_encode (checkCommand_eq_none_iff.mp hc).1, rfl⟩, rfl, rfl, rfl, rfl, rfl⟩

/-- From acceptance the sequencer runs a command's micro-steps and ends where its meaning does (R133). -/
theorem runMicro_accepted {i : Instr} {s : State} (hc : checkCommand i s = none) (hb : s.blk = 0) :
    runMicro (microCount s.tables (opOf i) s.adLen s.dLen) (accepted i s) = some (bodyOf i (accepted i s)) := by
  have h := accepted_awaits hc hb
  cases ho : opOf i with
  | perm r =>
    rw [ho] at h
    have hbody : bodyOf i = permRun r := by cases i <;> cases ho; rfl
    rw [hbody]
    exact h.run_one (.permRun r _)
  | aead d v => rw [ho] at h; rw [bodyOf_aead ho]; exact h.runMicro_aead
  | hash v => rw [ho] at h; rw [bodyOf_hash ho]; exact h.runMicro_hash

end Sys2Proof.Machine

/-! ## What every step keeps

A predicate that the reset, the host's script, its writes, acceptance, fault entry and every micro-step keep is kept by
every step: `StepInvariant.step`, the one induction over a whole command. -/

namespace Sys2Proof.Machine

/-- `P` is kept by each of the things a step is made of (44_host_interface.md R201, 41_sponge.md R130). -/
structure StepInvariant (P : State → Prop) : Prop where
  pop : ∀ s, P s → P (popEvent s)
  answer : ∀ s v, P s → P (answer v s)
  reset : ∀ s, P s → P (resetEvent s)
  operand : ∀ s it idx v, P s → s.busy = false → it ≠ .cmd → below idx (itemCount s.env.params it) = true →
    P (writeItem it idx v s)
  fault : ∀ s c, P s → s.busy = false → c ≠ .none → P (faultEntry c s)
  accept : ∀ s i, P s → Ready s → checkCommand i s = none → P (accepted i s)
  micro : ∀ s m, P s → s.busy = true → nextMicro s = some m → P (perform m s)
  idleBlk : ∀ s, P s → s.busy = false → s.blk = 0

section

variable {P : State → Prop}

theorem StepInvariant.runMicro (K : StepInvariant P) {n : Nat} {s t : State} (h : P s) (hr : runMicro n s = some t) :
    P t := by
  induction n generalizing s with
  | zero => cases hr; exact h
  | succ n ih =>
    unfold Machine.runMicro at hr
    split at hr
    · next hb =>
      split at hr
      · next m hm => exact ih (K.micro s m h hb hm) hr
      · cases hr
    · cases hr

theorem StepInvariant.exec (K : StepInvariant P) {i : Instr} {s t : State} (h : P s) (hb : s.busy = false)
    (he : exec i s = .next t) : P t := by
  rcases exec_cases he with ⟨-, rfl⟩ | ⟨-, c, hc, rfl⟩ | ⟨hr, hc, rfl⟩
  · exact h
  · exact K.fault s c h hb (checkCommand_ne_none hc)
  · exact K.runMicro (K.accept s i h hr hc) (runMicro_accepted hc (K.idleBlk s h hb))

theorem StepInvariant.hostWrite (K : StepInvariant P) {s : State} (id idx v : Nat) (h : P s) (hb : s.busy = false) :
    P (hostWrite id idx v s) := by
  rcases hostWrite_cases id idx v s with e | ⟨it, -, hbelow, e⟩ <;> rw [e]
  · exact h
  · by_cases hit : it = .cmd
    · subst hit
      rcases cmdWrite_cases (BitVec.ofNat 8 v) s with ⟨-, e⟩ | ⟨-, c, hc, e⟩ | ⟨herr, i, -, hc, e⟩ <;>
        simp only [writeItem, e]
      · exact h
      · exact K.fault s c h hb hc
      · exact K.accept s i h ⟨hb, herr⟩ hc
    · exact K.operand s it idx v h hb hit hbelow

/-- What the parts of a step keep, every step keeps. -/
theorem StepInvariant.step (K : StepInvariant P) {s t : State} (h : P s) (hs : step s = .next t) : P t := by
  have hpop := K.pop s h
  cases step_cases hs with
  | micro u m hb hu hm =>
    rcases hu with rfl | rfl
    · exact K.micro u m h hb hm
    · exact K.micro _ m hpop hb hm
  | statusRead => exact K.answer _ _ hpop
  | reset => exact K.reset _ hpop
  | empty => exact h
  | pause => exact hpop
  | read => exact K.answer _ _ hpop
  | write id idx v hb => exact K.hostWrite id idx v hpop hb
  | command w i _ hb _ _ he => exact K.exec hpop hb he
  | illegal w y _ hb _ _ he =>
    rcases runIllegal_cases he with ⟨-, rfl⟩ | ⟨-, rfl⟩
    · exact hpop
    · exact K.fault _ _ hpop hb nofun

end

/-- The machine takes a step wherever the sequencer, when it runs, finds a row (R132). -/
theorem step_next {s : State} (h : s.busy = true → (nextMicro s).isSome = true) : ∃ t, step s = .next t := by
  unfold step
  split
  · next hb =>
    obtain ⟨m, hm⟩ := Option.isSome_iff_exists.mp (h hb)
    have seq : ∀ u, nextMicro u = nextMicro s → ∃ t, sequencerStep u = .next t := fun u hu =>
      ⟨perform m u, by simp only [sequencerStep, hu, hm]⟩
    unfold busyStep
    split
    case h_2 => exact seq _ (nextMicro_popEvent s)
    case h_3 => exact ⟨_, rfl⟩
    case h_4 => split; exacts [⟨_, rfl⟩, seq s rfl]
    all_goals exact seq s rfl
  · unfold idleStep
    split
    case h_6 =>
      split
      · exact exec_next _ _
      · unfold runIllegal; split <;> exact ⟨_, rfl⟩
    all_goals exact ⟨_, rfl⟩

/-! ## The invariant of the machine -/

theorem BufferOk.nil (cap : Option Nat) : BufferOk [] cap := ⟨.nil, nofun⟩

theorem BufferOk.put {m : Memory} {cap : Option Nat} (h : BufferOk m cap) {idx : Nat} (hi : below idx cap = true)
    (v : Byte) : BufferOk (m.put idx v) cap := by
  refine ⟨Memory.wf_put h.1 idx v, fun c hc => ?_⟩
  rcases Memory.mem_put hc with hc | rfl
  · exact h.2 c hc
  · exact hi

theorem BufferOk.putBytes {m : Memory} {cap : Option Nat} (h : BufferOk m cap) {o : Nat} {B : List Byte}
    (hB : ∀ j < o + B.length, below j cap = true) : BufferOk (m.putBytes o B) cap := by
  refine ⟨Memory.wf_putBytes h.1 o B, fun c hc => ?_⟩
  rcases Memory.mem_putBytes hc with hc | hc
  · exact h.2 c hc
  · exact hB _ hc.2

/-- An index below a length that fits lies below the capacity. -/
theorem below_of_lt {len j : Nat} {cap : Option Nat} (h : exceeds len cap = false) (hj : j < len) :
    below j cap = true := by
  cases cap with
  | none => rfl
  | some c => simp only [exceeds, below, decide_eq_false_iff_not, decide_eq_true_eq] at h ⊢; omega

/-- No length 0 exceeds a capacity. -/
@[simp] theorem exceeds_zero (cap : Option Nat) : exceeds 0 cap = false := by
  cases cap <;> simp [exceeds]

/-- D_CAP has room for a digest (R14). -/
theorem ParamsOk.exceeds_digest {p : Params} (h : ParamsOk p) : exceeds 32 p.dCap = false := by
  cases hc : p.dCap with
  | none => rfl
  | some c => simpa [exceeds] using (h.dCap c hc).1

theorem ParamsOk.digest_lt {p : Params} (h : ParamsOk p) : 32 < 2 ^ p.lenw :=
  lt_of_lt_of_le (by decide : 32 < 2 ^ 6) (Nat.pow_le_pow_right (by decide) h.lenw)

/-- A sponge command in flight has a DLEN that fits (R207, R225). -/
theorem exceeds_dLen_of_checked {o : Op} {s : State} (ho : ∀ r, o ≠ .perm r) (h : checkOperands o s = none) :
    exceeds s.dLen s.env.params.dCap = false := by
  cases o with
  | perm r => exact absurd rfl (ho r)
  | aead d v => obtain ⟨-, -, -, hd⟩ := checkOperands_aead_none.mp h; exact hd
  | hash v => exact checkOperands_hash_none.mp h

/-- The reset values meet the invariant, whatever the script, the count of resets and the parameters allowed by R14. -/
theorem stateInv_reset {e : Env} (h : ParamsOk e.params) : StateInv { State.reset with env := e } where
  params := h
  ad := .nil _
  din := .nil _
  dout := .nil _
  keyLen := Nat.two_pow_pos _
  nonceLen := Nat.two_pow_pos _
  adLen := Nat.two_pow_pos _
  dLen := Nat.two_pow_pos _
  oLen := ⟨Nat.two_pow_pos _, exceeds_zero _⟩
  rnd := rfl
  idle _ := ⟨rfl, .inl rfl⟩
  running := nofun
  code := ⟨fun _ => rfl, fun _ => rfl⟩
  faulted := nofun
  cmd := .inl rfl
  verified := nofun

section

variable {s : State}

theorem Running.popEvent (h : Running s) : Running (popEvent s) := ⟨h.notErr, h.notDone, h.hidden, h.command, h.row⟩

theorem Running.answer (h : Running s) (v : Nat) : Running (answer v s) :=
  ⟨h.notErr, h.notDone, h.hidden, h.command, h.row⟩

theorem StateInv.popEvent (h : StateInv s) : StateInv (popEvent s) :=
  { h with running := fun hb => (h.running hb).popEvent }

theorem StateInv.answer (h : StateInv s) (v : Nat) : StateInv (answer v s) :=
  { h with running := fun hb => (h.running hb).answer v }

theorem StateInv.writeItem (h : StateInv s) (hb : s.busy = false) {it : Item} (hit : it ≠ .cmd) {idx : Nat}
    (hi : below idx (itemCount s.env.params it) = true) (v : Nat) : StateInv (writeItem it idx v s) := by
  have width (n : Nat) : n % 2 ^ s.env.params.lenw < 2 ^ s.env.params.lenw := Nat.mod_lt _ (Nat.two_pow_pos _)
  have still (t : State) (hk : t.busy = s.busy) : t.busy = true → Running t := by rw [hk, hb]; nofun
  cases it with
  | cmd => exact absurd rfl hit
  | status | oLen | tagOut | dout => exact h
  | keyLen => exact { h with keyLen := width v, running := still _ rfl }
  | nonceLen => exact { h with nonceLen := width v, running := still _ rfl }
  | adLen => exact { h with adLen := width v, running := still _ rfl }
  | dLen => exact { h with dLen := width v, running := still _ rfl }
  | x | key | nonce | tagIn => exact { h with running := still _ rfl }
  | ad => exact { h with ad := h.ad.put hi _, running := still _ rfl }
  | din => exact { h with din := h.din.put hi _, running := still _ rfl }

theorem StateInv.faultEntry (h : StateInv s) (hb : s.busy = false) {c : ErrCode} (hc : c ≠ .none) :
    StateInv (faultEntry c s) :=
  { h with
    keyLen := Nat.two_pow_pos _
    oLen := ⟨Nat.two_pow_pos _, exceeds_zero _⟩
    idle := fun _ => ⟨(h.idle hb).1, .inl rfl⟩
    running := fun hb' => absurd (hb.symm.trans hb') nofun
    code := ⟨nofun, fun e => absurd e hc⟩
    faulted := fun _ => ⟨rfl, rfl, rfl, rfl⟩
    verified := nofun }

theorem startingPhase_perm {o : Op} {r : Nat} (h : o = .perm r) (phase : Phase) : startingPhase o phase = phase := by
  subst h; rfl

/-- Every command has a first row (R132). -/
theorem select_start (T : Tables) (o : Op) (phase : Phase) (adLen dLen : Nat) :
    (select T o (startingPhase o phase) 0 adLen dLen).isSome = true := by
  cases o with
  | perm r => simp [Row.select_eq (.permRun r _)]
  | aead d v => simp [startingPhase, Row.select_eq (.spInit d v)]
  | hash v => simp [startingPhase, Row.select_eq (.spHashInit v)]

theorem nextMicro_accepted {i : Instr} (hwf : i.wellFormed = true) (hb : s.blk = 0) :
    (nextMicro (accepted i s)).isSome = true := by
  have hcmd : (accepted i s).cmd = encode i := by rw [accepted_eq i hb]
  rw [nextMicro_eq (hcmd ▸ decode_encode hwf), accepted_eq i hb]
  exact select_start ..

theorem StateInv.accepted (h : StateInv s) (hr : Ready s) {i : Instr} (hc : checkCommand i s = none) :
    StateInv (accepted i s) := by
  obtain ⟨hb, herr⟩ := hr
  obtain ⟨hblk, hphase⟩ := h.idle hb
  obtain ⟨hwf, hops⟩ := checkCommand_eq_none_iff.mp hc
  have hdec := decode_encode hwf
  have hrow := nextMicro_accepted hwf hblk
  rw [accepted_eq i hblk] at hrow ⊢
  refine { h with
    oLen := ⟨Nat.two_pow_pos _, exceeds_zero _⟩
    idle := nofun
    running := fun _ => ⟨herr, rfl, rfl, ⟨i, hdec, ?_, ?_⟩, hrow⟩
    faulted := fun e => absurd (herr.symm.trans e) nofun
    cmd := .inr ⟨i, hdec⟩
    verified := nofun }
  · rw [← hops]; exact checkOperands_congr rfl rfl rfl rfl rfl
  · intro r ho; simpa only [startingPhase_perm ho] using hphase

/-! ### A micro-step keeps the invariant -/

section

variable {m : MicroStep}

/-- The row at which a running block of the invariant stands, with the command it runs. -/
theorem StateInv.row (h : StateInv s) (hb : s.busy = true) (hm : nextMicro s = some m) :
    ∃ i, decode s.cmd = .legal i ∧ checkOperands (opOf i) s = none ∧
      (∀ r, opOf i = .perm r → s.phase = .uninitialized ∨ s.phase = .done) ∧
      Row s.tables s.adLen s.dLen (opOf i) s.phase s.blk m := by
  obtain ⟨i, hd, hc, hp⟩ := (h.running hb).command
  exact ⟨i, hd, hc, hp, (nextMicro_eq_some_iff hd).mp hm⟩

theorem StateInv.perform_dout (h : StateInv s) (hb : s.busy = true) (hm : nextMicro s = some m) :
    BufferOk (perform m s).dout s.env.params.dCap := by
  obtain ⟨i, -, hc, -, row⟩ := h.row hb hm
  obtain ⟨B, hlen, hdout⟩ := (perform_results m s).dout
  rw [hdout]
  refine h.dout.putBytes fun j hj => ?_
  rw [hlen] at hj
  rcases row.doutRange_le with hle | ⟨ho, hle⟩
  · exact below_of_lt h.params.exceeds_digest (hj.trans_le hle)
  · exact below_of_lt (exceeds_dLen_of_checked ho hc) (hj.trans_le hle)

theorem StateInv.perform_oLen (h : StateInv s) (hb : s.busy = true) (hm : nextMicro s = some m) :
    (perform m s).oLen < 2 ^ s.env.params.lenw ∧ exceeds (perform m s).oLen s.env.params.dCap = false := by
  obtain ⟨i, -, hc, -, row⟩ := h.row hb hm
  rw [(perform_results m s).oLen]
  rcases row.oLenAfter_cases s.oLen with e | e | e | ⟨ho, e⟩ <;> rw [e]
  · exact h.oLen
  · exact ⟨Nat.two_pow_pos _, exceeds_zero _⟩
  · exact ⟨h.params.digest_lt, h.params.exceeds_digest⟩
  · exact ⟨h.dLen, exceeds_dLen_of_checked ho hc⟩

theorem StateInv.perform_idle (h : StateInv s) (hb : s.busy = true) (hm : nextMicro s = some m)
    (hc : completes m = true) :
    (perform m s).blk = 0 ∧ ((perform m s).phase = .uninitialized ∨ (perform m s).phase = .done) := by
  obtain ⟨i, -, -, hperm, row⟩ := h.row hb hm
  obtain ⟨hblk, hphase⟩ := row.completes_idle hc
  rw [(perform_control m s).blk, (perform_control m s).phase]
  refine ⟨hblk, ?_⟩
  rcases hphase with e | ⟨⟨r, ho⟩, e⟩ <;> rw [e]
  · exact .inr rfl
  · exact hperm r ho

theorem StateInv.perform_running (h : StateInv s) (hb : s.busy = true) (hm : nextMicro s = some m)
    (hc : completes m = false) : Running (perform m s) := by
  obtain ⟨i, hd, hops, -, row⟩ := h.row hb hm
  have k := perform_kept m s
  have c := perform_control m s
  have res := perform_results m s
  have run := h.running hb
  have hkeyLen : (perform m s).keyLen = s.keyLen := by
    rw [res.keyLen, if_neg (by rintro rfl; cases hc)]
  have hdec : decode (perform m s).cmd = .legal i := by rw [k.cmd, hd]
  refine ⟨k.err.trans run.notErr, by rw [c.done, run.notDone, hc]; rfl, ?_, ⟨i, hdec, ?_, ?_⟩, ?_⟩
  · rw [res.oLen, oLenAfter_of_not_completes hc, run.hidden]
  · rw [← hops]; exact checkOperands_congr hkeyLen k.nonceLen k.adLen k.dLen (by rw [k.env])
  · intro r ho
    rw [ho] at row
    exact absurd row.completes_perm (by simp [hc])
  · rw [nextMicro_eq hdec, State.tables, k.env, k.adLen, k.dLen, c.phase, c.blk]
    exact row.next_isSome hc

theorem StateInv.perform_verified (h : StateInv s) (hb : s.busy = true) (hm : nextMicro s = some m)
    (hv : (perform m s).verified = true) : LatchedDec s := by
  obtain ⟨i, hd, -, -, row⟩ := h.row hb hm
  by_cases e : m = .spTag .dec
  · subst e
    obtain ⟨v, ho⟩ := row.op_of_spTag
    exact ⟨i, v, hd, ho⟩
  · exact h.verified (by rwa [← (perform_results m s).verified e])

theorem StateInv.perform (h : StateInv s) (hb : s.busy = true) (hm : nextMicro s = some m) :
    StateInv (perform m s) := by
  have k := perform_kept m s
  have c := perform_control m s
  have hbusy : (Machine.perform m s).busy = !completes m := by rw [c.busy, hb, Bool.true_and]
  have notErr : (Machine.perform m s).err = false := k.err.trans (h.running hb).notErr
  have e : (Machine.perform m s).env = s.env := k.env
  exact {
    params := by rw [e]; exact h.params
    ad := by rw [e, k.ad]; exact h.ad
    din := by rw [e, k.din]; exact h.din
    dout := by rw [e]; exact h.perform_dout hb hm
    keyLen := by rw [e, (perform_results m s).keyLen]; split; exacts [Nat.two_pow_pos _, h.keyLen]
    nonceLen := by rw [e, k.nonceLen]; exact h.nonceLen
    adLen := by rw [e, k.adLen]; exact h.adLen
    dLen := by rw [e, k.dLen]; exact h.dLen
    oLen := by rw [e]; exact h.perform_oLen hb hm
    rnd := perform_rnd m h.rnd
    idle := fun hb' => h.perform_idle hb hm (by simpa [hbusy] using hb')
    running := fun hb' => h.perform_running hb hm (by simpa [hbusy] using hb')
    code := by rw [k.err, k.errCode]; exact h.code
    faulted := fun herr => absurd (notErr.symm.trans herr) nofun
    cmd := by rw [k.cmd]; exact h.cmd
    verified := fun hv => by rw [k.cmd]; exact h.perform_verified hb hm hv }

end

end

theorem stateInv_stepInvariant : StepInvariant StateInv where
  pop _ h := h.popEvent
  answer _ v h := h.answer v
  reset _ h := stateInv_reset h.params
  operand _ _ _ v h hb hit hi := h.writeItem hb hit hi v
  fault _ _ h hb hc := h.faultEntry hb hc
  accept _ _ h hr hc := h.accepted hr hc
  micro _ _ h hb hm := h.perform hb hm
  idleBlk _ h hb := (h.idle hb).1

/-- Settles O55: each part of a step keeps the invariant, and a running block of the invariant has a row. -/
theorem stepKeepsTheInvariant : Obligations.StepKeepsTheInvariant := by
  intro s h
  obtain ⟨t, ht⟩ := step_next fun hb => (h.running hb).row
  exact ⟨t, ht, stateInv_stepInvariant.step h ht⟩

end Sys2Proof.Machine

/-! ## The contract on rejected plaintext -/

namespace Sys2Proof.Machine

section

variable {s : State}

/-- A block that releases nothing and runs nothing meets the contract. -/
theorem PlaintextHidden.of_idle_empty (hb : s.busy = false) (ho : s.oLen = 0) : PlaintextHidden s where
  released _ _ _ j hj := absurd hj (by rw [ho]; exact Nat.not_lt_zero j)
  compared hb' := absurd (hb.symm.trans hb') nofun

/-- The contract of an idle block is about CMD, VERIFIED, OLEN and the bytes of DOUT only. -/
theorem PlaintextHidden.of_idle_same {t : State} (h : PlaintextHidden s) (hs : s.busy = false) (hb : t.busy = false)
    (hc : t.cmd = s.cmd) (hv : t.verified = s.verified) (ho : t.oLen = s.oLen) (hd : t.dout = s.dout)
    (he : t.env = s.env) : PlaintextHidden t where
  released _ hl hv' j hj := by
    have same : byteAt .dout j t = byteAt .dout j s := byteAt_congr hd (by rw [he]) (by rw [he])
    rw [same]
    exact h.released hs (by rwa [LatchedDec, hc] at hl) (hv ▸ hv') j (ho ▸ hj)
  compared hb' := absurd (hb.symm.trans hb') nofun

theorem PlaintextHidden.popEvent (h : PlaintextHidden s) : PlaintextHidden (popEvent s) := ⟨h.released, h.compared⟩

theorem PlaintextHidden.answer (h : PlaintextHidden s) (v : Nat) : PlaintextHidden (answer v s) :=
  ⟨h.released, h.compared⟩

theorem PlaintextHidden.writeItem (h : PlaintextHidden s) (hb : s.busy = false) {it : Item} (hit : it ≠ .cmd)
    (idx v : Nat) : PlaintextHidden (writeItem it idx v s) := by
  cases it with
  | cmd => exact absurd rfl hit
  | status | oLen | tagOut | dout => exact h
  | keyLen | nonceLen | adLen | dLen | x | key | nonce | tagIn | ad | din =>
    exact h.of_idle_same hb hb rfl rfl rfl rfl rfl

/-- A command that has just been accepted has compared nothing. -/
theorem PlaintextHidden.accepted (hb : s.blk = 0) (i : Instr) : PlaintextHidden (accepted i s) := by
  rw [accepted_eq i hb]
  exact { released := nofun, compared := fun _ _ _ _ hblk => absurd hblk (Nat.zero_ne_add_one 1) }

/-- A micro-step keeps the contract: SP_TAG zeroes the text of a rejected DEC, SP_RELEASE shows it, and no other
micro-step of a DEC ends before or after the release. -/
theorem PlaintextHidden.perform (h : PlaintextHidden s) (hb : s.busy = true) {m : MicroStep}
    (hm : nextMicro s = some m) : PlaintextHidden (perform m s) := by
  have k := perform_kept m s
  have c := perform_control m s
  have hbusy : (Machine.perform m s).busy = !completes m := by rw [c.busy, hb, Bool.true_and]
  have row : LatchedDec (Machine.perform m s) →
      LatchedDec s ∧ ∃ v, Row s.tables s.adLen s.dLen (.aead .dec v) s.phase s.blk m := by
    intro hl
    rw [LatchedDec, k.cmd] at hl
    obtain ⟨i, v, hd, ho⟩ := hl
    exact ⟨⟨i, v, hd, ho⟩, v, ho ▸ (nextMicro_eq_some_iff hd).mp hm⟩
  constructor
  · intro hb' hl hv j hj
    obtain ⟨hdec, v, row⟩ := row hl
    obtain ⟨rfl, hphase, hblk⟩ := row.completes_aead (by simpa [hbusy] using hb')
    have same : byteAt .dout j (spRelease s) = byteAt .dout j s := byteAt_congr rfl rfl rfl
    exact same.trans (h.compared hb hdec hv hphase hblk j hj)
  · intro _ hl hv hphase hblk j hj
    obtain ⟨-, v, row⟩ := row hl
    obtain rfl := row.spTag_of_after (c.phase ▸ hphase) (c.blk ▸ hblk)
    exact byteAt_spTag_dec hv hj

end

theorem plaintextHidden_stepInvariant : StepInvariant fun s => StateInv s ∧ PlaintextHidden s where
  pop _ h := ⟨h.1.popEvent, h.2.popEvent⟩
  answer _ v h := ⟨h.1.answer v, h.2.answer v⟩
  reset _ h := ⟨stateInv_reset h.1.params, .of_idle_empty rfl rfl⟩
  operand _ _ idx v h hb hit hi := ⟨h.1.writeItem hb hit hi v, h.2.writeItem hb hit idx v⟩
  fault _ _ h hb hc := ⟨h.1.faultEntry hb hc, .of_idle_empty hb rfl⟩
  accept _ i h hr hc := ⟨h.1.accepted hr hc, .accepted (h.1.idle hr.1).1 i⟩
  micro _ _ h hb hm := ⟨h.1.perform hb hm, h.2.perform hb hm⟩
  idleBlk _ h hb := (h.1.idle hb).1

/-- Settles O56: each part of a step keeps the contract together with the invariant. -/
theorem stepKeepsPlaintextHidden : Obligations.StepKeepsPlaintextHidden := fun _ _ hi hp hs =>
  (plaintextHidden_stepInvariant.step ⟨hi, hp⟩ hs).2

/-! ## What the host reads -/

theorem byteAt_aeadBody_dec {v : AeadVariant} {s : State} (hv : (aeadBody .dec v s).verified = false) {j : Nat}
    (hj : j < (aeadBody .dec v s).oLen) : byteAt .dout j (aeadBody .dec v s) = 0 := by
  simp only [aeadBody, spRelease_verified, spRelease_oLen] at hv hj ⊢
  generalize spFinal v _ = u at hv hj ⊢
  have same : byteAt .dout j (spRelease (spTag .dec u)) = byteAt .dout j (spTag .dec u) := byteAt_congr rfl rfl rfl
  rw [same]
  exact byteAt_spTag_dec hv hj

/-- DOUT is read through the window OLEN (R206): zero bytes below OLEN make every read 0. -/
theorem hostRead_dout_of_hidden {s : State} (h : ∀ j < s.oLen, byteAt .dout j s = 0) (idx : Nat) :
    hostRead 0x17 idx s = 0 := by
  have hitem : itemOf 0x17 = some .dout := rfl
  simp only [hostRead, hitem, readItem]
  split
  · split
    · next hlt => rw [h idx hlt]; rfl
    · rfl
  · rfl

/-- Settles O48: a DEC that faults leaves OLEN 0, and one that completes without VERIFIED has masked its text. -/
theorem rejectedPlaintextIsNeverRead : Obligations.RejectedPlaintextIsNeverRead := by
  intro v s hr
  cases hc : checkCommand (decOf v) s with
  | some c =>
    exact ⟨_, exec_faults hr hc, fun _ => hostRead_dout_of_hidden fun j hj => absurd hj (Nat.not_lt_zero j)⟩
  | none =>
    refine ⟨_, exec_accepted hr hc, fun hv => hostRead_dout_of_hidden fun j hj => ?_⟩
    rw [bodyOf_aead (opOf_decOf v)] at hv hj ⊢
    exact byteAt_aeadBody_dec hv hj

/-- A bit of a number, from the quotient it is the parity of. -/
theorem testBit_eq_of_toNat {n k : Nat} {b : Bool} (h : n / 2 ^ k % 2 = b.toNat) : n.testBit k = b := by
  rw [Nat.testBit_eq_decide_div_mod_eq, h]
  cases b <;> rfl

theorem phaseCode_le (p : Phase) : phaseCode p ≤ 5 := by cases p <;> decide

theorem errCodeValue_le (c : ErrCode) : errCodeValue c ≤ 4 := by cases c <;> decide

/-- Settles O42: each field of STATUS is narrower than the distance to the next one. -/
theorem statusFields : Obligations.StatusFields := by
  intro s
  have hp := phaseCode_le s.phase
  have hc := errCodeValue_le s.errCode
  have he := s.err.toNat_le
  have hv := s.verified.toNat_le
  have hd := s.done.toNat_le
  have hb := s.busy.toNat_le
  have hval : statusValue s = phaseCode s.phase * 256 + errCodeValue s.errCode * 16 + s.err.toNat * 8 +
    s.verified.toNat * 4 + s.done.toNat * 2 + s.busy.toNat := rfl
  refine ⟨testBit_eq_of_toNat ?_, testBit_eq_of_toNat ?_, testBit_eq_of_toNat ?_, testBit_eq_of_toNat ?_, ?_,
    testBit_eq_of_toNat (b := false) ?_, ?_, ?_, rfl⟩
  case refine_6 => rw [hval, Bool.toNat_false]; omega
  all_goals rw [hval]; omega

/-- No read depends on KEY (R205). -/
theorem hostRead_key_update (id idx : Nat) (s : State) (k : Vector Byte 20) :
    hostRead id idx { s with key := k } = hostRead id idx s := by
  unfold hostRead
  cases itemOf id with
  | none => rfl
  | some it => cases it <;> rfl

/-- Settles O45: KEY's element reads as 0, and no other item is read from KEY. -/
theorem keyIsWriteOnly : Obligations.KeyIsWriteOnly := by
  intro s id idx k
  refine ⟨?_, hostRead_key_update id idx s k⟩
  have hitem : itemOf 0x11 = some .key := rfl
  simp only [hostRead, hitem, readItem, ite_self]

/-! ## Constants, parameters and reset -/

theorem accepted_env (i : Instr) (s : State) : (accepted i s).env = s.env := by
  unfold accepted startPhase
  cases opOf i <;> rfl

theorem exec_env {i : Instr} {s t : State} (h : exec i s = .next t) : t.env = s.env := by
  rcases exec_cases h with ⟨-, rfl⟩ | ⟨-, c, -, rfl⟩ | ⟨-, -, rfl⟩
  · rfl
  · rfl
  · rw [(bodyOf_kept i _).env, accepted_env]

theorem hostWrite_env (id idx v : Nat) (s : State) : (hostWrite id idx v s).env = s.env := by
  rcases hostWrite_cases id idx v s with e | ⟨it, -, -, e⟩ <;> rw [e]
  cases it with
  | cmd =>
    rcases cmdWrite_cases (BitVec.ofNat 8 v) s with ⟨-, e⟩ | ⟨-, c, -, e⟩ | ⟨-, i, -, -, e⟩ <;> simp only [writeItem, e]
    · exact faultEntry_env c s
    · exact accepted_env i s
  | _ => rfl

/-- No step changes the open parameters, the constant tables among them, or the copy's number (R14, R22, R77). -/
theorem step_params {s t : State} (h : step s = .next t) : t.env.params = s.env.params ∧ t.env.copy = s.env.copy := by
  cases step_cases h with
  | micro u m hb hu => rw [(perform_kept m u).env]; rcases hu with rfl | rfl <;> exact ⟨rfl, rfl⟩
  | statusRead | reset | empty | pause | read => exact ⟨rfl, rfl⟩
  | write id idx v => rw [hostWrite_env]; exact ⟨rfl, rfl⟩
  | command w i _ hb _ _ he => rw [exec_env he]; exact ⟨rfl, rfl⟩
  | illegal w y _ hb _ _ he => rcases runIllegal_cases he with ⟨-, rfl⟩ | ⟨-, rfl⟩ <;> exact ⟨rfl, rfl⟩

/-- Settles O58: no step changes the parameters, and the spec's tables hold the numbers of R10 to R13. -/
theorem constantTablesNeverChange : Obligations.ConstantTablesNeverChange := by
  refine ⟨fun s t h => ?_, rfl, by decide, rfl, rfl, rfl, rfl, rfl, rfl⟩
  obtain ⟨hparams, hcopy⟩ := step_params h
  exact ⟨congrArg Params.tables hparams, hparams, hcopy⟩

/-- Settles O51: State.reset is written from the table of R48, and STATUS is assembled from zeros. -/
theorem resetLeavesTheTable : Obligations.ResetLeavesTheTable := by
  repeat' apply And.intro
  all_goals rfl

/-- The suggested parameters meet the constraints of R14. -/
theorem suggestedParams_ok : ParamsOk suggestedParams := ⟨by decide, nofun, nofun⟩

/-- Settles O54: the reset values meet the invariant under any allowed parameters, and release nothing. -/
theorem resetMeetsTheInvariants : Obligations.ResetMeetsTheInvariants :=
  ⟨stateInv_reset suggestedParams_ok, .of_idle_empty rfl rfl⟩

end Sys2Proof.Machine

/-! ## Byte order, padding and blocks (20_memory.md R62 to R66) -/

namespace Sys2Proof.Machine

/-- One turn of `be64`: the word so far moves up one byte, and nothing of it is lost while its top byte is free. -/
theorem toNat_shiftLeft_or_byte {w : Word} (c : Byte) (h : w.toNat < 2 ^ 56) :
    ((w <<< 8) ||| c.setWidth 64).toNat = w.toNat * 256 + c.toNat := by
  have hc : c.toNat < 2 ^ 8 := c.isLt
  have hw : (w.toNat <<< 8) % 2 ^ 64 = w.toNat <<< 8 := Nat.mod_eq_of_lt (by rw [Nat.shiftLeft_eq]; omega)
  rw [BitVec.toNat_or, BitVec.toNat_shiftLeft, BitVec.toNat_setWidth, hw, Nat.mod_eq_of_lt (by omega),
    ← Nat.shiftLeft_add_eq_or_of_lt hc, Nat.shiftLeft_eq]

/-- `be64` from a starting word that leaves room for all the bytes. -/
theorem toNat_foldl_byte (B : List Byte) {w : Word} (h : w.toNat < 2 ^ (64 - 8 * B.length)) (hl : B.length ≤ 8) :
    (B.foldl (fun (w : Word) (c : Byte) => (w <<< 8) ||| c.setWidth 64) w).toNat =
      B.foldl (fun n c => n * 256 + c.toNat) w.toNat := by
  induction B generalizing w with
  | nil => rfl
  | cons c B ih =>
    rw [List.length_cons] at h hl
    have hpow : 2 ^ (64 - 8 * B.length) = 2 ^ (64 - 8 * (B.length + 1)) * 256 := by
      rw [← Nat.pow_add (n := 8)]; congr 1; omega
    have htop : w.toNat < 2 ^ 56 := h.trans_le (Nat.pow_le_pow_right (by omega) (by omega))
    have hturn := toNat_shiftLeft_or_byte c htop
    have hc : c.toNat < 256 := c.isLt
    rw [List.foldl_cons, List.foldl_cons, ih (by rw [hturn, hpow]; omega) (by omega), hturn]

/-- `be64` and `be32` are numbers written in base 256, the first byte the most significant (R62). -/
theorem toNat_beWord {B : List Byte} (hl : B.length ≤ 8) :
    (beWord B).toNat = B.foldl (fun n c => n * 256 + c.toNat) 0 :=
  toNat_foldl_byte B (by simp) hl

/-- Byte `k` of word `i` in the 40-byte view (R62). -/
theorem bytes_getElem_word (x : Words) {i k : Nat} (hi : i < 5) (hk : k < 8) :
    x.bytes[8 * i + k]? = (bytes64 (x.get i))[k]? := by
  interval_cases i <;> interval_cases k <;> rfl

/-- Settles O8: `be64` counts in base 256, and byte n of the state is byte n mod 8 of word n / 8. -/
theorem byteOrderIsBigEndian : Obligations.ByteOrderIsBigEndian := by
  refine ⟨beWord_bytes64, bytes64_beWord, fun b0 b1 b2 b3 b4 b5 b6 b7 => ?_, fun b0 b1 b2 b3 => ?_, fun x n hn => ?_⟩
  · rw [toNat_beWord (by simp)]; simp only [List.foldl]; omega
  · rw [toNat_beWord (by simp)]; simp only [List.foldl]; omega
  · have hk : n % 8 < 8 := Nat.mod_lt _ (by omega)
    rw [← bytes64_getElem _ _ hk, ← bytes_getElem_word x (by omega) hk, Nat.div_add_mod]

theorem getElem?_pad_marker (r : Nat) (B : List Byte) : (pad r B)[B.length]? = some 0x80 := by simp [pad]

theorem getElem?_pad_zero {r j : Nat} {B : List Byte} (hB : B.length < j) (hr : j < r) : (pad r B)[j]? = some 0 := by
  obtain ⟨k, rfl⟩ := Nat.exists_eq_add_of_lt hB
  have hk : k < r - 1 - B.length := by omega
  rw [pad, Nat.add_assoc, List.getElem?_append_right (by omega), Nat.add_sub_cancel_left, List.getElem?_cons_succ,
    List.getElem?_replicate, if_pos hk]

/-- The padding of an empty block is the one bit 0x80 at its front. -/
theorem rateXor_pad_nil {r : Nat} (hr : r = 8 ∨ r = 16) (x : Words) :
    rateXor r (pad r []) x = { x with x0 := x.x0 ^^^ 0x8000000000000000 } := by
  have first : beWord ((pad 8 []).take 8) = 0x8000000000000000 ∧ beWord ((pad 16 []).take 8) = 0x8000000000000000 := by
    decide
  have second : beWord (((pad 16 []).drop 8).take 8) = 0 := by decide
  rcases hr with rfl | rfl
  · simp [rateXor, first]
  · simp [rateXor, first, second]

/-- Settles O9: the length, the data, the marker and the zeros of `pad`, and the one bit that pads an empty block. -/
theorem paddingFillsTheBlock : Obligations.PaddingFillsTheBlock :=
  ⟨fun r B h => ⟨pad_length h, List.take_left, getElem?_pad_marker r B, fun _ => getElem?_pad_zero⟩,
    fun _ x hr => rateXor_pad_nil hr x⟩

theorem mul_le_of_le_div {len r j : Nat} (h : j ≤ len / r) : r * j ≤ len :=
  (Nat.mul_le_mul_left r h).trans (Nat.mul_div_le len r)

theorem mul_add_le_of_lt_div {len r j : Nat} (h : j < len / r) : r * j + r ≤ len := mul_le_of_le_div (j := j + 1) h

theorem blockLen_full {len r j : Nat} (h : j < len / r) : blockLen len r j = r :=
  min_eq_left (Nat.le_sub_of_add_le' (mul_add_le_of_lt_div h))

theorem blockLen_last {len r : Nat} (h : 0 < r) : blockLen len r (len / r) = len % r := by
  rw [blockLen, ← Nat.mod_eq_sub_mul_div]
  exact min_eq_right (Nat.mod_lt len h).le

@[simp] theorem block_length (b : Buf) (len r j : Nat) (s : State) : (block b len r j s).length = blockLen len r j :=
  memRead_length ..

/-- The full blocks, in order, are the stream up to the last of them. -/
theorem flatMap_full_blocks (b : Buf) {len r n : Nat} (s : State) (h : n ≤ len / r) :
    (List.range n).flatMap (fun j => block b len r j s) = memRead b 0 (r * n) s := by
  induction n with
  | zero => rfl
  | succ n ih =>
    rw [List.range_succ, List.flatMap_append, ih (by omega), List.flatMap_singleton, block, blockLen_full h, Nat.mul_succ,
      memRead_append, Nat.zero_add]

/-- Settles O10: the stream is the full blocks up to `r * (len / r)` and then `len % r` bytes. -/
theorem blocksPartitionTheStream : Obligations.BlocksPartitionTheStream := by
  intro b len r s hr
  refine ⟨?_, fun j hj => by rw [block_length, blockLen_full hj], by rw [block_length, blockLen_last hr],
    fun hlen => if_neg hlen, if_pos rfl⟩
  rw [textBlocks, List.range_succ, List.flatMap_append, flatMap_full_blocks b s le_rfl, List.flatMap_singleton, block,
    blockLen_last hr]
  conv_rhs => rw [← Nat.div_add_mod len r, memRead_append, Nat.zero_add]

end Sys2Proof.Machine

/-! ## What a micro-step reads and writes (20_memory.md R61, R67, R68) -/

namespace Sys2Proof.Machine

theorem row_of_nextMicro {s : State} {m : MicroStep} (h : nextMicro s = some m) :
    ∃ o, Row s.tables s.adLen s.dLen o s.phase s.blk m := by
  cases hd : decode s.cmd with
  | legal i => exact ⟨opOf i, (nextMicro_eq_some_iff hd).mp h⟩
  | illegal y => simp [nextMicro, hd] at h

/-! ### Accesses lie inside the streams -/

theorem mul_add_blockLen_le {len r j : Nat} (h : j ≤ len / r) : r * j + blockLen len r j ≤ len := by
  have hstart : r * j ≤ len := mul_le_of_le_div h
  have hrest : blockLen len r j ≤ len - r * j := min_le_right ..
  omega

/-- A block index below the number of blocks of the associated data is at most that of the partial block (R66). -/
theorem le_div_of_lt_adBlocks {len r j : Nat} (h : j < adBlocks len r) : j ≤ len / r := by
  unfold adBlocks at h
  split at h <;> omega

/-- Where the stream of a buffer that a micro-step works on ends: a digest's 32 bytes, or the length register (R67). -/
def streamEnd (m : MicroStep) (adLen dLen : Nat) : Buf → Nat
  | .ad => adLen
  | .din => dLen
  | .dout => match m with
    | .spHashSqueeze _ => 32
    | _ => dLen

theorem streamEnd_dout {m : MicroStep} (h : ∀ v, m ≠ .spHashSqueeze v) (adLen dLen : Nat) :
    streamEnd m adLen dLen .dout = dLen := by
  cases m with
  | spHashSqueeze v => exact absurd rfl (h v)
  | _ => rfl

/-- A micro-step of the table accesses only its streams: the row bounds the block index (R67). -/
theorem Row.access_inside {T : Tables} {adLen dLen blk : Nat} {o : Op} {phase : Phase} {m : MicroStep}
    (row : Row T adLen dLen o phase blk m) {a : Access} (ha : a ∈ accesses T m blk adLen dLen) :
    a.first + a.count ≤ streamEnd m adLen dLen a.buf := by
  cases row with
  | spAdBlock d v _ hb =>
    obtain rfl := List.mem_singleton.mp ha
    exact mul_add_blockLen_le (le_div_of_lt_adBlocks hb)
  | spTextBlock d v _ hb =>
    obtain rfl | rfl : a = _ ∨ a = _ := by simpa [accesses] using ha
    · exact mul_add_le_of_lt_div hb
    · exact mul_add_le_of_lt_div hb
  | spTextLast d v =>
    obtain rfl | rfl : a = _ ∨ a = _ := by simpa [accesses] using ha
    · exact (Nat.div_add_mod ..).le
    · exact (Nat.div_add_mod ..).le
  | spTag d v =>
    cases d with
    | enc => cases ha
    | dec =>
      obtain rfl | rfl : a = _ ∨ a = _ := by simpa [accesses] using ha
      · exact (Nat.zero_add dLen).le
      · exact (Nat.zero_add dLen).le
  | spHashBlock v _ hb =>
    obtain rfl := List.mem_singleton.mp ha
    exact mul_add_blockLen_le (Nat.le_of_lt_succ hb)
  | spHashSqueeze v _ hb =>
    obtain rfl := List.mem_singleton.mp ha
    exact show 8 * blk + 8 ≤ 32 by omega
  | _ => cases ha

/-- Settles O26: a selected micro-step stands at a row of R132, and the row bounds its block index. -/
theorem accessesStayInsideStreams : Obligations.AccessesStayInsideStreams := by
  intro s m hm a ha
  obtain ⟨o, row⟩ := row_of_nextMicro hm
  have hin := row.access_inside ha
  refine ⟨fun hb => ?_, fun hb => ?_, fun hb hne => ?_, ?_⟩
  · rwa [hb] at hin
  · rwa [hb] at hin
  · rwa [hb, streamEnd_dout hne] at hin
  · rintro hb v rfl
    rwa [hb] at hin

/-! ### The words and the bytes of DOUT after a micro-step -/

/-- The words after a micro-step: what it does before its rounds, the rounds, what it does after them (R136 to R151).
A count
above 12, which no command has, acts as 12. -/
theorem perform_x (m : MicroStep) (s : State) :
    (perform m s).x = wordsAfter m s
      (permute s.tables (min (microRounds s.tables m s.blk s.dLen) 12) (wordsBefore m s)) := by
  cases m with
  | permRun r => rw [perform, permRun_eq_min]; rfl
  | spInit v => rw [perform, spInit_eq, microRounds, min_eq_left (aead_a_le _ v)]; rfl
  | spAdBlock v => rw [perform, spAdBlock_eq, microRounds, min_eq_left (aead_b_le _ v)]; rfl
  | spTextBlock d v => rw [perform, spTextBlock_eq, microRounds, min_eq_left (aead_b_le _ v)]; rfl
  | spFinal v => rw [perform, spFinal_eq, microRounds, min_eq_left (aead_a_le _ v)]; rfl
  | spTag d => cases d <;> rfl
  | spHashInit v => rw [perform, spHashInit_eq, microRounds, min_eq_left (hash_a_le _ v)]; rfl
  | spHashBlock v =>
    by_cases hb : s.blk + 1 < textBlocks s.dLen (hashParams s.tables v).r
    · simp [perform, spHashBlock_full v s hb, wordsAfter, wordsBefore, microRounds, hb, hash_b_le]
    · simp [perform, spHashBlock_last v s hb, wordsAfter, wordsBefore, microRounds, hb, hash_a_le]
  | spHashSqueeze v =>
    by_cases hb : s.blk < 3
    · simp [perform, spHashSqueeze_eq, wordsAfter, wordsBefore, microRounds, hb, hash_b_le]
    · simp [perform, spHashSqueeze_eq, wordsAfter, wordsBefore, microRounds, hb]
  | spAdBegin | spDomSep | spTextLast | spRelease | spHashBegin | spHashRelease => rfl

/-- The bytes that a micro-step writes to DOUT (R142, R143, R145, R150). -/
def written (m : MicroStep) (s : State) : List Byte :=
  match m with
  | .spTextBlock d v =>
    let r := (aeadParams s.tables v).r
    (duplexBlock d r (memRead .din (r * s.blk) r s) s.x).2
  | .spTextLast d v =>
    let r := (aeadParams s.tables v).r
    (duplexLast d r (memRead .din (r * s.blk) (s.dLen % r) s) s.x).2
  | .spTag .dec => (memRead .dout 0 s.dLen s).map (· &&& tagMask (tagOf s.x) s.tagIn)
  | .spHashSqueeze _ => bytes64 s.x.x0
  | _ => []

theorem perform_dout (m : MicroStep) (s : State) :
    (perform m s).dout = s.dout.putBytes (doutRange s.tables m s.blk s.dLen).1 (written m s) := by
  cases m with
  | permRun r => rw [perform, permRun_eq_min]; rfl
  | spInit v => rw [perform, spInit_eq]; rfl
  | spAdBlock v => rw [perform, spAdBlock_eq]; rfl
  | spTextBlock d v => rw [perform, spTextBlock_eq]; rfl
  | spFinal v => rw [perform, spFinal_eq]; rfl
  | spTag d => cases d <;> rfl
  | spHashInit v => rw [perform, spHashInit_eq]; rfl
  | spHashBlock v =>
    by_cases hb : s.blk + 1 < textBlocks s.dLen (hashParams s.tables v).r
    · rw [perform, spHashBlock_full v s hb]; rfl
    · rw [perform, spHashBlock_last v s hb]; rfl
  | spHashSqueeze v => rw [perform, spHashSqueeze_eq]; rfl
  | spAdBegin | spDomSep | spTextLast | spRelease | spHashBegin | spHashRelease => rfl

theorem written_length (m : MicroStep) (s : State) : (written m s).length = (doutRange s.tables m s.blk s.dLen).2 := by
  cases m with
  | spTextBlock d v => exact duplexBlock_length d (aead_r_cases _ v) (memRead_length ..) s.x
  | spTextLast d v =>
    have hlt : s.dLen % (aeadParams s.tables v).r < (aeadParams s.tables v).r := Nat.mod_lt _ (aead_r_pos _ v)
    exact (duplexLast_length d (aead_r_cases _ v) (by rwa [memRead_length]) s.x).trans (memRead_length ..)
  | spTag d => cases d <;> simp [written, doutRange]
  | _ => rfl

/-- A byte of DOUT after a micro-step: one that it writes inside its range, as before outside it. -/
theorem byteAt_dout_perform (m : MicroStep) (s : State) (j : Nat) :
    byteAt .dout j (perform m s) =
      if h : (doutRange s.tables m s.blk s.dLen).1 ≤ j ∧
          j < (doutRange s.tables m s.blk s.dLen).1 + (written m s).length
        then (written m s)[j - (doutRange s.tables m s.blk s.dLen).1]'(by omega)
        else byteAt .dout j s := by
  have henv := (perform_kept m s).env
  rw [← byteAt_doutWrite]
  exact byteAt_congr (perform_dout m s) (congrArg Env.copy henv) (congrArg Env.epoch henv)

/-- The listed writes of a micro-step are the bytes of its range of DOUT. -/
theorem written_index_iff (T : Tables) (m : MicroStep) (blk adLen dLen j : Nat) :
    (∃ a ∈ accesses T m blk adLen dLen, a.write = true ∧ a.first ≤ j ∧ j < a.first + a.count) ↔
      (doutRange T m blk dLen).1 ≤ j ∧ j < (doutRange T m blk dLen).1 + (doutRange T m blk dLen).2 := by
  cases m with
  | spTag d => cases d <;> simp [accesses, doutRange]
  | _ => simp [accesses, doutRange]

/-! ### Nothing depends on a byte that is not read -/

/-- Two states that agree on all that a micro-step reads: registers, lengths, and the listed bytes of the buffers. -/
structure AgreeOnReads (m : MicroStep) (s t : State) : Prop where
  tables : s.tables = t.tables
  x : s.x = t.x
  key : s.key = t.key
  nonce : s.nonce = t.nonce
  tagIn : s.tagIn = t.tagIn
  blk : s.blk = t.blk
  adLen : s.adLen = t.adLen
  dLen : s.dLen = t.dLen
  reads : ∀ a ∈ accesses s.tables m s.blk s.adLen s.dLen, a.write = false → ∀ j, a.first ≤ j → j < a.first + a.count →
    byteAt a.buf j s = byteAt a.buf j t

section

variable {m : MicroStep} {s t : State}

theorem AgreeOnReads.memRead (h : AgreeOnReads m s t) {b : Buf} {o n : Nat}
    (ha : ⟨b, false, o, n⟩ ∈ accesses s.tables m s.blk s.adLen s.dLen) : memRead b o n s = memRead b o n t :=
  memRead_congr (h.reads _ ha rfl)

theorem AgreeOnReads.wordsBefore (h : AgreeOnReads m s t) : wordsBefore m s = wordsBefore m t := by
  cases m with
  | spAdBlock v =>
    have hread := h.memRead (List.mem_singleton_self _)
    simp only [Machine.wordsBefore, block, ← h.tables, ← h.x, ← h.blk, ← h.adLen, ← hread]
  | spTextBlock d v | spTextLast d v =>
    have hread := h.memRead List.mem_cons_self
    simp only [Machine.wordsBefore, ← h.tables, ← h.x, ← h.blk, ← h.dLen, ← hread]
  | spHashBlock v =>
    have hread := h.memRead (List.mem_singleton_self _)
    simp only [Machine.wordsBefore, block, ← h.tables, ← h.x, ← h.blk, ← h.dLen, ← hread]
  | _ => simp only [Machine.wordsBefore, h.tables, h.x, h.key, h.nonce]

theorem AgreeOnReads.wordsAfter (h : AgreeOnReads m s t) (x : Words) : wordsAfter m s x = wordsAfter m t x := by
  cases m with
  | spInit v | spFinal v => simp only [Machine.wordsAfter, h.tables, h.key]
  | _ => rfl

theorem AgreeOnReads.perform_x (h : AgreeOnReads m s t) : (perform m s).x = (perform m t).x := by
  rw [Machine.perform_x, Machine.perform_x, h.wordsAfter, h.wordsBefore, h.tables, h.blk, h.dLen]

theorem AgreeOnReads.written (h : AgreeOnReads m s t) : written m s = written m t := by
  cases m with
  | spTextBlock d v | spTextLast d v =>
    have hread := h.memRead List.mem_cons_self
    simp only [Machine.written, ← h.tables, ← h.x, ← h.blk, ← h.dLen, ← hread]
  | spTag d =>
    cases d with
    | enc => rfl
    | dec =>
      have hread := h.memRead List.mem_cons_self
      simp only [Machine.written, ← h.x, ← h.tagIn, ← h.dLen, ← hread]
  | spHashSqueeze v => simp only [Machine.written, h.x]
  | _ => rfl

/-- A byte that a micro-step writes is the same from two such states. -/
theorem AgreeOnReads.byteAt_dout (h : AgreeOnReads m s t) {j : Nat}
    (hj : (doutRange s.tables m s.blk s.dLen).1 ≤ j ∧
      j < (doutRange s.tables m s.blk s.dLen).1 + (doutRange s.tables m s.blk s.dLen).2) :
    byteAt .dout j (perform m s) = byteAt .dout j (perform m t) := by
  rw [← written_length] at hj
  have hj' := hj
  rw [h.written, h.tables, h.blk, h.dLen] at hj'
  rw [byteAt_dout_perform, dif_pos hj, byteAt_dout_perform, dif_pos hj']
  simp only [h.written, h.tables, h.blk, h.dLen]

end

/-- Settles O27: AD and DIN are kept, DOUT changes in the written range only, and what is written there depends on the
listed reads only. -/
theorem accessesAreAllThereIs : Obligations.AccessesAreAllThereIs := by
  intro m s
  have hkept := perform_kept m s
  have hcopy := congrArg Env.copy hkept.env
  have hepoch := congrArg Env.epoch hkept.env
  refine ⟨hkept.ad, hkept.din, fun j => ⟨byteAt_congr hkept.ad hcopy hepoch, byteAt_congr hkept.din hcopy hepoch⟩,
    fun j hj => ?_, fun t htables hx hkey hnonce htagIn hblk hadLen hdLen hreads => ?_⟩
  · rw [byteAt_dout_perform, dif_neg]
    rw [written_length, ← written_index_iff s.tables m s.blk s.adLen]
    rintro ⟨a, ha, hw, hin⟩
    exact hj a ha hw hin
  · have h : AgreeOnReads m s t := ⟨htables, hx, hkey, hnonce, htagIn, hblk, hadLen, hdLen, hreads⟩
    exact ⟨h.perform_x, fun a ha hw j h1 h2 => h.byteAt_dout ((written_index_iff ..).mp ⟨a, ha, hw, h1, h2⟩)⟩

end Sys2Proof.Machine

/-! ## Reads and copies (20_memory.md R70, R77) -/

namespace Sys2Proof.Machine

theorem hostRead_status (s : State) : hostRead (itemId .status) 0 s = statusValue s := rfl

/-- Settles O50: an idle block answers the read, a busy one answers STATUS with the value an idle read gives. -/
theorem readsHaveNoSideEffect : Obligations.ReadsHaveNoSideEffect := by
  intro s id idx rest hin haccepted
  cases hb : s.busy with
  | false => simp [step, hb, idleStep, hin, answer, popEvent]
  | true =>
    obtain ⟨rfl, rfl⟩ := haccepted.resolve_left (by simp [hb])
    simp [step, hb, busyStep, hin, isStatusRead, answer, popEvent, itemId, ← hostRead_status]

theorem stepCopy_eq_some_iff {n : Nat} {cores cores' : List State} :
    stepCopy n cores = some cores' ↔ ∃ s t, cores[n]? = some s ∧ step s = .next t ∧ cores' = cores.set n t := by
  unfold stepCopy
  cases cores[n]? with
  | none => simp
  | some s => cases hs : step s <;> simp [hs, eq_comm]

/-- Settles O59: a step of copy `n` is one `List.set` at `n`. -/
theorem copiesDoNotInteract : Obligations.CopiesDoNotInteract := by
  intro n cores cores' h
  obtain ⟨s, t, hs, hstep, rfl⟩ := stepCopy_eq_some_iff.mp h
  have hn : n < cores.length := (List.getElem?_eq_some_iff.mp hs).1
  exact ⟨List.length_set, fun m hm => List.getElem?_set_ne hm.symm, s, t, hs, hstep, List.getElem?_set_self hn⟩

end Sys2Proof.Machine

/-! ## The command words (30_encoding.md R90 to R97) -/

namespace Sys2Proof.Machine

/-- No bit of a word lies outside its two fields (R90). -/
theorem cmd8_opField_argField (w : Byte) : cmd8 (opField w) (argField w) = w :=
  (BitVec.extractLsb'_append_extractLsb'_eq_extractLsb' rfl).trans BitVec.extractLsb'_eq_self

theorem decodePerm_legal {arg : BitVec 4} {i : Instr} (h : decodePerm arg = .legal i) :
    i.wellFormed = true ∧ i.opBits = 1 ∧ i.argBits = arg := by
  unfold decodePerm at h
  split_ifs at h with hwf
  cases h
  exact ⟨hwf, rfl, rfl⟩

theorem decodeEnc_legal {arg : BitVec 4} {i : Instr} (h : decodeEnc arg = .legal i) :
    i.wellFormed = true ∧ i.opBits = 2 ∧ i.argBits = arg := by
  unfold decodeEnc at h
  split_ifs at h <;> subst_vars <;> cases h
  all_goals exact ⟨rfl, rfl, rfl⟩

theorem decodeDec_legal {arg : BitVec 4} {i : Instr} (h : decodeDec arg = .legal i) :
    i.wellFormed = true ∧ i.opBits = 3 ∧ i.argBits = arg := by
  unfold decodeDec at h
  split_ifs at h <;> subst_vars <;> cases h
  all_goals exact ⟨rfl, rfl, rfl⟩

theorem decodeHash_legal {arg : BitVec 4} {i : Instr} (h : decodeHash arg = .legal i) :
    i.wellFormed = true ∧ i.opBits = 4 ∧ i.argBits = arg := by
  unfold decodeHash at h
  split_ifs at h <;> subst_vars <;> cases h
  all_goals exact ⟨rfl, rfl, rfl⟩

/-- A legal word holds the two fields of its command, which is well-formed (R92 to R95). -/
theorem decode_legal_fields {w : Byte} {i : Instr} (h : decode w = .legal i) :
    i.wellFormed = true ∧ i.opBits = opField w ∧ i.argBits = argField w := by
  unfold decode at h
  split_ifs at h with h1 h2 h3 h4
  · exact h1 ▸ decodePerm_legal h
  · exact h2 ▸ decodeEnc_legal h
  · exact h3 ▸ decodeDec_legal h
  · exact h4 ▸ decodeHash_legal h

/-- The legal words are the encodings of the well-formed commands, and each decodes to its own command. -/
theorem decode_eq_legal_iff {w : Byte} {i : Instr} : decode w = .legal i ↔ i.wellFormed = true ∧ encode i = w where
  mp h := by
    obtain ⟨hwf, hop, harg⟩ := decode_legal_fields h
    refine ⟨hwf, ?_⟩
    calc encode i = cmd8 (opField w) (argField w) := by rw [encode, hop, harg]
      _ = w := cmd8_opField_argField w
  mpr := by
    rintro ⟨hwf, rfl⟩
    exact decode_encode hwf

/-- Settles O1: a legal word has the fields of its command, and the two fields are all of the word. -/
theorem decodeInvertsEncode : Obligations.DecodeInvertsEncode :=
  ⟨fun _ => decode_encode, fun _ _ => decode_eq_legal_iff.mp⟩

/-- R96's list is the well-formed commands, each with its encoding. -/
theorem mem_wordTable_iff {w : Byte} {i : Instr} : (w, i) ∈ wordTable ↔ i.wellFormed = true ∧ encode i = w where
  mp h := by
    have entries : ∀ e ∈ wordTable, e.2.wellFormed = true ∧ encode e.2 = e.1 := by decide
    exact entries _ h
  mpr := by
    rintro ⟨hwf, rfl⟩
    cases i with
    | perm r => revert r; decide
    | enc128 | enc128a | enc80pq | dec128 | dec128a | dec80pq | hash | hasha => decide

/-- Settles O2: the legal words and R96's list are both the encodings of the well-formed commands; the numbers of both
kinds of words are counted. -/
theorem legalWordsAreTheTable : Obligations.LegalWordsAreTheTable :=
  ⟨fun _ _ => decode_eq_legal_iff.trans mem_wordTable_iff.symm, rfl, by decide +kernel⟩

/-- Settles O3, by running the decoder on the twelve words. -/
theorem familyWordsDecode : Obligations.FamilyWordsDecode := by
  unfold Obligations.FamilyWordsDecode
  decide

/-! ## A step with BUSY = 0 (44_host_interface.md R201) -/

theorem step_of_idle {s : State} (hb : s.busy = false) : step s = idleStep s := by simp [step, hb]

theorem step_of_empty_inbox {s : State} (hb : s.busy = false) (hin : s.env.inbox = []) : step s = .next s := by
  rw [step_of_idle hb, idleStep, hin]

theorem step_of_command {s : State} {w : Byte} {i : Instr} {rest : List HostEvent} (hb : s.busy = false)
    (hin : s.env.inbox = .command w :: rest) (hd : decode w = .legal i) : step s = exec i (popEvent s) := by
  simp only [step_of_idle hb, idleStep, hin, hd]

theorem decode_of_decodeTableWord {nbits w : Nat} {i : Instr} (h : decodeTableWord nbits w = some i) :
    decode (BitVec.ofNat 8 (w % 2 ^ nbits)) = .legal i := by
  unfold decodeTableWord at h
  cases hd : decode (BitVec.ofNat 8 (w % 2 ^ nbits)) with
  | legal j =>
    rw [hd] at h
    exact congrArg Decoded.legal (Option.some.inj h)
  | illegal y =>
    rw [hd] at h
    cases h

/-- Taking a placed command from the script leaves the state it was placed in, idle. -/
theorem popEvent_withFetchWord (s : State) (nbits w : Nat) :
    popEvent (s.withFetchWord nbits w) = { s with busy := false } := rfl

/-- Settles O53: an idle block takes the command from the script, where `withFetchWord` puts its own word first. -/
theorem stepRunsTheDecodedCommand : Obligations.StepRunsTheDecodedCommand := by
  refine ⟨fun w i s rest hb hin hd => ?_, fun w i s h => ?_, fun s => step_of_empty_inbox⟩
  · rw [step_of_command hb hin hd, popEvent, hin, List.tail_cons]
  · have placed : (s.withFetchWord 8 w).env.inbox = .command (BitVec.ofNat 8 (w % 2 ^ 8)) :: s.env.inbox := rfl
    rw [step_of_command rfl placed (decode_of_decodeTableWord h), popEvent_withFetchWord]

end Sys2Proof.Machine

/-! ## The layers of the permutation (40_permutation.md R111 to R115, R119) -/

namespace Sys2Proof.Machine

theorem words_ext {x y : Words} (h0 : x.x0 = y.x0) (h1 : x.x1 = y.x1) (h2 : x.x2 = y.x2) (h3 : x.x3 = y.x3)
    (h4 : x.x4 = y.x4) : x = y := by
  cases x; cases y
  simp_all

/-! ### Substitution, column by column -/

/-- Every bit of `pS` in its algebraic form (R113). -/
theorem getLsbD_pS (x : Words) {j : Nat} (hj : j < 64) :
    let a := x.x0.getLsbD j
    let b := x.x1.getLsbD j
    let c := x.x2.getLsbD j
    let d := x.x3.getLsbD j
    let e := x.x4.getLsbD j
    (pS x).x0.getLsbD j = ((e && b) ^^ d ^^ (c && b) ^^ c ^^ (b && a) ^^ b ^^ a) ∧
      (pS x).x1.getLsbD j = (e ^^ (d && c) ^^ (d && b) ^^ d ^^ (c && b) ^^ c ^^ b ^^ a) ∧
      (pS x).x2.getLsbD j = ((e && d) ^^ e ^^ c ^^ b ^^ true) ∧
      (pS x).x3.getLsbD j = ((e && a) ^^ e ^^ (d && a) ^^ d ^^ c ^^ b ^^ a) ∧
      (pS x).x4.getLsbD j = ((e && b) ^^ e ^^ d ^^ (b && a) ^^ b) := by
  simp only [pS, pSOut, pSMid, pSIn, BitVec.getLsbD_xor, BitVec.getLsbD_and, BitVec.getLsbD_not, hj, decide_true,
    Bool.true_and]
  generalize x.x0.getLsbD j = a, x.x1.getLsbD j = b, x.x2.getLsbD j = c, x.x3.getLsbD j = d, x.x4.getLsbD j = e
  revert a b c d e
  decide

/-- SBOX of a column, from the algebraic form on each of its 32 values (R113). -/
theorem column_pS (x : Words) {j : Nat} (hj : j < 64) : column (pS x) j = sboxTable.getD (column x j) 0 := by
  obtain ⟨h0, h1, h2, h3, h4⟩ := getLsbD_pS x hj
  simp only [column, h0, h1, h2, h3, h4]
  generalize x.x0.getLsbD j = a, x.x1.getLsbD j = b, x.x2.getLsbD j = c, x.x3.getLsbD j = d, x.x4.getLsbD j = e
  revert a b c d e
  decide

theorem sboxTable_perm : sboxTable.Perm (List.range 32) := by decide

/-- Settles O4: a column of `pS` by its algebraic form, from which SBOX follows. -/
theorem substitutionActsOnColumns : Obligations.SubstitutionActsOnColumns :=
  ⟨fun x _ hj => ⟨column_pS x hj, getLsbD_pS x hj⟩, sboxTable_perm⟩

theorem column_lt (x : Words) (j : Nat) : column x j < sboxTable.length := by
  have h0 := (x.x0.getLsbD j).toNat_lt
  have h1 := (x.x1.getLsbD j).toNat_lt
  have h2 := (x.x2.getLsbD j).toNat_lt
  have h3 := (x.x3.getLsbD j).toNat_lt
  have h4 := (x.x4.getLsbD j).toNat_lt
  rw [column, show sboxTable.length = 32 from rfl]
  omega

/-- A column is the binary number of its five bits. -/
theorem getLsbD_eq_testBit_column (x : Words) (j : Nat) :
    x.x0.getLsbD j = (column x j).testBit 4 ∧ x.x1.getLsbD j = (column x j).testBit 3 ∧
      x.x2.getLsbD j = (column x j).testBit 2 ∧ x.x3.getLsbD j = (column x j).testBit 1 ∧
      x.x4.getLsbD j = (column x j).testBit 0 := by
  unfold column
  generalize x.x0.getLsbD j = a, x.x1.getLsbD j = b, x.x2.getLsbD j = c, x.x3.getLsbD j = d, x.x4.getLsbD j = e
  revert a b c d e
  decide

/-- The columns are all of the state. -/
theorem words_eq_of_column_eq {x y : Words} (h : ∀ j < 64, column x j = column y j) : x = y := by
  choose x0 x1 x2 x3 x4 using getLsbD_eq_testBit_column x
  choose y0 y1 y2 y3 y4 using getLsbD_eq_testBit_column y
  exact words_ext (BitVec.eq_of_getLsbD_eq fun j hj => by rw [x0, y0, h j hj])
    (BitVec.eq_of_getLsbD_eq fun j hj => by rw [x1, y1, h j hj])
    (BitVec.eq_of_getLsbD_eq fun j hj => by rw [x2, y2, h j hj])
    (BitVec.eq_of_getLsbD_eq fun j hj => by rw [x3, y3, h j hj])
    (BitVec.eq_of_getLsbD_eq fun j hj => by rw [x4, y4, h j hj])

theorem pS_injective : Function.Injective pS := by
  intro x y h
  refine words_eq_of_column_eq fun j hj => ?_
  have hnodup : sboxTable.Nodup := sboxTable_perm.nodup_iff.mpr List.nodup_range
  have hcol : sboxTable.getD (column x j) 0 = sboxTable.getD (column y j) 0 := by
    rw [← column_pS x hj, ← column_pS y hj, h]
  rwa [List.getD_eq_getElem _ _ (column_lt x j), List.getD_eq_getElem _ _ (column_lt y j),
    hnodup.getElem_inj_iff] at hcol

/-! ### Linear diffusion, bit by bit -/

/-- R15's meaning of `rotr`. -/
theorem getLsbD_rotr {n j : Nat} (hn : n < 64) (hj : j < 64) (w : Word) :
    (rotr w n).getLsbD j = w.getLsbD ((j + n) % 64) := by
  simp only [rotr, BitVec.getLsbD_or, BitVec.getLsbD_ushiftRight, BitVec.getLsbD_shiftLeft]
  by_cases h : j + n < 64
  · have low : j < 64 - n := by omega
    simp [low, Nat.mod_eq_of_lt h, Nat.add_comm n j]
  · have high : ¬ j < 64 - n := by omega
    have wrap : (j + n) % 64 = j - (64 - n) := by omega
    simp [high, hj, wrap, BitVec.getLsbD_of_ge w (n + j) (by omega)]

/-- A rotation by 64 and more leaves the word as it is (log entry 20). -/
theorem rotr_of_ge {n : Nat} (hn : 64 ≤ n) (w : Word) : rotr w n = w := by
  rw [rotr, BitVec.ushiftRight_eq_zero hn, Nat.sub_eq_zero_of_le hn, BitVec.shiftLeft_zero, BitVec.zero_or]

/-- R114 with R15: what the linear layer does to a bit. -/
theorem getLsbD_mixWord {p : RotPair} (ha : p.fst < 64) (hb : p.snd < 64) (w : Word) {j : Nat} (hj : j < 64) :
    (mixWord p w).getLsbD j = (w.getLsbD j ^^ w.getLsbD ((j + p.fst) % 64) ^^ w.getLsbD ((j + p.snd) % 64)) := by
  rw [mixWord, BitVec.getLsbD_xor, BitVec.getLsbD_xor, getLsbD_rotr ha hj, getLsbD_rotr hb hj]

/-- Settles O5: each word is mixed with its own pair. -/
theorem linearLayerMixesBits : Obligations.LinearLayerMixesBits := fun x _ hj =>
  ⟨getLsbD_mixWord (p := rotTable.w0) (by decide) (by decide) x.x0 hj,
    getLsbD_mixWord (p := rotTable.w1) (by decide) (by decide) x.x1 hj,
    getLsbD_mixWord (p := rotTable.w2) (by decide) (by decide) x.x2 hj,
    getLsbD_mixWord (p := rotTable.w3) (by decide) (by decide) x.x3 hj,
    getLsbD_mixWord (p := rotTable.w4) (by decide) (by decide) x.x4 hj⟩

/-- Any rotation amount acts as one below 64. -/
theorem exists_rotr_eq (n : Nat) : ∃ m < 64, ∀ w, rotr w n = rotr w m := by
  by_cases hn : n < 64
  · exact ⟨n, hn, fun _ => rfl⟩
  · exact ⟨0, by decide, fun w => by rw [rotr_of_ge (not_lt.mp hn)]; simp [rotr]⟩

/-- Over GF(2) a square keeps no cross term. -/
theorem xor_cross_terms (u a b aa bb ab : Bool) :
    ((u ^^ a ^^ b) ^^ (a ^^ aa ^^ ab) ^^ (b ^^ ab ^^ bb)) = (u ^^ aa ^^ bb) := by
  revert u a b aa bb ab
  decide

/-- Mixing `2 ^ k` times mixes with `2 ^ k` times both amounts. -/
theorem getLsbD_iterate_mixWord {p : RotPair} (ha : p.fst < 64) (hb : p.snd < 64) (k : Nat) (w : Word) {j : Nat}
    (hj : j < 64) :
    ((mixWord p)^[2 ^ k] w).getLsbD j =
      (w.getLsbD j ^^ w.getLsbD ((j + 2 ^ k * p.fst) % 64) ^^ w.getLsbD ((j + 2 ^ k * p.snd) % 64)) := by
  induction k generalizing w j with
  | zero => simpa using getLsbD_mixWord ha hb w hj
  | succ k ih =>
    have lt (n : Nat) : n % 64 < 64 := Nat.mod_lt n (by decide)
    have twice (n : Nat) : j + (2 ^ k + 2 ^ k) * n = j + 2 ^ k * n + 2 ^ k * n := by ring
    have cross : j + 2 ^ k * p.snd + 2 ^ k * p.fst = j + 2 ^ k * p.fst + 2 ^ k * p.snd := by ring
    rw [pow_succ, Nat.mul_two, Function.iterate_add_apply, ih _ hj, ih _ hj, ih _ (lt _), ih _ (lt _)]
    simp only [twice, Nat.mod_add_mod, cross]
    exact xor_cross_terms ..

/-- Mixing 64 times rotates by multiples of 64 and so gives the word back. -/
theorem iterate_mixWord {p : RotPair} (ha : p.fst < 64) (hb : p.snd < 64) (w : Word) : (mixWord p)^[2 ^ 6] w = w := by
  refine BitVec.eq_of_getLsbD_eq fun j hj => ?_
  have turn (n : Nat) : (j + 2 ^ 6 * n) % 64 = j := by omega
  rw [getLsbD_iterate_mixWord ha hb 6 w hj, turn, turn, Bool.xor_self, Bool.false_xor]

theorem mixWord_injective (p : RotPair) : Function.Injective (mixWord p) := by
  obtain ⟨a, ha, hfst⟩ := exists_rotr_eq p.fst
  obtain ⟨b, hb, hsnd⟩ := exists_rotr_eq p.snd
  have same : mixWord p = mixWord ⟨a, b⟩ := funext fun w => by rw [mixWord, hfst, hsnd, mixWord]
  rw [same]
  refine Function.Injective.of_comp (f := (mixWord ⟨a, b⟩)^[63]) ?_
  rw [← Function.iterate_succ, show (mixWord ⟨a, b⟩)^[63 + 1] = id from funext (iterate_mixWord ha hb)]
  exact Function.injective_id

theorem pL_injective (T : Tables) : Function.Injective (pL T) := by
  intro x y h
  obtain ⟨h0, h1, h2, h3, h4⟩ := Words.mk.inj h
  exact words_ext (mixWord_injective _ h0) (mixWord_injective _ h1) (mixWord_injective _ h2) (mixWord_injective _ h3)
    (mixWord_injective _ h4)

/-! ### Bijections -/

/-- A state is its five words, each of finitely many values. -/
theorem finite_words : Finite Words :=
  Finite.of_injective (fun x : Words => (x.x0, x.x1, x.x2, x.x3, x.x4)) fun x y h => by
    simp only [Prod.mk.injEq] at h
    obtain ⟨h0, h1, h2, h3, h4⟩ := h
    exact words_ext h0 h1 h2 h3 h4

theorem bijective_of_injective {f : Words → Words} (h : Function.Injective f) : Function.Bijective f :=
  have := finite_words
  Finite.injective_iff_bijective.mp h

theorem pC_pC (T : Tables) (i : Nat) (x : Words) : pC T i (pC T i x) = x := by
  simp [pC]

theorem roundAt_bijective (T : Tables) (i : Nat) : Function.Bijective (roundAt T i) :=
  ((bijective_of_injective (pL_injective T)).comp (bijective_of_injective pS_injective)).comp
    (Function.Involutive.bijective (pC_pC T i))

theorem permute_bijective (T : Tables) (r : Nat) : Function.Bijective (permute T r) := by
  induction r with
  | zero => exact Function.bijective_id
  | succ n ih => exact ih.comp (roundAt_bijective T (11 - n))

/-- Settles O6: SBOX is injective on columns, a word mixed 64 times is the word again, and rounds compose. -/
theorem permutationIsBijective : Obligations.PermutationIsBijective :=
  ⟨pC_pC specTables, bijective_of_injective pS_injective, bijective_of_injective (pL_injective specTables),
    roundAt_bijective specTables, permute_bijective specTables⟩

/-! ### The schedule (R116) -/

theorem permute_eq_foldl (T : Tables) {r : Nat} (hr : r ≤ 12) (x : Words) :
    permute T r x = (List.range' (12 - r) r).foldl (fun y i => roundAt T i y) x := by
  induction r generalizing x with
  | zero => rfl
  | succ n ih =>
    have first : 12 - (n + 1) = 11 - n := by omega
    have rest : 11 - n + 1 = 12 - n := by omega
    rw [permute_succ, ih (by omega), first, List.range'_succ, rest, List.foldl_cons]

/-- Settles O7: the indices of `P(12)` are those before `12 - r` and then those of `P(r)`. -/
theorem scheduleCountsUpToEleven : Obligations.ScheduleCountsUpToEleven := by
  intro T r x hr
  have split : List.range' 0 12 = List.range (12 - r) ++ List.range' (12 - r) r := by
    have h := List.range'_append (s := 0) (m := 12 - r) (n := r) (step := 1)
    rwa [Nat.sub_add_cancel hr, Nat.zero_add, Nat.one_mul, ← List.range_eq_range', eq_comm] at h
  refine ⟨permute_eq_foldl T hr x, ?_⟩
  rw [permute_eq_foldl T le_rfl, permute_eq_foldl T hr, split, List.foldl_append]

end Sys2Proof.Machine

/-! ## PERM (40_permutation.md R118) -/

namespace Sys2Proof.Machine

theorem wellFormed_perm_iff {r : BitVec 4} : (Instr.perm r).wellFormed = true ↔ 1 ≤ r.toNat ∧ r.toNat ≤ 12 := by
  simp [Instr.wellFormed]

/-- The only check of PERM is its round count (R93, R207). -/
theorem checkCommand_perm_none_iff {r : BitVec 4} {s : State} :
    checkCommand (.perm r) s = none ↔ 1 ≤ r.toNat ∧ r.toNat ≤ 12 := by
  rw [checkCommand_eq_none_iff, wellFormed_perm_iff]
  exact and_iff_left rfl

theorem checkCommand_perm_some {r : BitVec 4} {s : State} {c : ErrCode} (h : checkCommand (.perm r) s = some c) :
    c = .illegalCmd := by
  unfold checkCommand at h
  split at h <;> cases h
  rfl

theorem encode_perm (r : BitVec 4) : encode (.perm r) = 0x10 + r.setWidth 8 := by
  revert r
  decide

/-- An accepted PERM, run to its end. -/
theorem bodyOf_perm_accepted {r : BitVec 4} (hr : r.toNat ≤ 12) (s : State) :
    bodyOf (.perm r) (accepted (.perm r) s) = { s with
      x := permute s.tables r.toNat s.x, rnd := 12, cmd := encode (.perm r), busy := false, done := true
      verified := false, oLen := 0, tagOut := Vector.replicate 16 0 } := by
  rw [bodyOf, permRun_eq hr, accepted_perm]

/-- Settles O15: the check decides between the run and the fault. -/
theorem permPermutesInPlace : Obligations.PermPermutesInPlace := by
  intro r s hs
  refine ⟨fun hr => ?_, fun hr => ?_⟩
  · rw [exec_accepted hs (checkCommand_perm_none_iff.mpr hr), bodyOf_perm_accepted hr.2, encode_perm]
  · obtain ⟨c, hc⟩ := Option.ne_none_iff_exists'.mp (mt checkCommand_perm_none_iff.mp hr)
    obtain rfl := checkCommand_perm_some hc
    exact ⟨_, exec_faults hs hc, faulted_faultEntry .illegalCmd s⟩

/-- Settles O30: PERM does nothing, takes the fault, or runs. -/
theorem permFrame : Obligations.PermFrame := by
  intro r s t h
  rcases exec_cases h with ⟨-, rfl⟩ | ⟨hs, c, hc, rfl⟩ | ⟨hs, hc, rfl⟩
  · exact ⟨by constructor <;> rfl, rfl, fun _ => ⟨rfl, rfl, rfl, rfl, rfl, rfl⟩, fun hne => absurd rfl hne⟩
  · obtain rfl := checkCommand_perm_some hc
    refine ⟨by constructor <;> rfl, rfl, fun herr => ?_, fun _ => faulted_faultEntry .illegalCmd s⟩
    rw [faultEntry_err, hs.2] at herr
    cases herr
  · rw [bodyOf_perm_accepted (checkCommand_perm_none_iff.mp hc).2]
    exact ⟨by constructor <;> rfl, rfl, fun _ => ⟨rfl, rfl, rfl, rfl, rfl, hs.1.symm⟩, fun hne => absurd rfl hne⟩

end Sys2Proof.Machine

/-! ## Where bytes land in the words (41_sponge.md R134, R136, R144) -/

namespace Sys2Proof.Machine

/-- A word is zero above its bytes (R62). -/
theorem getLsbD_beWord_of_ge {B : List Byte} {j : Nat} (h : 8 * B.length ≤ j) : (beWord B).getLsbD j = false := by
  by_cases hj : j < 64
  · rw [getLsbD_beWord B j hj, decide_eq_false (by omega), Bool.false_and]
  · exact BitVec.getLsbD_of_ge _ _ (by omega)

/-- The bytes in front stand above the bytes that follow. -/
theorem getLsbD_beWord_append (A B : List Byte) {j : Nat} (hj : j < 64) :
    (beWord (A ++ B)).getLsbD j =
      if j < 8 * B.length then (beWord B).getLsbD j else (beWord A).getLsbD (j - 8 * B.length) := by
  rw [beWord, List.foldl_append, getLsbD_beWord_aux B _ _ hj]
  split
  · next h => rw [getLsbD_beWord B j hj, decide_eq_true h, Bool.true_and]
  · rfl

theorem beWord_append (A B : List Byte) : beWord (A ++ B) = (beWord A <<< (8 * B.length)) ||| beWord B := by
  refine BitVec.eq_of_getLsbD_eq fun j hj => ?_
  rw [getLsbD_beWord_append A B hj, BitVec.getLsbD_or, BitVec.getLsbD_shiftLeft]
  split
  · next h => simp [h]
  · next h => rw [getLsbD_beWord_of_ge (not_lt.mp h)]; simp [h, hj]

/-- A word moved up to make room for bytes shares no bit with them. -/
theorem shiftLeft_or_beWord (w : Word) (B : List Byte) :
    (w <<< (8 * B.length)) ||| beWord B = (w <<< (8 * B.length)) ^^^ beWord B := by
  refine BitVec.eq_of_getLsbD_eq fun j hj => ?_
  rw [BitVec.getLsbD_or, BitVec.getLsbD_xor, BitVec.getLsbD_shiftLeft]
  by_cases h : j < 8 * B.length
  · simp [h]
  · rw [getLsbD_beWord_of_ge (not_lt.mp h)]; simp

theorem beWord_singleton (c : Byte) : beWord [c] = c.setWidth 64 := by
  simp [beWord]

theorem Words.get_set_same (x : Words) {i : Nat} (hi : i < 5) (v : Word) : (x.set i v).get i = v := by
  interval_cases i <;> rfl

theorem Words.set_set_same (x : Words) {i : Nat} (hi : i < 5) (v w : Word) : (x.set i v).set i w = x.set i w := by
  interval_cases i <;> rfl

theorem Words.set_get_self (x : Words) (i : Nat) : x.set i (x.get i) = x := by
  unfold Words.set
  split <;> rfl

theorem stateXorBytes_append (off : Nat) (A B : List Byte) (x : Words) :
    stateXorBytes off (A ++ B) x = stateXorBytes (off + A.length) B (stateXorBytes off A x) := by
  induction A generalizing off x with
  | nil => rfl
  | cons c A ih =>
    rw [List.cons_append, stateXorBytes, ih, List.length_cons, Nat.add_assoc, Nat.add_comm 1]
    rfl

/-- Bytes `k` to `k + |B| − 1` of word `i`: one XOR of that word (R134). -/
theorem stateXorBytes_word {i k : Nat} (hi : i < 5) (B : List Byte) (hk : k + B.length ≤ 8) (x : Words) :
    stateXorBytes (8 * i + k) B x = x.set i (x.get i ^^^ (beWord B <<< (64 - 8 * (k + B.length)))) := by
  induction B generalizing k x with
  | nil => simp [stateXorBytes, beWord, Words.set_get_self]
  | cons c B ih =>
    rw [List.length_cons] at hk ⊢
    have hword : (8 * i + k) / 8 = i := by omega
    have hbyte : (8 * i + k) % 8 = k := by omega
    have hshift : 64 - 8 * (k + 1 + B.length) + 8 * B.length = 56 - 8 * k := by omega
    have hfirst : beWord (c :: B) = (c.setWidth 64 <<< (8 * B.length)) ^^^ beWord B := by
      rw [← beWord_singleton, ← shiftLeft_or_beWord, ← beWord_append, List.singleton_append]
    rw [stateXorBytes, Nat.add_assoc, ih (by omega), xorStateByte, hword, hbyte, Words.get_set_same x hi,
      Words.set_set_same x hi, hfirst, BitVec.shiftLeft_xor_distrib, ← BitVec.shiftLeft_add,
      Nat.add_comm (8 * B.length), show k + (B.length + 1) = k + 1 + B.length by omega, hshift, BitVec.xor_assoc]

/-- Eight bytes at a word's first byte are XORed into the whole word. -/
theorem stateXorBytes_full_word {i : Nat} (hi : i < 5) {B : List Byte} (hB : B.length = 8) (x : Words) :
    stateXorBytes (8 * i) B x = x.set i (x.get i ^^^ beWord B) := by
  have h := stateXorBytes_word hi B (k := 0) (by omega) x
  rwa [Nat.add_zero, hB, BitVec.shiftLeft_zero] at h

theorem stateXorBytes_two_words {i : Nat} (hi : i < 4) {K : List Byte} (hK : K.length = 16) (x : Words) :
    stateXorBytes (8 * i) K x = (x.set i (x.get i ^^^ beWord (K.take 8))).set (i + 1)
      ((x.set i (x.get i ^^^ beWord (K.take 8))).get (i + 1) ^^^ beWord (K.drop 8)) := by
  have hfirst : (K.take 8).length = 8 := by simp [hK]
  conv_lhs => rw [← List.take_append_drop 8 K, stateXorBytes_append, hfirst, ← Nat.mul_succ]
  rw [stateXorBytes_full_word (by omega) (by simp [hK]), stateXorBytes_full_word (by omega) hfirst]

/-- Settles O12: a key is cut where the words begin, and each piece is one XOR of its word. -/
theorem keyXorLandsInWords : Obligations.KeyXorLandsInWords := by
  intro x K
  refine ⟨fun hK => ?_, fun hK => ?_⟩
  · exact ⟨stateXorBytes_two_words (i := 3) (by decide) hK x, stateXorBytes_two_words (i := 1) (by decide) hK x,
      stateXorBytes_two_words (i := 2) (by decide) hK x⟩
  · have low : (K.take 4).length = 4 := by simp [hK]
    have high : (K.take 16).length = 16 := by simp [hK]
    constructor
    · conv_lhs => rw [← List.take_append_drop 4 K, stateXorBytes_append, low]
      rw [stateXorBytes_two_words (i := 3) (by decide) (by simp [hK]),
        stateXorBytes_word (i := 2) (k := 4) (by decide) _ (by omega), low, List.drop_drop]
      simp [Words.set, Words.get]
    · conv_lhs => rw [← List.take_append_drop 16 K, stateXorBytes_append, high]
      have last : (K.drop 16).length = 4 := by simp [hK]
      rw [stateXorBytes_word (i := 3) (k := 0) (by decide) _ (by omega), last,
        stateXorBytes_two_words (i := 1) (by decide) high, List.take_take, List.drop_take]
      rfl

/-- Two words filled from sixteen bytes show those bytes. -/
theorem bytes64_beWord_pair {B : List Byte} (h : B.length = 16) :
    bytes64 (beWord (B.take 8)) ++ bytes64 (beWord ((B.drop 8).take 8)) = B := by
  have hrest : (B.drop 8).length = 8 := by simp [h]
  rw [bytes64_beWord _ (by simp [h]), List.take_of_length_le hrest.le, bytes64_beWord _ hrest, List.take_append_drop]

/-- The bytes of a state loaded with a 16-byte key (R136). -/
theorem bytes_loadAead_k16 {T : Tables} {v : AeadVariant} (hk : (aeadParams T v).k = 16) {K N : List Byte}
    (hK : K.length = 16) (hN : N.length = 16) :
    (loadAead T v K N).bytes = bytes64 (aeadParams T v).iv ++ K ++ N := by
  have hne : ¬ (aeadParams T v).k = 20 := by rw [hk]; decide
  conv_rhs => rw [← bytes64_beWord_pair hK, ← bytes64_beWord_pair hN]
  simp only [loadAead, if_neg hne, Words.bytes, List.append_assoc]

/-- The bytes of a state loaded with a 20-byte key, whose IV has four bytes (R10, R136). -/
theorem bytes_loadAead_k20 {T : Tables} {v : AeadVariant} (hk : (aeadParams T v).k = 20) {I K N : List Byte}
    (hI : I.length = 4) (hiv : (aeadParams T v).iv = beWord I) (hK : K.length = 20) (hN : N.length = 16) :
    (loadAead T v K N).bytes = I ++ K ++ N := by
  have hlow : (K.take 4).length = 4 := by simp [hK]
  have hfirst : (beWord I <<< 32) ||| beWord (K.take 4) = beWord (I ++ K.take 4) := by rw [beWord_append, hlow]
  have hkey := bytes64_beWord_pair (B := K.drop 4) (by simp [hK])
  rw [List.drop_drop] at hkey
  conv_rhs => rw [← List.take_append_drop 4 K, ← hkey, ← bytes64_beWord_pair hN]
  simp only [loadAead, if_pos hk, Words.bytes, hiv, hfirst, List.append_assoc]
  rw [bytes64_beWord _ (by simp [hI, hK]), List.append_assoc]

/-- Settles O11: the IV of each row, written as bytes, before the key and the nonce. -/
theorem loadedStateIsIvKeyNonce : Obligations.LoadedStateIsIvKeyNonce := fun _ _ hN =>
  ⟨fun hK => bytes_loadAead_k16 (v := .v128) rfl hK hN, fun hK => bytes_loadAead_k16 (v := .v128a) rfl hK hN,
    fun hK => bytes_loadAead_k20 (v := .v80pq) rfl rfl rfl hK hN⟩

end Sys2Proof.Machine

/-! ## XOR of byte sequences, the tag comparison and the last block of DEC (41_sponge.md R143, R145) -/

namespace Sys2Proof.Machine

theorem xorBytes_append {A B C D : List Byte} (h : A.length = C.length) :
    xorBytes (A ++ B) (C ++ D) = xorBytes A C ++ xorBytes B D := List.zipWith_append h

/-- XORing twice with the same bytes gives the other bytes back. -/
theorem xorBytes_xorBytes_cancel {A B : List Byte} (h : A.length = B.length) : xorBytes A (xorBytes A B) = B := by
  refine List.ext_getElem (by simp [h]) fun j h1 h2 => ?_
  simp [xorBytes]

theorem xorBytes_replicate_zero (A : List Byte) : xorBytes A (List.replicate A.length 0) = A := by
  refine List.ext_getElem (by simp) fun j h1 h2 => ?_
  simp [xorBytes]

/-- A padded block XORed into a rate: its data, the marker on the byte after it, the rest as it was (R64). -/
theorem xorBytes_pad {r : Nat} {A B : List Byte} (hA : A.length = r) (hB : B.length < r) :
    xorBytes A (pad r B) =
      xorBytes (A.take B.length) B ++ (A.getD B.length 0 ^^^ 0x80) :: A.drop (B.length + 1) := by
  have hlt : B.length < A.length := hA ▸ hB
  have hrest : r - 1 - B.length = (A.drop (B.length + 1)).length := by rw [List.length_drop, hA]; omega
  conv_lhs => rw [← List.take_append_drop B.length A, List.drop_eq_getElem_cons hlt, pad, hrest,
    xorBytes_append (by rw [List.length_take]; omega)]
  rw [List.getD_eq_getElem _ _ hlt]
  congr 1
  exact congrArg (_ :: ·) (xorBytes_replicate_zero _)

/-- XOR into the rate leaves the capacity (R63). -/
theorem rateXor_capacity (r : Nat) (B : List Byte) (x : Words) :
    (rateXor r B x).x2 = x.x2 ∧ (rateXor r B x).x3 = x.x3 ∧ (rateXor r B x).x4 = x.x4 ∧
      (r = 8 → (rateXor r B x).x1 = x.x1) := by
  unfold rateXor
  split
  · next h => exact ⟨rfl, rfl, rfl, fun h8 => absurd (h.symm.trans h8) (by decide)⟩
  · exact ⟨rfl, rfl, rfl, fun _ => rfl⟩

/-- Settles O13: the plaintext XORed over its own rate bytes is the ciphertext again. -/
theorem lastBlockRestoresCiphertext : Obligations.LastBlockRestoresCiphertext := by
  intro r B x hr hB
  have hlen : ((rateGet r x).take B.length).length = B.length := by
    rw [List.length_take, rateGet_length hr]; omega
  have hP : (xorBytes ((rateGet r x).take B.length) B).length = B.length := by rw [xorBytes_length, hlen, min_self]
  obtain ⟨h2, h3, h4, h1⟩ := rateXor_capacity r (pad r (xorBytes ((rateGet r x).take B.length) B)) x
  refine ⟨?_, h2, h3, h4, h1⟩
  rw [duplexLast, rateGet_rateXor hr (pad_length (hP.trans_lt hB)), xorBytes_pad (rateGet_length hr x) (hP.trans_lt hB),
    hP, xorBytes_xorBytes_cancel hlen]

/-- A chain of ORs is 0 when every term is. -/
theorem foldl_or_eq_zero_iff (L : List Byte) (a : Byte) : L.foldl (· ||| ·) a = 0 ↔ a = 0 ∧ ∀ c ∈ L, c = 0 := by
  induction L generalizing a with
  | nil => simp
  | cons c L ih =>
    have hor : a ||| c = 0 ↔ a = 0 ∧ c = 0 := BitVec.or_eq_zero_iff
    rw [List.foldl_cons, ih, hor, List.forall_mem_cons, and_assoc]

theorem xorBytes_eq_zero_iff {A B : List Byte} (h : A.length = B.length) : (∀ c ∈ xorBytes A B, c = 0) ↔ A = B := by
  induction A generalizing B with
  | nil => simp [List.length_eq_zero_iff.mp h.symm, xorBytes]
  | cons a A ih =>
    obtain ⟨b, B, rfl⟩ := List.exists_cons_of_length_eq_add_one h.symm
    have hxor : a ^^^ b = 0 ↔ a = b := BitVec.xor_eq_zero_iff
    rw [xorBytes, List.zipWith_cons_cons, List.forall_mem_cons, hxor, List.cons.injEq]
    exact and_congr_right' (ih (by simpa using h))

theorem tagMatches_iff (T U : Vector Byte 16) : tagMatches T U = true ↔ T = U := by
  rw [tagMatches, beq_iff_eq, tagDiff, foldl_or_eq_zero_iff, and_iff_right rfl, xorBytes_eq_zero_iff (by simp),
    Vector.toList_inj]

/-- Settles O14: the mask follows the comparison, and the comparison is equality. -/
theorem tagComparisonIsEquality : Obligations.TagComparisonIsEquality := fun T U =>
  ⟨tagMatches_iff T U, fun h => if_pos ((tagMatches_iff T U).mpr h), fun h => if_neg (mt (tagMatches_iff T U).mp h)⟩

end Sys2Proof.Machine

/-! ## What is left of a command at each row of R132 (41_sponge.md R133) -/

namespace Sys2Proof.Machine

/-- The micro-steps from a row of R132 to completion, that row's own counted (R133). -/
def microsLeft (T : Tables) (o : Op) (adLen dLen : Nat) (phase : Phase) (blk : Nat) : Nat :=
  match o with
  | .perm _ => 1
  | .aead _ v =>
    let s := adBlocks adLen (aeadParams T v).r
    let t := textBlocks dLen (aeadParams T v).r
    match phase with
    | .uninitialized => s + t + 6
    | .initialized => s + t + 5
    | .absorbingAD => (s - blk) + t + 4
    | .absorbingText => (t - blk) + 3
    | .finalizing => 3 - blk
    | .done => 0
  | .hash v =>
    let t := textBlocks dLen (hashParams T v).r
    match phase with
    | .uninitialized => t + 7
    | .initialized => t + 6
    | .absorbingText => (t - blk) + 5
    | .finalizing => 5 - blk
    | .absorbingAD | .done => 0

/-- The permutation rounds from a row of R132 to completion (R133, 70_reset_and_hazards.md R262). -/
def roundsLeft (T : Tables) (o : Op) (adLen dLen : Nat) (phase : Phase) (blk : Nat) : Nat :=
  match o with
  | .perm r => r
  | .aead _ v =>
    let p := aeadParams T v
    let s := adBlocks adLen p.r
    let full := textBlocks dLen p.r - 1
    match phase with
    | .uninitialized => p.a + p.b * s + p.b * full + p.a
    | .initialized => p.b * s + p.b * full + p.a
    | .absorbingAD => p.b * (s - blk) + p.b * full + p.a
    | .absorbingText => p.b * (full - blk) + p.a
    | .finalizing => if blk = 0 then p.a else 0
    | .done => 0
  | .hash v =>
    let p := hashParams T v
    let full := textBlocks dLen p.r - 1
    match phase with
    | .uninitialized => p.a + p.b * full + p.a + 3 * p.b
    | .initialized => p.b * full + p.a + 3 * p.b
    | .absorbingText => p.b * (full - blk) + p.a + 3 * p.b
    | .finalizing => (3 - blk) * p.b
    | .absorbingAD | .done => 0

theorem microsLeft_start (T : Tables) (o : Op) (adLen dLen : Nat) (phase : Phase) :
    microsLeft T o adLen dLen (startingPhase o phase) 0 = microCount T o adLen dLen := by cases o <;> rfl

theorem roundsLeft_start (T : Tables) (o : Op) (adLen dLen : Nat) (phase : Phase) :
    roundsLeft T o adLen dLen (startingPhase o phase) 0 = roundCount T o adLen dLen := by cases o <;> rfl

section

variable {T : Tables} {adLen dLen blk : Nat} {o : Op} {phase : Phase} {m : MicroStep} {s : State}

/-- Every micro-step but the last leads to a row (R132). -/
theorem Row.next (row : Row T adLen dLen o phase blk m) (hc : completes m = false) :
    ∃ m', Row T adLen dLen o (phaseAfter T m phase blk dLen) (blkAfter T m blk dLen) m' := by
  obtain ⟨m', h⟩ := Option.isSome_iff_exists.mp (row.next_isSome hc)
  exact ⟨m', row_of_select h⟩

/-- A micro-step takes one off what is left, and after the last nothing is. -/
theorem Row.microsLeft_eq (row : Row T adLen dLen o phase blk m) :
    microsLeft T o adLen dLen phase blk =
      (if completes m then 0
        else microsLeft T o adLen dLen (phaseAfter T m phase blk dLen) (blkAfter T m blk dLen)) + 1 := by
  cases row with
  | spAdBlock d v _ h | spHashSqueeze v _ h =>
    simp only [microsLeft, completes, phaseAfter, blkAfter, Bool.false_eq_true, if_false]; omega
  | spTextBlock d v _ h =>
    simp only [microsLeft, completes, phaseAfter, blkAfter, textBlocks, Bool.false_eq_true, if_false]; omega
  | spHashBlock v _ h =>
    by_cases hfull : blk + 1 < textBlocks dLen (hashParams T v).r
    · simp only [microsLeft, completes, phaseAfter, blkAfter, if_pos hfull, Bool.false_eq_true, if_false]; omega
    · simp only [microsLeft, completes, phaseAfter, blkAfter, if_neg hfull, Bool.false_eq_true, if_false]; omega
  | _ => simp [microsLeft, completes, phaseAfter, blkAfter, textBlocks]

/-- A micro-step takes its rounds off what is left. -/
theorem Row.roundsLeft_eq (row : Row T adLen dLen o phase blk m) :
    roundsLeft T o adLen dLen phase blk = microRounds T m blk dLen +
      (if completes m then 0
        else roundsLeft T o adLen dLen (phaseAfter T m phase blk dLen) (blkAfter T m blk dLen)) := by
  have less {b n : Nat} (h : blk < n) : b * (n - blk) = b + b * (n - (blk + 1)) := by
    rw [show n - blk = n - (blk + 1) + 1 by omega, Nat.mul_succ, Nat.add_comm]
  cases row with
  | spAdBlock d v _ h => simp [roundsLeft, microRounds, completes, phaseAfter, blkAfter, less h, Nat.add_assoc]
  | spTextBlock d v _ h =>
    simp [roundsLeft, microRounds, completes, phaseAfter, blkAfter, textBlocks, less h, Nat.add_assoc]
  | spHashBlock v _ h =>
    by_cases hfull : blk + 1 < textBlocks dLen (hashParams T v).r
    · have hless := less (b := (hashParams T v).b) (Nat.lt_sub_of_add_lt hfull)
      simp [roundsLeft, microRounds, completes, phaseAfter, blkAfter, hfull, hless, Nat.add_assoc]
    · have hlast : textBlocks dLen (hashParams T v).r - 1 - blk = 0 := by omega
      simp [roundsLeft, microRounds, completes, phaseAfter, blkAfter, hfull, hlast]
  | spHashSqueeze v _ h =>
    by_cases h3 : blk < 3
    · simp [roundsLeft, microRounds, completes, phaseAfter, blkAfter, h3, Nat.mul_comm _ (hashParams T v).b, less h3]
    · have hlast : 3 - blk = 0 ∧ 3 - (blk + 1) = 0 := by omega
      simp [roundsLeft, microRounds, completes, phaseAfter, blkAfter, h3, hlast]
  | _ => simp [roundsLeft, microRounds, completes, phaseAfter, blkAfter, textBlocks, Nat.add_assoc]

/-- Induction over a command in flight: what holds before the completing micro-step, and before any other one when it
holds after it, holds at every row. -/
theorem Awaits.induction {P : Phase → Nat → State → Prop}
    (last : ∀ phase blk s m, Awaits T adLen dLen o phase blk s → Row T adLen dLen o phase blk m → completes m = true →
      P phase blk s)
    (next : ∀ phase blk s m, Awaits T adLen dLen o phase blk s → Row T adLen dLen o phase blk m → completes m = false →
      P (phaseAfter T m phase blk dLen) (blkAfter T m blk dLen) (Machine.perform m s) → P phase blk s)
    (h : Awaits T adLen dLen o phase blk s) (row : Row T adLen dLen o phase blk m) : P phase blk s := by
  induction hn : microsLeft T o adLen dLen phase blk generalizing phase blk s m with
  | zero => rw [row.microsLeft_eq] at hn; cases hn
  | succ n ih =>
    cases hc : completes m with
    | true => exact last _ _ _ _ h row hc
    | false =>
      obtain ⟨m', row'⟩ := row.next hc
      rw [row.microsLeft_eq, hc, Nat.add_right_cancel_iff] at hn
      exact next _ _ _ _ h row hc (ih (h.perform hc) row' hn)

/-- From every row the sequencer reaches completion, in the micro-steps that are left (R133). -/
theorem Awaits.runMicro_microsLeft (h : Awaits T adLen dLen o phase blk s) (row : Row T adLen dLen o phase blk m) :
    ∃ t, runMicro (microsLeft T o adLen dLen phase blk) s = some t ∧ t.busy = false ∧ t.done = true := by
  apply h.induction _ _ row
  · intro phase blk s m h row hc
    have c := perform_control m s
    rw [row.microsLeft_eq, hc]
    exact ⟨_, h.run_one row, by simp [c.busy, hc], by simp [c.done, hc]⟩
  · intro phase blk s m h row hc ⟨t, run, ht⟩
    rw [row.microsLeft_eq, hc]
    exact ⟨t, runMicro_succ h.busy (h.nextMicro row) run, ht⟩

theorem microTrace_idle (n : Nat) (hb : s.busy = false) : microTrace n s = [] := by
  cases n <;> simp [microTrace, hb]

/-- One more entry in front of a trace (R263). -/
theorem microTrace_succ (n : Nat) (hb : s.busy = true) (hm : nextMicro s = some m) :
    microTrace (n + 1) s =
      ⟨m, s.blk, s.rnd, microRounds s.tables m s.blk s.dLen, accesses s.tables m s.blk s.adLen s.dLen⟩ ::
        microTrace n (perform m s) := by
  simp [microTrace, hb, hm]

/-- A trace that reaches completion lists the micro-steps and the rounds that are left (R133, R262). -/
theorem Awaits.microTrace_counts (h : Awaits T adLen dLen o phase blk s) (row : Row T adLen dLen o phase blk m) :
    ∀ n, microsLeft T o adLen dLen phase blk ≤ n →
      (microTrace n s).length = microsLeft T o adLen dLen phase blk ∧
        ((microTrace n s).map (·.rounds)).sum = roundsLeft T o adLen dLen phase blk := by
  apply h.induction _ _ row
  · intro phase blk s m h row hc n hn
    have hidle : (Machine.perform m s).busy = false := by simp [(perform_control m s).busy, hc]
    rw [row.microsLeft_eq, hc] at hn ⊢
    obtain ⟨n, rfl⟩ := Nat.exists_eq_add_of_lt hn
    rw [row.roundsLeft_eq, hc, microTrace_succ _ h.busy (h.nextMicro row), microTrace_idle _ hidle]
    obtain ⟨-, -, rfl, -, rfl, -, rfl⟩ := h
    exact ⟨rfl, rfl⟩
  · intro phase blk s m h row hc rest n hn
    rw [row.microsLeft_eq, hc] at hn ⊢
    obtain ⟨n, rfl⟩ := Nat.exists_eq_add_of_lt hn
    obtain ⟨hcount, hrounds⟩ := rest _ (Nat.le_add_right _ n)
    rw [row.roundsLeft_eq, hc, microTrace_succ _ h.busy (h.nextMicro row)]
    obtain ⟨-, -, rfl, -, rfl, -, rfl⟩ := h
    exact ⟨congrArg (· + 1) hcount, congrArg (_ + ·) hrounds⟩

end

/-! ## Whole commands (R133, 44_host_interface.md R202) -/

/-- The last micro-step of every command lets BUSY fall. -/
theorem bodyOf_busy (i : Instr) (s : State) : (bodyOf i s).busy = false := by
  cases i <;> rfl

/-- Settles O19: the micro-steps from acceptance compose to the body of the command. -/
theorem commandIsItsMicroSteps : Obligations.CommandIsItsMicroSteps := fun i s hr hc hb =>
  ⟨bodyOf i (accepted i s), runMicro_accepted hc hb, bodyOf_busy i _, exec_accepted hr hc⟩

/-- A PERM that the decoder gives has at most twelve rounds (R93). -/
theorem opOf_perm_le {i : Instr} (hwf : i.wellFormed = true) {r : Nat} (ho : opOf i = .perm r) : r ≤ 12 := by
  cases i with
  | perm r' => cases ho; exact (wellFormed_perm_iff.mp hwf).2
  | _ => cases ho

/-- A micro-step of the table runs at most the twelve rounds of the schedule (R116). -/
theorem Row.microRounds_le {T : Tables} {adLen dLen blk : Nat} {o : Op} {phase : Phase} {m : MicroStep}
    (row : Row T adLen dLen o phase blk m) (hperm : ∀ r, o = .perm r → r ≤ 12) : microRounds T m blk dLen ≤ 12 := by
  cases row with
  | permRun r => exact hperm r rfl
  | spInit d v | spFinal d v => exact aead_a_le T v
  | spAdBlock d v | spTextBlock d v => exact aead_b_le T v
  | spHashInit v => exact hash_a_le T v
  | spHashBlock v =>
    rw [microRounds]
    split_ifs
    · exact hash_b_le T v
    · exact hash_a_le T v
  | spHashSqueeze v =>
    rw [microRounds]
    split_ifs
    · exact hash_b_le T v
    · exact Nat.zero_le 12
  | spAdBegin | spDomSep | spTextLast | spTag | spRelease | spHashBegin | spHashRelease => exact Nat.zero_le 12

theorem microRounds_le_of_nextMicro {s : State} {m : MicroStep} (hm : nextMicro s = some m) :
    microRounds s.tables m s.blk s.dLen ≤ 12 := by
  cases hd : decode s.cmd with
  | illegal y => simp [nextMicro, hd] at hm
  | legal i =>
    exact ((nextMicro_eq_some_iff hd).mp hm).microRounds_le fun _ => opOf_perm_le (decode_eq_legal_iff.mp hd).1

/-- Settles O20: acceptance stands at the first row, where all of the command is left; and the count of rounds that
`perform_x` caps at twelve is never above it. -/
theorem commandWorkIsCounted : Obligations.CommandWorkIsCounted := by
  refine ⟨fun i s n _ hc hb hn => ?_, fun s m hm => ?_⟩
  · obtain ⟨m, hrow⟩ := Option.isSome_iff_exists.mp (select_start s.tables (opOf i) s.phase s.adLen s.dLen)
    have counts := (accepted_awaits hc hb).microTrace_counts (row_of_select hrow) n
    rw [microsLeft_start, roundsLeft_start] at counts
    exact counts hn
  · rw [perform_x, min_eq_left (microRounds_le_of_nextMicro hm)]

/-- Settles O57: a running block of the invariant stands at a row, and every row leads to completion. -/
theorem holdIsNeverPermanent : Obligations.HoldIsNeverPermanent := by
  intro s h hb
  obtain ⟨m, hm⟩ := Option.isSome_iff_exists.mp (h.running hb).row
  obtain ⟨i, hd, -, -, row⟩ := h.row hb hm
  exact ⟨_, Awaits.runMicro_microsLeft ⟨hb, ⟨i, hd, rfl⟩, rfl, rfl, rfl, rfl, rfl⟩ row⟩

end Sys2Proof.Machine

/-! ## The duplex in the two directions (41_sponge.md R142, R143, R152) -/

namespace Sys2Proof.Machine

/-- Setting the rate to what an XOR made of it is that XOR (R63). -/
theorem rateSet_rateGet_rateXor {r : Nat} (hr : r = 8 ∨ r = 16) (B : List Byte) (x : Words) :
    rateSet r (rateGet r (rateXor r B x)) x = rateXor r B x := by
  rcases hr with rfl | rfl
  · have whole (w : Word) : (bytes64 w).take 8 = bytes64 w := rfl
    simp [rateSet, rateGet, rateXor, whole, beWord_bytes64]
  · have first (v w : Word) : (bytes64 v ++ bytes64 w).take 8 = bytes64 v := rfl
    have second (v w : Word) : ((bytes64 v ++ bytes64 w).drop 8).take 8 = bytes64 w := rfl
    simp only [rateSet, rateGet, rateXor, if_pos, first, second, beWord_bytes64]

/-- DEC of a ciphertext block leaves the words that ENC of the plaintext block leaves (R142). -/
theorem duplexBlock_dec_enc {r : Nat} (hr : r = 8 ∨ r = 16) (B : List Byte) (x : Words) :
    (duplexBlock .dec r (duplexBlock .enc r B x).2 x).1 = (duplexBlock .enc r B x).1 :=
  rateSet_rateGet_rateXor hr B x

/-- The ciphertext of the last block: the XOR with as many rate bytes (R143). -/
theorem duplexLast_enc_snd {r : Nat} (hr : r = 8 ∨ r = 16) {B : List Byte} (hB : B.length < r) (x : Words) :
    (duplexLast .enc r B x).2 = xorBytes ((rateGet r x).take B.length) B := by
  rw [duplexLast, rateGet_rateXor hr (pad_length hB), xorBytes_pad (rateGet_length hr x) hB]
  exact List.take_left' (by rw [xorBytes_length, List.length_take, rateGet_length hr]; omega)

/-- DEC of the last ciphertext block leaves the words that ENC of the last plaintext block leaves (R143). -/
theorem duplexLast_dec_enc {r : Nat} (hr : r = 8 ∨ r = 16) {B : List Byte} (hB : B.length < r) (x : Words) :
    (duplexLast .dec r (duplexLast .enc r B x).2 x).1 = (duplexLast .enc r B x).1 := by
  have hlen : ((rateGet r x).take B.length).length = B.length := by
    rw [List.length_take, rateGet_length hr]; omega
  rw [duplexLast_enc_snd hr hB]
  simp only [duplexLast, xorBytes_length, hlen, min_self, xorBytes_xorBytes_cancel hlen]

section

variable (T : Tables) (d : Dir) (v : AeadVariant) (D : List Byte) (x : Words)

/-- A full block in front of a text: that block, and then the text (R142). -/
theorem duplexText_append {A : List Byte} (hA : A.length = (aeadParams T v).r) :
    (duplexText T d v (A ++ D) x).2 =
      (duplexBlock d (aeadParams T v).r A x).2 ++
        (duplexText T d v D (permute T (aeadParams T v).b (duplexBlock d (aeadParams T v).r A x).1)).2 := by
  have hblocks : (A ++ D).length / (aeadParams T v).r = D.length / (aeadParams T v).r + 1 := by
    rw [List.length_append, hA, Nat.add_div_left _ (aead_r_pos T v)]
  have hdrop (n : Nat) : (A ++ D).drop ((aeadParams T v).r * (n + 1)) = D.drop ((aeadParams T v).r * n) := by
    rw [Nat.mul_succ, Nat.add_comm, ← List.drop_drop, List.drop_left' hA]
  simp only [duplexText, hblocks, duplexFull, hdrop, List.take_left' hA, List.drop_left' hA, List.append_assoc]

/-- A text shorter than a block is the last block (R143). -/
theorem duplexText_short (h : D.length < (aeadParams T v).r) :
    duplexText T d v D x = duplexLast d (aeadParams T v).r D x := by
  simp only [duplexText, Nat.div_eq_of_lt h, duplexFull, Nat.mul_zero, List.drop_zero, List.nil_append]

theorem duplexText_length : (duplexText T d v D x).2.length = D.length := by
  have hlast : (D.drop ((aeadParams T v).r * (D.length / (aeadParams T v).r))).length < (aeadParams T v).r := by
    rw [List.length_drop, ← Nat.mod_eq_sub_mul_div]
    exact Nat.mod_lt _ (aead_r_pos T v)
  simp only [duplexText, List.length_append]
  rw [duplexFull_length d v _ D x (Nat.mul_div_le ..), duplexLast_length d (aead_r_cases T v) hlast, List.length_drop]
  exact Nat.add_sub_cancel' (Nat.mul_div_le ..)

end

/-! ## The words when the text begins (R138, R141) -/

/-- All the blocks of the associated data, the padded one last (R138). -/
theorem times_spAdBlock_all (v : AeadVariant) {s : State} (hrnd : s.rnd = 12) (hblk : s.blk = 0) :
    (times (adBlocks s.adLen (aeadParams s.tables v).r) (spAdBlock v) s).x = absorbAd s.tables v (adBytes s) s.x := by
  by_cases hlen : s.adLen = 0
  · have hnil : adBytes s = [] := by rw [adBytes, hlen]; rfl
    rw [adBlocks, if_pos hlen, absorbAd, if_pos hnil]; rfl
  · have hbytes : (adBytes s).length = s.adLen := memRead_length ..
    have hne : adBytes s ≠ [] := fun e => hlen (by rw [← hbytes, e]; rfl)
    have hblocks : adBlocks s.adLen (aeadParams s.tables v).r = s.adLen / (aeadParams s.tables v).r + 1 := if_neg hlen
    have hlast : block .ad s.adLen (aeadParams s.tables v).r (s.adLen / (aeadParams s.tables v).r) s =
        (adBytes s).drop ((aeadParams s.tables v).r * (s.adLen / (aeadParams s.tables v).r)) := by
      rw [adBytes, memRead_drop, block, blockLen_last (aead_r_pos _ v), Nat.mod_eq_sub_mul_div, Nat.zero_add]
    rw [hblocks, times_succ, times_spAdBlock v _ s hrnd (by rw [hblk, Nat.zero_add]), spAdBlock_eq]
    simp only [hblk, Nat.zero_add, hblocks, if_true, Nat.mul_zero, Nat.sub_zero]
    rw [absorbAd, if_neg hne, hbytes, ← hlast]
    rfl

/-- The words at which the text begins, or the words now when it has: what the micro-steps before the text make of `s`
at PHASE and BLK. -/
def wordsAtText (v : AeadVariant) (phase : Phase) (blk : Nat) (s : State) : Words :=
  let blocks := adBlocks s.adLen (aeadParams s.tables v).r
  match phase with
  | .uninitialized => (spDomSep (times blocks (spAdBlock v) (spAdBegin (spInit v s)))).x
  | .initialized => (spDomSep (times blocks (spAdBlock v) (spAdBegin s))).x
  | .absorbingAD => (spDomSep (times (blocks - blk) (spAdBlock v) s)).x
  | .absorbingText | .finalizing | .done => s.x

theorem wordsAtText_start (v : AeadVariant) (s : State) :
    wordsAtText v .uninitialized 0 s =
      separate (absorbAd s.tables v (adBytes s) (initAead s.tables v (keyBytes s.tables v s.key) s.nonce.toList)) := by
  have hinit := spInit_eq v s
  have all := times_spAdBlock_all v (s := spAdBegin (spInit v s)) (by rw [hinit]; rfl) rfl
  rw [hinit] at all
  rw [wordsAtText, hinit]
  exact congrArg separate all

/-- The bytes of DIN that are not yet duplexed at PHASE and BLK. -/
def textLeft (r : Nat) (phase : Phase) (blk : Nat) (s : State) : List Byte :=
  match phase with
  | .absorbingText => memRead .din (r * blk) (s.dLen - r * blk) s
  | .uninitialized | .initialized | .absorbingAD => dinBytes s
  | .finalizing | .done => []

/-- The micro-step of DEC at the row of a micro-step of ENC (R132). -/
def MicroStep.mirror : MicroStep → MicroStep
  | .spTextBlock _ v => .spTextBlock .dec v
  | .spTextLast _ v => .spTextLast .dec v
  | .spTag _ => .spTag .dec
  | m => m

theorem completes_mirror (m : MicroStep) : completes m.mirror = completes m := by cases m <;> rfl

theorem phaseAfter_mirror (T : Tables) (m : MicroStep) (phase : Phase) (blk dLen : Nat) :
    phaseAfter T m.mirror phase blk dLen = phaseAfter T m phase blk dLen := by cases m <;> rfl

theorem blkAfter_mirror (T : Tables) (m : MicroStep) (blk dLen : Nat) :
    blkAfter T m.mirror blk dLen = blkAfter T m blk dLen := by cases m <;> rfl

theorem microRounds_mirror (T : Tables) (m : MicroStep) (blk dLen : Nat) :
    microRounds T m.mirror blk dLen = microRounds T m blk dLen := by cases m <;> rfl

theorem Row.mirror {T : Tables} {adLen dLen blk : Nat} {v : AeadVariant} {phase : Phase} {m : MicroStep}
    (row : Row T adLen dLen (.aead .enc v) phase blk m) : Row T adLen dLen (.aead .dec v) phase blk m.mirror := by
  cases row with
  | spInit => exact .spInit _ v
  | spAdBegin => exact .spAdBegin _ v
  | spAdBlock _ _ _ h => exact .spAdBlock _ v _ h
  | spDomSep => exact .spDomSep _ v
  | spTextBlock _ _ _ h => exact .spTextBlock _ v _ h
  | spTextLast => exact .spTextLast _ v
  | spFinal => exact .spFinal _ v
  | spTag => exact .spTag _ v
  | spRelease => exact .spRelease _ v

/-- KEY is kept until the release (R146). -/
theorem perform_key {m : MicroStep} (hm : m ≠ .spRelease) (s : State) : (perform m s).key = s.key := by
  cases m with
  | permRun r => rw [perform, permRun_eq_min]
  | spInit v => rw [perform, spInit_eq]
  | spAdBlock v => rw [perform, spAdBlock_eq]
  | spTextBlock d v => rw [perform, spTextBlock_eq]
  | spFinal v => rw [perform, spFinal_eq]
  | spTag d => cases d <;> rfl
  | spRelease => exact absurd rfl hm
  | spHashInit v => rw [perform, spHashInit_eq]
  | spHashBlock v =>
    by_cases hb : s.blk + 1 < textBlocks s.dLen (hashParams s.tables v).r
    · rw [perform, spHashBlock_full v s hb]
    · rw [perform, spHashBlock_last v s hb]
  | spHashSqueeze v => rw [perform, spHashSqueeze_eq]
  | spAdBegin | spDomSep | spTextLast | spHashBegin | spHashRelease => rfl

/-- The associated data and the text are read from what no micro-step changes. -/
theorem MicroKept.memRead {s t : State} (h : MicroKept s t) {b : Buf} (hb : b ≠ .dout) (o n : Nat) :
    memRead b o n t = memRead b o n s := by
  cases b with
  | ad => simp only [Machine.memRead, bufOf, h.ad, h.env]
  | din => simp only [Machine.memRead, bufOf, h.din, h.env]
  | dout => exact absurd rfl hb

/-- An ENC at `u` and the matching DEC at `w`, after as many micro-steps: the text that DEC has still to read is the
ciphertext that ENC has still to write (R152). Before SP_INIT the words may be any. -/
structure Mirrored (T : Tables) (adLen dLen : Nat) (v : AeadVariant) (phase : Phase) (blk : Nat) (u w : State) :
    Prop where
  enc : Awaits T adLen dLen (.aead .enc v) phase blk u
  dec : Awaits T adLen dLen (.aead .dec v) phase blk w
  x : phase ≠ .uninitialized → u.x = w.x
  key : keyBytes T v u.key = keyBytes T v w.key
  nonce : u.nonce = w.nonce
  ad : adBytes u = adBytes w
  text : phase ≠ .finalizing → textLeft (aeadParams T v).r phase blk w =
    (duplexText T .enc v (textLeft (aeadParams T v).r phase blk u) (wordsAtText v phase blk u)).2

/-- A block of a stream, cut from the stream (R65). -/
theorem block_eq_take_drop (b : Buf) (len r j : Nat) (s : State) :
    block b len r j s = ((memRead b 0 len s).drop (r * j)).take r := by
  rw [memRead_drop, List.take_eq_take_min, memRead_length, memRead_take _ _ _ _ _ (min_le_right ..), Nat.zero_add]
  rfl

theorem textLeft_perform (r : Nat) (phase : Phase) (blk : Nat) (m : MicroStep) (s : State) :
    textLeft r phase blk (perform m s) = textLeft r phase blk s := by
  have k := perform_kept m s
  have hread := k.memRead (b := .din) nofun
  cases phase <;> simp only [textLeft, dinBytes, hread, k.dLen]

theorem textLeft_absorbingText_zero (r : Nat) (s : State) : textLeft r .absorbingText 0 s = dinBytes s := rfl

/-- SP_TEXT_BLOCK reads the front of the text left, and leaves the rest (R142). -/
theorem textLeft_block {r len blk : Nat} {s : State} (hs : s.dLen = len) (h : blk < len / r) :
    textLeft r .absorbingText blk s = memRead .din (r * blk) r s ++ textLeft r .absorbingText (blk + 1) s := by
  subst hs
  have hfull : r * blk + r ≤ s.dLen := mul_add_le_of_lt_div h
  have hsplit : s.dLen - r * blk = r + (s.dLen - r * (blk + 1)) := by rw [Nat.mul_succ]; omega
  rw [textLeft, hsplit, memRead_append]
  rfl

/-- SP_TEXT_LAST reads all the text left (R143). -/
theorem textLeft_last {r len : Nat} {s : State} (h : s.dLen = len) :
    memRead .din (r * (len / r)) (len % r) s = textLeft r .absorbingText (len / r) s := by
  rw [textLeft, h, Nat.mod_eq_sub_mul_div]

/-- The micro-steps before the text lead to the same words at the text. -/
theorem wordsAtText_perform {d : Dir} {v : AeadVariant} {phase : Phase} {blk : Nat} {m : MicroStep} {s : State}
    (row : Row s.tables s.adLen s.dLen (.aead d v) phase blk m)
    (hp : phase = .uninitialized ∨ phase = .initialized ∨ phase = .absorbingAD) :
    wordsAtText v (phaseAfter s.tables m phase blk s.dLen) (blkAfter s.tables m blk s.dLen) (perform m s) =
      wordsAtText v phase blk s := by
  have k := perform_kept m s
  have hblocks : adBlocks (perform m s).adLen (aeadParams (perform m s).tables v).r =
      adBlocks s.adLen (aeadParams s.tables v).r := by rw [k.adLen, State.tables, k.env]
  cases row with
  | spInit | spAdBegin => simp only [wordsAtText, phaseAfter, blkAfter, hblocks]; rfl
  | spAdBlock _ _ _ h =>
    have hleft : adBlocks s.adLen (aeadParams s.tables v).r - blk =
      adBlocks s.adLen (aeadParams s.tables v).r - (blk + 1) + 1 := by omega
    simp only [wordsAtText, phaseAfter, blkAfter, hblocks, hleft]
    rfl
  | spDomSep => simp only [wordsAtText, phaseAfter, Nat.sub_self]; rfl
  | spTextBlock | spTextLast | spFinal | spTag | spRelease => simp at hp

section

variable {T : Tables} {adLen dLen blk : Nat} {v : AeadVariant} {phase : Phase} {m : MicroStep} {u w : State}

/-- The block that DEC reads is the one that ENC writes, and the rest of the two texts stay ciphertext and plaintext
(R142). -/
theorem Mirrored.text_block (h : Mirrored T adLen dLen v .absorbingText blk u w)
    (hb : blk < dLen / (aeadParams T v).r) :
    let res := duplexBlock .enc (aeadParams T v).r (memRead .din ((aeadParams T v).r * blk) (aeadParams T v).r u) u.x
    memRead .din ((aeadParams T v).r * blk) (aeadParams T v).r w = res.2 ∧
      textLeft (aeadParams T v).r .absorbingText (blk + 1) w =
        (duplexText T .enc v (textLeft (aeadParams T v).r .absorbingText (blk + 1) u)
          (permute T (aeadParams T v).b res.1)).2 := by
  have hC := h.text nofun
  rw [textLeft_block h.enc.dLen hb, textLeft_block h.dec.dLen hb,
    duplexText_append _ _ _ _ _ (memRead_length ..)] at hC
  refine List.append_inj hC ?_
  rw [memRead_length, duplexBlock_length .enc (aead_r_cases T v) (memRead_length ..)]

/-- The last block that DEC reads is the one that ENC writes (R143). -/
theorem Mirrored.text_last (h : Mirrored T adLen dLen v .absorbingText (dLen / (aeadParams T v).r) u w) :
    memRead .din ((aeadParams T v).r * (dLen / (aeadParams T v).r)) (dLen % (aeadParams T v).r) w =
      (duplexLast .enc (aeadParams T v).r
        (memRead .din ((aeadParams T v).r * (dLen / (aeadParams T v).r)) (dLen % (aeadParams T v).r) u) u.x).2 := by
  have hC := h.text nofun
  rw [← textLeft_last h.enc.dLen, ← textLeft_last h.dec.dLen, duplexText_short] at hC
  · exact hC
  · rw [memRead_length]; exact Nat.mod_lt _ (aead_r_pos T v)

/-- The words on which the rounds of one row start are the same: the duplex in its two directions is the one place where
the micro-steps differ. -/
theorem Mirrored.wordsBefore (h : Mirrored T adLen dLen v phase blk u w)
    (row : Row T adLen dLen (.aead .enc v) phase blk m) : wordsBefore m u = wordsBefore m.mirror w := by
  obtain ⟨-, -, uT, uad, udLen, -, ublk⟩ := h.enc
  obtain ⟨-, -, wT, wad, wdLen, -, wblk⟩ := h.dec
  have hr := aead_r_cases T v
  cases row with
  | spInit => simp only [Machine.wordsBefore, MicroStep.mirror, uT, wT, h.key, h.nonce]
  | spAdBegin | spDomSep | spTag | spRelease => exact h.x nofun
  | spFinal => simp only [Machine.wordsBefore, MicroStep.mirror, uT, wT, h.key, h.x nofun]
  | spAdBlock =>
    have had := h.ad
    rw [adBytes, adBytes, uad, wad] at had
    simp only [Machine.wordsBefore, MicroStep.mirror, uT, wT, uad, wad, ublk, wblk, h.x nofun, block_eq_take_drop, had]
  | spTextBlock _ _ _ hb =>
    simp only [Machine.wordsBefore, MicroStep.mirror, uT, wT, ublk, wblk, (h.text_block hb).1, ← h.x nofun]
    exact (duplexBlock_dec_enc hr _ _).symm
  | spTextLast =>
    simp only [Machine.wordsBefore, MicroStep.mirror, uT, wT, ublk, wblk, udLen, wdLen, h.text_last, ← h.x nofun]
    exact (duplexLast_dec_enc hr (by rw [memRead_length]; exact Nat.mod_lt _ (aead_r_pos T v)) _).symm

theorem Mirrored.wordsAfter (h : Mirrored T adLen dLen v phase blk u w)
    (row : Row T adLen dLen (.aead .enc v) phase blk m) (x : Words) : wordsAfter m u x = wordsAfter m.mirror w x := by
  cases row with
  | spInit | spFinal => simp only [Machine.wordsAfter, MicroStep.mirror, h.enc.tables, h.dec.tables, h.key]
  | spAdBegin | spAdBlock | spDomSep | spTextBlock | spTextLast | spTag | spRelease => rfl

/-- After the micro-step of one row the words are the same (R152). -/
theorem Mirrored.perform_x (h : Mirrored T adLen dLen v phase blk u w)
    (row : Row T adLen dLen (.aead .enc v) phase blk m) : (perform m u).x = (perform m.mirror w).x := by
  rw [Machine.perform_x, Machine.perform_x, h.wordsBefore row, h.wordsAfter row, h.enc.tables, h.dec.tables, h.enc.blk,
    h.dec.blk, h.enc.dLen, h.dec.dLen, microRounds_mirror]

theorem Mirrored.perform_text (h : Mirrored T adLen dLen v phase blk u w)
    (row : Row T adLen dLen (.aead .enc v) phase blk m) (hc : completes m = false)
    (hp : phaseAfter T m phase blk dLen ≠ .finalizing) :
    textLeft (aeadParams T v).r (phaseAfter T m phase blk dLen) (blkAfter T m blk dLen) (perform m.mirror w) =
      (duplexText T .enc v
        (textLeft (aeadParams T v).r (phaseAfter T m phase blk dLen) (blkAfter T m blk dLen) (perform m u))
        (wordsAtText v (phaseAfter T m phase blk dLen) (blkAfter T m blk dLen) (perform m u))).2 := by
  obtain ⟨-, -, rfl, rfl, rfl, -, ublk⟩ := h.enc
  have hC := h.text
  rw [textLeft_perform, textLeft_perform]
  cases row with
  | spInit => rw [wordsAtText_perform (.spInit .enc v) (by simp)]; exact hC nofun
  | spAdBegin => rw [wordsAtText_perform (.spAdBegin .enc v) (by simp)]; exact hC nofun
  | spAdBlock _ _ _ hb => rw [wordsAtText_perform (.spAdBlock .enc v _ hb) (by simp)]; exact hC nofun
  | spDomSep => rw [wordsAtText_perform (.spDomSep .enc v) (by simp)]; exact hC nofun
  | spTextBlock _ _ _ hb =>
    have hx : (perform (.spTextBlock .enc v) u).x = permute u.tables (aeadParams u.tables v).b
        (duplexBlock .enc (aeadParams u.tables v).r
          (memRead .din ((aeadParams u.tables v).r * blk) (aeadParams u.tables v).r u) u.x).1 := by
      rw [perform, spTextBlock_eq, ublk]
    simp only [phaseAfter, blkAfter, wordsAtText, hx]
    exact (h.text_block hb).2
  | spTextLast | spFinal | spTag => exact absurd rfl hp
  | spRelease => cases hc

/-- The micro-step of one row takes an ENC and its DEC to the next row. -/
theorem Mirrored.perform (h : Mirrored T adLen dLen v phase blk u w)
    (row : Row T adLen dLen (.aead .enc v) phase blk m) (hc : completes m = false) :
    Mirrored T adLen dLen v (phaseAfter T m phase blk dLen) (blkAfter T m blk dLen) (perform m u)
      (perform m.mirror w) := by
  have ku := perform_kept m u
  have kw := perform_kept m.mirror w
  have hc' : completes m.mirror = false := (completes_mirror m).trans hc
  have ne_release {m' : MicroStep} (h' : completes m' = false) : m' ≠ .spRelease := by rintro rfl; cases h'
  have dec := h.dec.perform hc'
  rw [phaseAfter_mirror, blkAfter_mirror] at dec
  exact {
    enc := h.enc.perform hc
    dec := dec
    x := fun _ => h.perform_x row
    key := by rw [perform_key (ne_release hc), perform_key (ne_release hc')]; exact h.key
    nonce := by rw [ku.nonce, kw.nonce]; exact h.nonce
    ad := by
      rw [adBytes, adBytes, ku.adLen, kw.adLen, ku.memRead (b := .ad) nofun, kw.memRead (b := .ad) nofun]
      exact h.ad
    text := h.perform_text row hc }

theorem runMicro_idle (n : Nat) {s : State} (hb : s.busy = false) : runMicro (n + 1) s = none := by
  simp [runMicro, hb]

theorem Awaits.runMicro_succ_eq {o : Op} {s : State} (h : Awaits T adLen dLen o phase blk s)
    (row : Row T adLen dLen o phase blk m) (n : Nat) : runMicro (n + 1) s = runMicro n (Machine.perform m s) := by
  simp [runMicro, h.busy, h.nextMicro row]

/-- Step for step the two directions have the same words, and they end together (R152). -/
theorem Mirrored.runMicro_x (h : Mirrored T adLen dLen v phase blk u w)
    (row : Row T adLen dLen (.aead .enc v) phase blk m) (n : Nat) :
    (runMicro (n + 1) u).map (·.x) = (runMicro (n + 1) w).map (·.x) := by
  induction n generalizing phase blk m u w with
  | zero =>
    rw [h.enc.run_one row, h.dec.run_one row.mirror]
    exact congrArg some (h.perform_x row)
  | succ n ih =>
    rw [h.enc.runMicro_succ_eq row, h.dec.runMicro_succ_eq row.mirror]
    cases hc : completes m with
    | true =>
      rw [runMicro_idle n (by simp [(perform_control m u).busy, hc]),
        runMicro_idle n (by simp [(perform_control m.mirror w).busy, completes_mirror, hc])]
    | false =>
      obtain ⟨m', row'⟩ := row.next hc
      exact ih (h.perform row hc) row'

end

/-- An accepted ENC or DEC stands at SP_INIT, whatever BLK was (R207). -/
theorem accepted_awaits_aead {i : Instr} {d : Dir} {v : AeadVariant} (hwf : i.wellFormed = true)
    (ho : opOf i = .aead d v) (s : State) :
    Awaits s.tables s.adLen s.dLen (.aead d v) .uninitialized 0 (accepted i s) := by
  rw [accepted_sponge (by simp [ho])]
  exact ⟨rfl, ⟨i, decode_encode hwf, ho⟩, rfl, rfl, rfl, rfl, rfl⟩

/-- An ENC of a plaintext and a DEC of its ciphertext, just accepted. -/
theorem mirrored_accepted {v : AeadVariant} {s t : State} (htables : s.tables = t.tables)
    (hkey : keyBytes s.tables v s.key = keyBytes t.tables v t.key) (hnonce : s.nonce = t.nonce)
    (had : adBytes s = adBytes t)
    (htext : dinBytes t =
      (encrypt s.tables v (keyBytes s.tables v s.key) s.nonce.toList (adBytes s) (dinBytes s)).1) :
    Mirrored s.tables s.adLen s.dLen v .uninitialized 0 (accepted (encOf v) s) (accepted (decOf v) t) := by
  have hadLen : s.adLen = t.adLen := by simpa [adBytes] using congrArg List.length had
  have hdLen : t.dLen = s.dLen := by
    simpa [dinBytes, encrypt, duplex, duplexText_length] using congrArg List.length htext
  have dec := accepted_awaits_aead (wellFormed_decOf v) (opOf_decOf v) t
  rw [← htables, ← hadLen, hdLen] at dec
  refine ⟨accepted_awaits_aead (wellFormed_encOf v) (opOf_encOf v) s, dec, fun h => absurd rfl h, ?_, ?_, ?_,
    fun _ => ?_⟩
  all_goals rw [accepted_sponge (by simp) s, accepted_sponge (by simp) t]
  · rw [htables] at hkey ⊢
    exact hkey
  · exact hnonce
  · exact had
  · rw [wordsAtText_start]
    exact htext

/-- Settles O24: an accepted ENC and the DEC of its ciphertext are mirrored, and each micro-step keeps them so. -/
theorem directionsVisitTheSameStates : Obligations.DirectionsVisitTheSameStates := by
  intro v s t _ _ htables hkey hnonce had htext n hn
  obtain ⟨n, rfl⟩ := Nat.exists_eq_add_of_le' hn
  exact (mirrored_accepted htables hkey hnonce had htext).runMicro_x (.spInit .enc v) n

end Sys2Proof.Machine

/-! ## Decryption undoes encryption (42_aead.md R179) -/

namespace Sys2Proof.Machine

/-- DEC of a ciphertext block gives the words and the plaintext of ENC (R142). -/
theorem duplexBlock_inverts {r : Nat} (hr : r = 8 ∨ r = 16) {B : List Byte} (hB : B.length = r) (x : Words) :
    duplexBlock .dec r (duplexBlock .enc r B x).2 x = ((duplexBlock .enc r B x).1, B) := by
  refine Prod.ext (duplexBlock_dec_enc hr B x) ?_
  simp only [duplexBlock, rateGet_rateXor hr hB]
  exact xorBytes_xorBytes_cancel ((rateGet_length hr x).trans hB.symm)

/-- DEC of the last ciphertext block gives the words and the plaintext of ENC (R143). -/
theorem duplexLast_inverts {r : Nat} (hr : r = 8 ∨ r = 16) {B : List Byte} (hB : B.length < r) (x : Words) :
    duplexLast .dec r (duplexLast .enc r B x).2 x = ((duplexLast .enc r B x).1, B) := by
  have hlen : ((rateGet r x).take B.length).length = B.length := by
    rw [List.length_take, rateGet_length hr]; omega
  refine Prod.ext (duplexLast_dec_enc hr hB x) ?_
  rw [duplexLast_enc_snd hr hB]
  simp only [duplexLast, xorBytes_length, hlen, min_self, xorBytes_xorBytes_cancel hlen]

section

variable (T : Tables) (v : AeadVariant) (K N A : List Byte)

/-- The full blocks of a ciphertext, whatever bytes follow them (R142). -/
theorem duplexFull_inverts (n : Nat) (D E : List Byte) (x : Words) (h : (aeadParams T v).r * n ≤ D.length) :
    duplexFull T .dec v n ((duplexFull T .enc v n D x).2 ++ E) x =
      ((duplexFull T .enc v n D x).1, D.take ((aeadParams T v).r * n)) := by
  induction n generalizing D x with
  | zero => simp [duplexFull]
  | succ n ih =>
    rw [Nat.mul_succ] at h
    have hr := aead_r_cases T v
    have hfirst : (D.take (aeadParams T v).r).length = (aeadParams T v).r := by rw [List.length_take]; omega
    have hout := duplexBlock_length .enc hr hfirst x
    have hrest : (aeadParams T v).r * n ≤ (D.drop (aeadParams T v).r).length := by rw [List.length_drop]; omega
    simp only [duplexFull, List.append_assoc, List.take_left' hout, List.drop_left' hout,
      duplexBlock_inverts hr hfirst, ih _ _ hrest]
    rw [← List.take_add, Nat.mul_succ, Nat.add_comm]

/-- DEC of a whole ciphertext gives the words and the plaintext of ENC (R142, R143). -/
theorem duplexText_inverts (D : List Byte) (x : Words) :
    duplexText T .dec v (duplexText T .enc v D x).2 x = ((duplexText T .enc v D x).1, D) := by
  have hle : (aeadParams T v).r * (D.length / (aeadParams T v).r) ≤ D.length := Nat.mul_div_le ..
  have hlast : (D.drop ((aeadParams T v).r * (D.length / (aeadParams T v).r))).length < (aeadParams T v).r := by
    rw [List.length_drop, ← Nat.mod_eq_sub_mul_div]
    exact Nat.mod_lt _ (aead_r_pos T v)
  have hlen := duplexText_length T .enc v D x
  simp only [duplexText] at hlen ⊢
  rw [hlen, duplexFull_inverts T v _ _ _ _ hle, List.drop_left' (duplexFull_length .enc v _ D x hle),
    duplexLast_inverts (aead_r_cases T v) hlast, List.take_append_drop]

/-- The two directions of the duplex have the same tag, and undo each other on the text (R152, R177). -/
theorem duplex_inverts (P : List Byte) :
    duplex T .dec v K N A (duplex T .enc v K N A P).1 = (P, (duplex T .enc v K N A P).2) := by
  simp only [duplex, duplexText_inverts]

theorem duplex_length (d : Dir) (D : List Byte) : (duplex T d v K N A D).1.length = D.length :=
  duplexText_length T d v D _

/-- Decrypting a ciphertext under any tag: the plaintext if the tag is the right one, else zeros (R177, R179). -/
theorem decrypt_encrypt (P : List Byte) (U : Vector Byte 16) :
    decrypt T v K N A (encrypt T v K N A P).1 U =
      if (encrypt T v K N A P).2 = U then (true, P) else (false, List.replicate P.length 0) := by
  rw [encrypt, decrypt, duplex_inverts, duplex_length]

theorem decrypt_length (C : List Byte) (U : Vector Byte 16) : (decrypt T v K N A C U).2.length = C.length := by
  simp only [decrypt]
  split
  · exact duplex_length ..
  · exact List.length_replicate

end

/-- Each squeeze gives one word (43_hash.md R190). -/
theorem squeeze_length (T : Tables) (h : HashVariant) : ∀ (n : Nat) (x : Words), (squeeze T h n x).length = 8 * n
  | 0, _ => rfl
  | 1, _ => rfl
  | n + 2, x => by
    rw [squeeze, List.length_append, bytes64_length, squeeze_length T h (n + 1)]
    omega

/-- Settles O21: the tag of the decryption is the one that the encryption gave. -/
theorem decryptInvertsEncrypt : Obligations.DecryptInvertsEncrypt := fun T v K N A P =>
  (decrypt_encrypt T v K N A P _).trans (if_pos rfl)

/-- Settles O22: the tag of the decryption is the one that the encryption gave, which `U` is not. -/
theorem otherTagsAreRejected : Obligations.OtherTagsAreRejected := fun T v K N A P U hU =>
  (decrypt_encrypt T v K N A P U).trans (if_neg hU.symm)

/-- Settles O23: every block is put out at its own length, and a digest is four words. -/
theorem outputLengths : Obligations.OutputLengths :=
  ⟨fun T v K N A P => duplex_length T v K N A .enc P, fun T v K N A C U => decrypt_length T v K N A C U,
    fun T h _ => squeeze_length T h 4 _⟩

end Sys2Proof.Machine

/-! ## ENC and DEC as a whole (42_aead.md R171 to R178) -/

namespace Sys2Proof.Machine

/-- All that the blocks of the associated data change: the words and BLK (R138). -/
theorem times_spAdBlock_frame (v : AeadVariant) (n : Nat) {s : State} (hrnd : s.rnd = 12) :
    times n (spAdBlock v) s = { s with x := (times n (spAdBlock v) s).x, blk := s.blk + n } := by
  induction n with
  | zero => rfl
  | succ n ih =>
    rw [times_succ, ih, spAdBlock_eq]
    simp only [hrnd, Nat.add_assoc]

/-- An ENC or DEC when its text begins: what the micro-steps R136 to R141 make of the state after acceptance. -/
def atText (v : AeadVariant) (s : State) : State :=
  { s with
    x := separate (absorbAd s.tables v (adBytes s) (initAead s.tables v (keyBytes s.tables v s.key) s.nonce.toList))
    rnd := 12
    phase := .absorbingText
    blk := 0 }

theorem spDomSep_eq_atText (v : AeadVariant) (s : State) :
    spDomSep (times (adBlocks s.adLen (aeadParams s.tables v).r) (spAdBlock v) (spAdBegin (spInit v s))) =
      atText v s := by
  have hinit := spInit_eq v s
  have hframe := times_spAdBlock_frame v (adBlocks s.adLen (aeadParams s.tables v).r)
    (s := spAdBegin (spInit v s)) (by rw [hinit]; rfl)
  rw [atText, ← wordsAtText_start, wordsAtText, hframe, hinit]
  rfl

/-- The whole text, from its first block to the last (R142, R143). -/
theorem spTextLast_after_blocks (d : Dir) (v : AeadVariant) {s : State} (hrnd : s.rnd = 12) (hblk : s.blk = 0) :
    spTextLast d v (times (textBlocks s.dLen (aeadParams s.tables v).r - 1) (spTextBlock d v) s) = { s with
      x := (duplexText s.tables d v (dinBytes s) s.x).1
      dout := s.dout.putBytes 0 (duplexText s.tables d v (dinBytes s) s.x).2
      phase := .finalizing, blk := 0 } := by
  have hlen : (dinBytes s).length = s.dLen := memRead_length ..
  have hfull : (aeadParams s.tables v).r * (s.dLen / (aeadParams s.tables v).r) ≤ (dinBytes s).length :=
    hlen ▸ Nat.mul_div_le ..
  have hlast : memRead .din ((aeadParams s.tables v).r * (s.dLen / (aeadParams s.tables v).r))
      (s.dLen % (aeadParams s.tables v).r) s =
        (dinBytes s).drop ((aeadParams s.tables v).r * (s.dLen / (aeadParams s.tables v).r)) := by
    rw [dinBytes, memRead_drop, Nat.zero_add, Nat.mod_eq_sub_mul_div]
  rw [textBlocks, Nat.add_sub_cancel, times_spTextBlock d v _ s hrnd (by rw [hblk, Nat.zero_add]), spTextLast_eq]
  simp only [hblk, Nat.zero_add, Nat.mul_zero, Nat.sub_zero, duplexText, hlen, Memory.putBytes_append]
  rw [← dinBytes, duplexFull_length d v _ _ _ hfull, ← hlast]
  rfl

/-- The duplex of the operands that a state holds (R170, R177). -/
def duplexOf (d : Dir) (v : AeadVariant) (s : State) : List Byte × Vector Byte 16 :=
  duplex s.tables d v (keyBytes s.tables v s.key) s.nonce.toList (adBytes s) (dinBytes s)

theorem duplexOf_length (d : Dir) (v : AeadVariant) (s : State) : (duplexOf d v s).1.length = s.dLen :=
  (duplex_length ..).trans (memRead_length ..)

/-- A whole ENC or DEC up to its tag (R144): DOUT holds the text of the duplex, and the words hold its tag. -/
theorem aeadBody_eq (d : Dir) (v : AeadVariant) (s : State) :
    ∃ x, tagOf x = (duplexOf d v s).2 ∧
      aeadBody d v s = spRelease (spTag d { s with
        x := x, rnd := 12, phase := .finalizing, blk := 1, dout := s.dout.putBytes 0 (duplexOf d v s).1 }) := by
  have htext := spTextLast_after_blocks d v (s := atText v s) rfl rfl
  refine ⟨finalAead s.tables v (keyBytes s.tables v s.key)
    (duplexText s.tables d v (dinBytes s) (atText v s).x).1, rfl, ?_⟩
  rw [aeadBody, spDomSep_eq_atText]
  exact congrArg (fun u => spRelease (spTag d u)) ((congrArg (spFinal v) htext).trans (spFinal_eq v _))

/-! ### The tag and the release (R145, R146) -/

/-- The mask of R145 makes of a decrypted text what R177 returns. -/
theorem decrypt_eq_masked (T : Tables) (v : AeadVariant) (K N A C : List Byte) (U : Vector Byte 16) :
    decrypt T v K N A C U =
      (tagMatches (duplex T .dec v K N A C).2 U,
        (duplex T .dec v K N A C).1.map (· &&& tagMask (duplex T .dec v K N A C).2 U)) := by
  obtain ⟨heq, hkeep, hclear⟩ := tagComparisonIsEquality (duplex T .dec v K N A C).2 U
  rw [decrypt]
  by_cases h : (duplex T .dec v K N A C).2 = U
  · have keep (c : Byte) : c &&& 0xff = c := BitVec.and_allOnes
    rw [if_pos h, heq.mpr h, hkeep h]
    simp only [keep, List.map_id']
  · have clear (c : Byte) : c &&& 0x00 = 0 := BitVec.and_zero
    rw [if_neg h, Bool.eq_false_iff.mpr (mt heq.mp h), hclear h]
    simp only [clear, List.map_const', duplex_length]

/-- What an ENC or DEC leaves to read (R171 to R176). -/
structure AeadOutcome where
  text : List Byte
  tagOut : Vector Byte 16
  verified : Bool

/-- The outcome of a command as a function of its operands (R177). -/
def aeadOutcome (T : Tables) (d : Dir) (v : AeadVariant) (K N A D : List Byte) (tagIn : Vector Byte 16) : AeadOutcome :=
  match d with
  | .enc => { text := (encrypt T v K N A D).1, tagOut := (encrypt T v K N A D).2, verified := false }
  | .dec =>
    { text := (decrypt T v K N A D tagIn).2
      tagOut := Vector.replicate 16 0
      verified := (decrypt T v K N A D tagIn).1 }

theorem aeadOutcome_text_length (T : Tables) (d : Dir) (v : AeadVariant) (K N A D : List Byte)
    (tagIn : Vector Byte 16) : (aeadOutcome T d v K N A D tagIn).text.length = D.length := by
  cases d with
  | enc => exact duplex_length ..
  | dec => exact decrypt_length ..

/-- The outcome of a command on the operands that a state holds (R170). -/
def outcomeOf (d : Dir) (v : AeadVariant) (s : State) : AeadOutcome :=
  aeadOutcome s.tables d v (keyBytes s.tables v s.key) s.nonce.toList (adBytes s) (dinBytes s) s.tagIn

theorem outcomeOf_text_length (d : Dir) (v : AeadVariant) (s : State) : (outcomeOf d v s).text.length = s.dLen :=
  (aeadOutcome_text_length ..).trans (memRead_length ..)

/-- The state that a completed command with a given outcome leaves, CMD aside (R146, R171 to R176). -/
def aeadCompleted (out : AeadOutcome) (s : State) : State :=
  { s with
    dout := s.dout.putBytes 0 out.text, tagOut := out.tagOut, verified := out.verified, oLen := s.dLen
    x := Words.zero, key := Vector.replicate 20 0, keyLen := 0, phase := .done, blk := 0, rnd := 12, busy := false
    done := true }

/-- The masking loop reads the text in DOUT back and writes what `Decrypt` returns over it (R145). -/
theorem masked_dout (v : AeadVariant) (s : State) :
    (s.dout.putBytes 0 (duplexOf .dec v s).1).putBytes 0
        ((memRead .dout 0 s.dLen (doutWrite 0 (duplexOf .dec v s).1 s)).map
          (· &&& tagMask (duplexOf .dec v s).2 s.tagIn)) =
      s.dout.putBytes 0 (outcomeOf .dec v s).text := by
  have hread := memRead_doutWrite_same 0 (duplexOf .dec v s).1 s
  rw [duplexOf_length] at hread
  rw [hread, Memory.putBytes_putBytes _ _ (by rw [List.length_map]), outcomeOf, aeadOutcome, decrypt_eq_masked]
  rfl

/-- An ENC or DEC, run to its end from the results that acceptance clears (R177). -/
theorem aeadBody_completed (d : Dir) (v : AeadVariant) {s : State} (hverified : s.verified = false)
    (htagOut : s.tagOut = Vector.replicate 16 0) : aeadBody d v s = aeadCompleted (outcomeOf d v s) s := by
  obtain ⟨x, htag, hbody⟩ := aeadBody_eq d v s
  cases d with
  | enc =>
    have hout : (outcomeOf .enc v s).verified = s.verified := hverified.symm
    rw [hbody, spTag_enc, htag, aeadCompleted, hout]
    rfl
  | dec =>
    have hout : (outcomeOf .dec v s).tagOut = s.tagOut := htagOut.symm
    have hverdict : (outcomeOf .dec v s).verified = tagMatches (duplexOf .dec v s).2 s.tagIn :=
      congrArg Prod.fst (decrypt_eq_masked ..)
    rw [hbody, spTag_dec, htag, aeadCompleted, hout, hverdict, ← masked_dout]
    rfl

/-- The checks of an ENC or DEC pass exactly on the conditions of R178. -/
theorem checkCommand_aead_none_iff {i : Instr} {d : Dir} {v : AeadVariant} (ho : opOf i = .aead d v) {s : State}
    (hs : Ready s) : checkCommand i s = none ↔ AeadReady v s := by
  have hwf : i.wellFormed = true := by
    cases i with
    | perm r => cases ho
    | _ => rfl
  rw [checkCommand_wf hwf, ho, checkOperands_aead_none, AeadReady, and_iff_right hs]

/-- ENC and DEC where they can start: acceptance, and the micro-steps to the release (R171 to R176). -/
theorem exec_aead {i : Instr} {d : Dir} {v : AeadVariant} (ho : opOf i = .aead d v) {s : State} (hs : AeadReady v s) :
    exec i s = .next { aeadCompleted (outcomeOf d v s) s with cmd := encode i } := by
  rw [exec_accepted hs.1 ((checkCommand_aead_none_iff ho hs.1).mpr hs), bodyOf_aead ho,
    accepted_sponge (by simp [ho]), aeadBody_completed d v rfl rfl]
  rfl

/-- Settles O16: the command, run to its end, is ENC's case of `aeadOutcome`. -/
theorem encCommandsEncrypt : Obligations.EncCommandsEncrypt := fun v _ hs => exec_aead (opOf_encOf v) hs

/-- Settles O17: the command, run to its end, is DEC's case of `aeadOutcome`. -/
theorem decCommandsDecrypt : Obligations.DecCommandsDecrypt := fun v _ hs => exec_aead (opOf_decOf v) hs

/-! ### What ENC and DEC depend on, and what they leave (R179, 20_memory.md R61) -/

theorem AeadOf.opOf_eq {v : AeadVariant} {i : Instr} (h : AeadOf v i) : ∃ d, opOf i = .aead d v := by
  rcases h with rfl | rfl
  · exact ⟨.enc, opOf_encOf v⟩
  · exact ⟨.dec, opOf_decOf v⟩

/-- DOUT after a command: the outcome's text below DLEN, as before from DLEN on (R67). -/
theorem byteAt_aeadCompleted {out : AeadOutcome} {s : State} (hlen : out.text.length = s.dLen) (w : Byte) (j : Nat) :
    byteAt .dout j { aeadCompleted out s with cmd := w } =
      if h : j < s.dLen then out.text[j]'(hlen ▸ h) else byteAt .dout j s := by
  have hwrite := byteAt_doutWrite 0 out.text j s
  simp only [Nat.zero_le, true_and, Nat.zero_add, Nat.sub_zero, hlen] at hwrite
  exact hwrite

/-- Settles O28: the outcome is a function of the operands, and all that can be read is the outcome. -/
theorem aeadResultsDependOnOperandsOnly : Obligations.AeadResultsDependOnOperandsOnly := by
  intro v i s t hi hs ht htables hkey hnonce htagIn had hdin
  obtain ⟨d, ho⟩ := hi.opOf_eq
  have hdLen : s.dLen = t.dLen := by simpa [dinBytes] using congrArg List.length hdin
  have hout : outcomeOf d v s = outcomeOf d v t := by
    rw [outcomeOf, hkey, htables, hnonce, htagIn, had, hdin]; rfl
  refine ⟨_, _, exec_aead ho hs, exec_aead ho ht, rfl, congrArg AeadOutcome.tagOut hout,
    congrArg AeadOutcome.verified hout, hdLen, fun j (hj : j < s.dLen) => ?_⟩
  rw [byteAt_aeadCompleted (outcomeOf_text_length d v s), byteAt_aeadCompleted (outcomeOf_text_length d v t),
    dif_pos hj, dif_pos (hdLen ▸ hj)]
  simp only [hout]

/-- Settles O31: ENC and DEC do nothing, take a fault, or run to their end. -/
theorem aeadFrame : Obligations.AeadFrame := by
  intro v i s t hi h
  obtain ⟨d, ho⟩ := hi.opOf_eq
  rcases exec_cases h with ⟨-, rfl⟩ | ⟨hs, c, hc, rfl⟩ | ⟨hs, hc, -⟩
  · exact ⟨by constructor <;> rfl, fun _ _ => rfl, fun _ => ⟨rfl, rfl⟩, fun hne => absurd rfl hne⟩
  · refine ⟨by constructor <;> rfl, fun _ _ => rfl, fun herr => ?_, fun _ => faulted_faultEntry c s⟩
    rw [faultEntry_err, hs.2] at herr
    cases herr
  · rw [exec_aead ho ((checkCommand_aead_none_iff ho hs).mp hc)] at h
    obtain rfl := Host.Outcome.next.inj h
    refine ⟨by constructor <;> rfl, fun j hj => ?_, fun _ => ⟨rfl, hs.1.symm⟩, fun hne => absurd rfl hne⟩
    rw [byteAt_aeadCompleted (outcomeOf_text_length d v s), dif_neg hj.not_gt]

end Sys2Proof.Machine

/-! ## HASH and HASHA as a whole (43_hash.md R190 to R193) -/

namespace Sys2Proof.Machine

/-- The last block of a stream is all that the full blocks leave of it (R65). -/
theorem block_last_eq_drop (b : Buf) (len : Nat) {r : Nat} (hr : 0 < r) (s : State) :
    block b len r (len / r) s = (memRead b 0 len s).drop (r * (len / r)) := by
  rw [block, blockLen_last hr, memRead_drop, Nat.zero_add, Nat.mod_eq_sub_mul_div]

/-- The whole message, from its first block to the padded one (R149). -/
theorem times_spHashBlock_all (h : HashVariant) {s : State} (hrnd : s.rnd = 12) (hblk : s.blk = 0) :
    times (textBlocks s.dLen (hashParams s.tables h).r) (spHashBlock h) s = { s with
      x := permute s.tables (hashParams s.tables h).a (rateXor (hashParams s.tables h).r
        (pad (hashParams s.tables h).r
          ((dinBytes s).drop ((hashParams s.tables h).r * (s.dLen / (hashParams s.tables h).r))))
        (absorbFull s.tables (hashParams s.tables h).r (hashParams s.tables h).b
          (s.dLen / (hashParams s.tables h).r) (dinBytes s) s.x))
      phase := .finalizing } := by
  rw [textBlocks, times_succ, times_spHashBlock h _ s hrnd (by rw [hblk, Nat.zero_add]), dinBytes,
    ← block_last_eq_drop .din s.dLen (hash_r_pos _ h) s]
  simp only [hblk, Nat.zero_add, Nat.mul_zero, Nat.sub_zero]
  rw [spHashBlock_last h _ (lt_irrefl (s.dLen / (hashParams s.tables h).r + 1))]
  simp only [hrnd]
  rfl

/-- A HASH or HASHA when its digest begins: what the micro-steps R147 to R149 make of the state after acceptance. -/
def atSqueeze (h : HashVariant) (s : State) : State :=
  { s with x := absorbMessage s.tables h (dinBytes s), rnd := 12, phase := .finalizing, blk := 0 }

theorem times_spHashBlock_eq_atSqueeze (h : HashVariant) (s : State) :
    times (textBlocks s.dLen (hashParams s.tables h).r) (spHashBlock h) (spHashBegin (spHashInit h s)) =
      atSqueeze h s := by
  have hlen : (dinBytes s).length = s.dLen := memRead_length ..
  have hinit := spHashInit_eq h s
  have hall := times_spHashBlock_all h (s := spHashBegin (spHashInit h s)) (by rw [hinit]; rfl) rfl
  rw [hinit] at hall ⊢
  rw [atSqueeze, absorbMessage, hlen]
  exact hall

/-- `n` squeezes up to the fourth write the bytes that R150 says; the words they leave are not used again. -/
theorem times_spHashSqueeze (h : HashVariant) : ∀ (n : Nat) {s : State}, s.rnd = 12 → s.blk + n = 4 →
    ∃ x, times n (spHashSqueeze h) s = { s with
      x := x, blk := 4, dout := s.dout.putBytes (8 * s.blk) (squeeze s.tables h n s.x) }
  | 0, s, _, hblk => ⟨s.x, by rw [← hblk]; rfl⟩
  | 1, s, _, hblk => by
    have hlast : ¬ s.blk < 3 := by omega
    refine ⟨s.x, ?_⟩
    rw [times, times, spHashSqueeze_eq, if_neg hlast, if_neg hlast, hblk]
    rfl
  | n + 2, s, hrnd, hblk => by
    have hmore : s.blk < 3 := by omega
    have hone : spHashSqueeze h s = { s with
        x := permute s.tables (hashParams s.tables h).b s.x
        blk := s.blk + 1
        dout := s.dout.putBytes (8 * s.blk) (bytes64 s.x.x0) } := by
      rw [spHashSqueeze_eq, if_pos hmore, if_pos hmore, ← hrnd]
    obtain ⟨x, hrest⟩ := times_spHashSqueeze h (n + 1) (s := spHashSqueeze h s)
      (by rw [hone]; exact hrnd) (by rw [hone]; change s.blk + 1 + (n + 1) = 4; omega)
    refine ⟨x, ?_⟩
    rw [times, hrest, hone, squeeze, Memory.putBytes_append, bytes64_length]
    rfl

/-! ### The command (R191, R192) -/

/-- The digest of the message that a state holds (R190). -/
def digestOf (h : HashVariant) (s : State) : List Byte := hashDigest s.tables h (dinBytes s)

theorem digestOf_congr (h : HashVariant) {s t : State} (htables : s.tables = t.tables)
    (hdin : dinBytes s = dinBytes t) : digestOf h s = digestOf h t := by
  rw [digestOf, digestOf, htables, hdin]

theorem digestOf_length (h : HashVariant) (s : State) : (digestOf h s).length = 32 := squeeze_length s.tables h 4 _

/-- The state that a completed command with a given digest leaves, CMD and the results that acceptance clears aside
(R151). -/
def hashCompleted (digest : List Byte) (s : State) : State :=
  { s with
    dout := s.dout.putBytes 0 digest, oLen := 32, x := Words.zero, phase := .done, blk := 0, rnd := 12, busy := false
    done := true }

/-- A HASH or HASHA, run to its end (R190). Here and below the digest is rewritten and never compared by `rfl`, which
would evaluate the permutation. -/
theorem hashBody_completed (h : HashVariant) (s : State) : hashBody h s = hashCompleted (digestOf h s) s := by
  obtain ⟨x, hsqueeze⟩ := times_spHashSqueeze h 4 (s := atSqueeze h s) rfl rfl
  have hfirst : 8 * (atSqueeze h s).blk = 0 := rfl
  rw [hashBody, times_spHashBlock_eq_atSqueeze, hsqueeze, hfirst]
  simp only [spHashRelease, hashCompleted, atSqueeze, digestOf, hashDigest]

/-- The checks of a HASH or HASHA pass exactly on the conditions of R190. -/
theorem checkCommand_hashOf_none_iff {h : HashVariant} {s : State} (hs : Ready s) :
    checkCommand (hashOf h) s = none ↔ HashReady s := by
  rw [checkCommand_wf (wellFormed_hashOf h), opOf_hashOf, checkOperands_hash_none, HashReady, and_iff_right hs]

/-- The one check that a HASH or HASHA can fail is that of its length (R225). -/
theorem checkCommand_hashOf_some {h : HashVariant} {s : State} {c : ErrCode}
    (hc : checkCommand (hashOf h) s = some c) : c = .badLen := by
  rw [checkCommand_wf (wellFormed_hashOf h), opOf_hashOf, checkOperands] at hc
  split at hc
  · exact (Option.some.inj hc).symm
  · cases hc

/-- Acceptance leaves the message and the tables as they are. -/
theorem digestOf_accepted (h : HashVariant) (s : State) : digestOf h (accepted (hashOf h) s) = digestOf h s := by
  rw [accepted_sponge (by simp)]
  exact digestOf_congr h rfl rfl

/-- HASH and HASHA where they can start: acceptance, and the micro-steps to the release (R191, R192). -/
theorem exec_hashOf (h : HashVariant) {s : State} (hs : HashReady s) :
    exec (hashOf h) s = .next { hashCompleted (digestOf h s) s with
      tagOut := Vector.replicate 16 0, verified := false, cmd := encode (hashOf h) } := by
  rw [exec_accepted hs.1 ((checkCommand_hashOf_none_iff hs.1).mpr hs), bodyOf_hash (opOf_hashOf h),
    hashBody_completed, digestOf_accepted, accepted_sponge (by simp)]
  simp only [hashCompleted]

/-- Settles O18: the command, run to its end, has squeezed the digest of the absorbed message. -/
theorem hashCommandsDigest : Obligations.HashCommandsDigest := by
  intro h s hs
  rw [exec_hashOf h hs, hashCompleted, digestOf, Words.zero]

/-! ### What HASH and HASHA depend on, and what they leave (R193, 20_memory.md R61) -/

/-- DOUT after a command: the digest below 32, as before from 32 on. -/
theorem byteAt_hashCompleted {digest : List Byte} (hlen : digest.length = 32) (s : State) (tag : Vector Byte 16)
    (w : Byte) (j : Nat) :
    byteAt .dout j { hashCompleted digest s with tagOut := tag, verified := false, cmd := w } =
      if h : j < 32 then digest[j]'(hlen ▸ h) else byteAt .dout j s := by
  have hwrite := byteAt_doutWrite 0 digest j s
  simp only [Nat.zero_le, true_and, Nat.zero_add, Nat.sub_zero, hlen] at hwrite
  exact hwrite

/-- Settles O29: the digest is a function of the tables and the message, and DOUT below 32 is the digest. -/
theorem digestDependsOnMessageOnly : Obligations.DigestDependsOnMessageOnly := by
  intro h s t hs ht htables hdin
  refine ⟨_, _, exec_hashOf h hs, exec_hashOf h ht, rfl, rfl, fun j hj => ?_⟩
  rw [byteAt_hashCompleted (digestOf_length h s), byteAt_hashCompleted (digestOf_length h t), dif_pos hj, dif_pos hj]
  simp only [digestOf_congr h htables hdin]

/-- Settles O32: HASH and HASHA do nothing, take the one fault they can, or run to their end. -/
theorem hashFrame : Obligations.HashFrame := by
  intro h s t he
  rcases exec_cases he with ⟨-, rfl⟩ | ⟨hs, c, hc, rfl⟩ | ⟨hs, hc, -⟩
  · exact ⟨by constructor <;> rfl, fun _ _ => rfl, fun _ => ⟨rfl, rfl, rfl, rfl⟩, fun hne => absurd rfl hne⟩
  · obtain rfl := checkCommand_hashOf_some hc
    refine ⟨by constructor <;> rfl, fun _ _ => rfl, fun herr => ?_, fun _ => faulted_faultEntry .badLen s⟩
    rw [faultEntry_err, hs.2] at herr
    cases herr
  · rw [exec_hashOf h ((checkCommand_hashOf_none_iff hs).mp hc)] at he
    obtain rfl := Host.Outcome.next.inj he
    refine ⟨by constructor <;> rfl, fun j hj => ?_, fun _ => ⟨rfl, rfl, rfl, hs.1.symm⟩,
      fun hne => absurd rfl hne⟩
    rw [byteAt_hashCompleted (digestOf_length h s), dif_neg hj.not_gt]

end Sys2Proof.Machine

/-! ## The host's port, element by element (44_host_interface.md R203 to R206, R210) -/

namespace Sys2Proof.Machine

/-! ### Reads and writes through the id map (10_state.md R45) -/

theorem hostRead_itemId (it : Item) (idx : Nat) (s : State) :
    hostRead (itemId it) idx s = if below idx (itemCount s.env.params it) then readItem it idx s else 0 := by
  rw [hostRead, itemOf_itemId]

theorem hostWrite_itemId (it : Item) (idx v : Nat) (s : State) :
    hostWrite (itemId it) idx v s = if below idx (itemCount s.env.params it) then writeItem it idx v s else s := by
  rw [hostWrite, itemOf_itemId]

theorem hostRead_reserved {id : Nat} (h : itemOf id = none) (idx : Nat) (s : State) : hostRead id idx s = 0 := by
  rw [hostRead, h]

theorem hostWrite_reserved {id : Nat} (h : itemOf id = none) (idx v : Nat) (s : State) : hostWrite id idx v s = s := by
  rw [hostWrite, h]

/-- Every item's id lies in one of the two ranges of R45. -/
theorem itemId_range (it : Item) : itemId it ≤ 0x06 ∨ (0x10 ≤ itemId it ∧ itemId it ≤ 0x17) := by
  cases it <;> decide

theorem itemOf_eq_none_of_reserved {id : Nat} (h : (0x07 ≤ id ∧ id ≤ 0x0f) ∨ 0x18 ≤ id) : itemOf id = none := by
  cases hit : itemOf id with
  | none => rfl
  | some it =>
    have hrange := itemId_range it
    rw [itemOf_some hit] at hrange
    omega

theorem not_below_of_le {idx c : Nat} (h : c ≤ idx) : ¬ below idx (some c) = true := by simpa [below] using h

/-- A write to STATUS, OLEN, TAGOUT or DOUT changes nothing, in range or not (R204, R206, R210). -/
theorem hostWrite_readOnly {it : Item} (h : it ∈ [Item.status, .oLen, .tagOut, .dout]) (idx v : Nat) (s : State) :
    hostWrite (itemId it) idx v s = s := by
  have hsame : writeItem it idx v s = s := by fin_cases h <;> rfl
  rw [hostWrite_itemId, hsame, ite_self]

/-- Settles O46: reserved ids name no item, an index beyond the count is not below it, and four items take no write. -/
theorem forbiddenAccessesDoNothing : Obligations.ForbiddenAccessesDoNothing := by
  intro id idx v s
  refine ⟨fun hid => ?_, fun it c hcount hc => ?_, ?_⟩
  · have hnone := itemOf_eq_none_of_reserved hid
    exact ⟨hostRead_reserved hnone idx s, hostWrite_reserved hnone idx v s⟩
  · rw [hostRead_itemId, hostWrite_itemId, hcount, if_neg (not_below_of_le hc), if_neg (not_below_of_le hc)]
    exact ⟨rfl, rfl⟩
  · rintro (rfl | rfl | rfl | rfl)
    · exact hostWrite_readOnly (it := .status) (by decide) idx v s
    · exact hostWrite_readOnly (it := .oLen) (by decide) idx v s
    · exact hostWrite_readOnly (it := .tagOut) (by decide) idx v s
    · exact hostWrite_readOnly (it := .dout) (by decide) idx v s

/-- Settles O47: DOUT's element is its byte below OLEN and 0 from OLEN on. -/
theorem outputIsWindowed : Obligations.OutputIsWindowed := by
  intro idx s
  have hread := hostRead_itemId .dout idx s
  refine ⟨fun hge => ?_, fun hlt hb => ?_⟩
  · exact hread.trans (by rw [readItem, if_neg hge.not_gt, ite_self])
  · exact hread.trans (by rw [itemCount, if_pos hb, readItem, if_pos hlt])

/-! ### What a write stores (R203) -/

theorem writeItem_env {it : Item} (hit : it ≠ .cmd) (idx v : Nat) (s : State) : (writeItem it idx v s).env = s.env := by
  cases it with
  | cmd => exact absurd rfl hit
  | _ => rfl

theorem writeItem_key {it : Item} (hcmd : it ≠ .cmd) (hkey : it ≠ .key) (idx v : Nat) (s : State) :
    (writeItem it idx v s).key = s.key := by
  cases it with
  | cmd => exact absurd rfl hcmd
  | key => exact absurd rfl hkey
  | _ => rfl

/-- A single-element item has the index 0 only. -/
theorem eq_zero_of_below_one {idx : Nat} (h : below idx (some 1) = true) : idx = 0 := by
  have : idx < 1 := by simpa [below] using h
  omega

theorem toNat_getD_setIfInBounds {n idx v : Nat} (R : Vector Byte n) (hi : idx < n) (hv : v < 2 ^ 8) :
    (((R.setIfInBounds idx (BitVec.ofNat 8 v))[idx]?).getD 0).toNat = v := by
  rw [Vector.getElem?_setIfInBounds_self_of_lt hi, Option.getD_some, BitVec.toNat_ofNat, Nat.mod_eq_of_lt hv]

theorem toNat_getD_find_put {v : Nat} (m : Memory) (idx : Nat) (hv : v < 2 ^ 8) (u : Byte) :
    (((m.put idx (BitVec.ofNat 8 v)).find idx).getD u).toNat = v := by
  rw [Memory.find_put_same, Option.getD_some, BitVec.toNat_ofNat, Nat.mod_eq_of_lt hv]

theorem readItem_writeItem_same {it : Item}
    (hit : it ∈ [Item.keyLen, .nonceLen, .adLen, .dLen, .x, .nonce, .tagIn, .ad, .din]) {idx v : Nat} {s : State}
    (hb : below idx (itemCount s.env.params it) = true) (hv : v < 2 ^ itemBits s.env.params it) :
    readItem it idx (writeItem it idx v s) = v := by
  cases it with
  | cmd | status | oLen | key | tagOut | dout => exact absurd hit (by decide)
  | keyLen | nonceLen | adLen | dLen => exact Nat.mod_eq_of_lt hv
  | x =>
    have hword := Words.get_set_same s.x (of_decide_eq_true hb) (BitVec.ofNat 64 v)
    rw [readItem, writeItem, hword, BitVec.toNat_ofNat]
    exact Nat.mod_eq_of_lt hv
  | nonce => exact toNat_getD_setIfInBounds s.nonce (of_decide_eq_true hb) hv
  | tagIn => exact toNat_getD_setIfInBounds s.tagIn (of_decide_eq_true hb) hv
  | ad => exact toNat_getD_find_put s.ad idx hv _
  | din => exact toNat_getD_find_put s.din idx hv _

/-- Settles O43: a write in range stores the element that the read returns, and KEY's element is stored unread. -/
theorem operandWriteReadsBack : Obligations.OperandWriteReadsBack := by
  refine ⟨fun it idx v s hit hb hv => ?_, fun idx v s hi => ?_⟩
  · have hcmd : it ≠ .cmd := by rintro rfl; exact absurd hit (by decide)
    rw [hostWrite_itemId, if_pos hb, hostRead_itemId, writeItem_env hcmd, if_pos hb, readItem_writeItem_same hit hb hv]
  · have hwrite : hostWrite 0x11 idx v.toNat s = writeItem .key idx v.toNat s :=
      (hostWrite_itemId .key idx v.toNat s).trans (if_pos (decide_eq_true hi))
    rw [hwrite, writeItem, BitVec.ofNat_toNat, BitVec.setWidth_eq, Vector.getElem?_setIfInBounds_self_of_lt hi]

/-! ### What a write leaves (R203, 20_memory.md R60) -/

theorem Words.get_set_other (x : Words) {i j : Nat} (h : j ≠ i) (v : Word) : (x.set i v).get j = x.get j := by
  unfold Words.get
  split
  case h_6 => rfl
  all_goals
    unfold Words.set
    split <;> trivial

/-- A write to one item leaves every read of another. -/
theorem readItem_writeItem_other_item {it it' : Item} (hcmd : it ≠ .cmd) (hne : it' ≠ it) (idx idx' v : Nat) (s : State) :
    readItem it' idx' (writeItem it idx v s) = readItem it' idx' s := by
  cases it with
  | cmd => exact absurd rfl hcmd
  | status | oLen | tagOut | dout => rfl
  | keyLen => cases it' with | keyLen => exact absurd rfl hne | _ => rfl
  | nonceLen => cases it' with | nonceLen => exact absurd rfl hne | _ => rfl
  | adLen => cases it' with | adLen => exact absurd rfl hne | _ => rfl
  | dLen => cases it' with | dLen => exact absurd rfl hne | _ => rfl
  | x => cases it' with | x => exact absurd rfl hne | _ => rfl
  | key => cases it' with | key => exact absurd rfl hne | _ => rfl
  | nonce => cases it' with | nonce => exact absurd rfl hne | _ => rfl
  | tagIn => cases it' with | tagIn => exact absurd rfl hne | _ => rfl
  | ad => cases it' with | ad => exact absurd rfl hne | _ => rfl
  | din => cases it' with | din => exact absurd rfl hne | _ => rfl

/-- A write to one element of an item leaves every read of its other elements. -/
theorem readItem_writeItem_other_index {it : Item} (hcmd : it ≠ .cmd) {idx idx' : Nat} (hne : idx' ≠ idx) {s : State}
    (hb : below idx (itemCount s.env.params it) = true) (hb' : below idx' (itemCount s.env.params it) = true) (v : Nat) :
    readItem it idx' (writeItem it idx v s) = readItem it idx' s := by
  cases it with
  | cmd => exact absurd rfl hcmd
  | status | oLen | key | tagOut | dout => rfl
  | keyLen | nonceLen | adLen | dLen =>
    exact absurd ((eq_zero_of_below_one hb').trans (eq_zero_of_below_one hb).symm) hne
  | x => rw [readItem, writeItem, Words.get_set_other s.x hne, readItem]
  | nonce | tagIn => rw [readItem, writeItem, Vector.getElem?_setIfInBounds_ne hne.symm, readItem]
  | ad => simp only [readItem, writeItem, byteAt, bufOf, Memory.find_put_other s.ad _ hne]
  | din => simp only [readItem, writeItem, byteAt, bufOf, Memory.find_put_other s.din _ hne]

theorem hostRead_writeItem_other {it : Item} (hcmd : it ≠ .cmd) {idx : Nat} {s : State}
    (hb : below idx (itemCount s.env.params it) = true) (v : Nat) {id' idx' : Nat}
    (hne : ¬ (id' = itemId it ∧ idx' = idx)) : hostRead id' idx' (writeItem it idx v s) = hostRead id' idx' s := by
  cases hit' : itemOf id' with
  | none => rw [hostRead_reserved hit', hostRead_reserved hit']
  | some it' =>
    obtain rfl := itemOf_some hit'
    rw [hostRead_itemId, hostRead_itemId, writeItem_env hcmd]
    split
    · next hb' =>
      by_cases hsame : it' = it
      · subst hsame
        exact readItem_writeItem_other_index hcmd (fun e => hne ⟨rfl, e⟩) hb hb' v
      · exact readItem_writeItem_other_item hcmd hsame idx idx' v s
    · rfl

/-- Settles O44: a write that does anything is one to an element of an item other than CMD, and sets that element. -/
theorem hostWriteTouchesOneElement : Obligations.HostWriteTouchesOneElement := by
  intro id idx v s hid
  rcases hostWrite_cases id idx v s with e | ⟨it, hit, hb, e⟩ <;> rw [e]
  · exact ⟨fun _ _ _ => rfl, fun _ => rfl, fun _ _ => rfl⟩
  · obtain rfl := itemOf_some hit
    have hcmd : it ≠ .cmd := by rintro rfl; exact hid rfl
    refine ⟨fun id' idx' hne => hostRead_writeItem_other hcmd hb v hne, fun hkey => ?_, fun j hj => ?_⟩
    · exact writeItem_key hcmd (by rintro rfl; exact hkey rfl) idx v s
    · by_cases hkey : it = .key
      · subst hkey
        exact Vector.getElem?_setIfInBounds_ne hj.symm
      · rw [writeItem_key hcmd hkey]

end Sys2Proof.Machine

/-! ## CMD writes and the busy rule (44_host_interface.md R202, R207, R208) -/

namespace Sys2Proof.Machine

theorem step_of_write {s : State} {id idx v : Nat} {rest : List HostEvent} (hb : s.busy = false)
    (hin : s.env.inbox = .write id idx v :: rest) : step s = .next (hostWrite id idx v (popEvent s)) := by
  simp only [step_of_idle hb, idleStep, hin]

theorem hostWrite_cmd (w : Byte) (s : State) : hostWrite 0x00 0 w.toNat s = cmdWrite w s := by
  have hwrite := hostWrite_itemId .cmd 0 w.toNat s
  rw [writeItem, BitVec.ofNat_toNat, BitVec.setWidth_eq] at hwrite
  exact hwrite

/-! ### A faulted block (R208) -/

theorem cmdWrite_of_err {s : State} (he : s.err = true) (w : Byte) : cmdWrite w s = s := if_pos he

theorem runIllegal_of_err {s : State} (he : s.err = true) : runIllegal s = .next s := if_pos he

theorem exec_of_not_ready {s : State} (h : ¬ Ready s) (i : Instr) : exec i s = .next s := by
  obtain ⟨t, ht⟩ := exec_next i s
  rcases exec_cases ht with ⟨-, rfl⟩ | ⟨hr, -⟩ | ⟨hr, -⟩
  · exact ht
  · exact absurd hr h
  · exact absurd hr h

theorem step_of_command_of_err {s : State} {w : Byte} {rest : List HostEvent} (hb : s.busy = false)
    (he : s.err = true) (hin : s.env.inbox = .command w :: rest) : step s = .next (popEvent s) := by
  cases hd : decode w with
  | legal i =>
    have hnot : ¬ Ready (popEvent s) := fun hr => Bool.noConfusion (he.symm.trans hr.2)
    rw [step_of_command hb hin hd, exec_of_not_ready hnot]
  | illegal y =>
    simp only [step_of_idle hb, idleStep, hin, hd]
    exact runIllegal_of_err he

/-- Settles O37: neither form of a CMD write gets past ERR = 1. -/
theorem faultedBlockIgnoresCommands : Obligations.FaultedBlockIgnoresCommands := by
  rintro w s rest hb he (hin | hin)
  · exact step_of_command_of_err hb he hin
  · have hignored : cmdWrite w (popEvent s) = popEvent s := cmdWrite_of_err (s := popEvent s) he w
    rw [step_of_write hb hin, hostWrite_cmd, hignored]

/-! ### Acceptance (R207) -/

theorem cmdWrite_accepts {w : Byte} {i : Instr} {s : State} (he : s.err = false) (hd : decode w = .legal i)
    (hc : checkOperands (opOf i) s = none) : cmdWrite w s = accepted i s := by
  have hcheck : checkCommand i s = none := (checkCommand_wf (decode_eq_legal_iff.mp hd).1 s).trans hc
  simp only [cmdWrite, he, hd, acceptCommand, hcheck, Bool.false_eq_true, if_false]

/-- The state that acceptance leaves, PERM told from the sponge commands by OP (30_encoding.md R90, R207). -/
theorem accepted_eq_of_opBits (i : Instr) (s : State) :
    accepted i s = { s with
      cmd := encode i, busy := true, done := false, verified := false, oLen := 0
      tagOut := Vector.replicate 16 0
      phase := if i.opBits = 1 then s.phase else .uninitialized
      blk := if i.opBits = 1 then s.blk else 0 } := by
  cases i with
  | perm r => exact accepted_perm r s
  | enc128 | enc128a | enc80pq | dec128 | dec128a | dec80pq | hash | hasha => exact accepted_sponge (by simp [opOf]) s

/-- Settles O41: on a ready block the write of a legal word that passes the checks is acceptance. -/
theorem rawCommandWriteAccepts : Obligations.RawCommandWriteAccepts := by
  intro w i s rest hr hin hd hc
  obtain rfl := (decode_eq_legal_iff.mp hd).2
  have hc' : checkOperands (opOf i) (popEvent s) = none := (checkOperands_congr rfl rfl rfl rfl rfl).trans hc
  have haccepts : cmdWrite (encode i) (popEvent s) = accepted i (popEvent s) := cmdWrite_accepts hr.2 hd hc'
  rw [step_of_write hr.1 hin, hostWrite_cmd, haccepts, accepted_eq_of_opBits]
  rfl

/-! ### A block at work (R202) -/

theorem step_of_busy {s : State} (hb : s.busy = true) : step s = busyStep s := if_pos hb

theorem sequencerStep_of_nextMicro {s : State} {m : MicroStep} (hm : nextMicro s = some m) :
    sequencerStep s = .next (perform m s) := by
  rw [sequencerStep, hm]

theorem isStatusRead_iff {id idx : Nat} : isStatusRead id idx = true ↔ HostEvent.read id idx = .read 0x01 0 := by
  simp [isStatusRead, itemId]

/-- A transaction that is held leaves the step to the sequencer. -/
theorem busyStep_of_held {s : State} {e : HostEvent} {rest : List HostEvent} (hin : s.env.inbox = e :: rest)
    (hread : e ≠ .read 0x01 0) (hreset : e ≠ .reset) (hpause : e ≠ .pause) : busyStep s = sequencerStep s := by
  cases e with
  | write id idx v | command w => rw [busyStep, hin]
  | read id idx => rw [busyStep, hin]; exact if_neg fun h => hread (isStatusRead_iff.mp h)
  | reset => exact absurd rfl hreset
  | pause => exact absurd rfl hpause

/-- Settles O40: a busy block answers STATUS; else the sequencer steps, and no micro-step changes the script. -/
theorem busyHoldsTransactions : Obligations.BusyHoldsTransactions := by
  intro s e rest hb hin
  rw [step_of_busy hb]
  refine ⟨?_, fun hread hreset hpause m hm => ⟨?_, (perform_kept m s).env⟩⟩
  · rintro rfl
    rw [busyStep, hin]
    rfl
  · rw [busyStep_of_held hin hread hreset hpause, sequencerStep_of_nextMicro hm]

end Sys2Proof.Machine

/-! ## The four faults (60_exceptions.md R220 to R228) -/

namespace Sys2Proof.Machine

/-! ### The checks of a command, one by one (R223 to R225) -/

theorem exec_faulted {i : Instr} {s : State} {c : ErrCode} (hs : Ready s) (hc : checkCommand i s = some c) :
    ∃ t, exec i s = .next t ∧ Faulted c s t :=
  ⟨_, exec_faults hs hc, faulted_faultEntry c s⟩

/-- ENC and DEC of a variant have the same checks. -/
theorem AeadOf.exec_faulted {v : AeadVariant} {i : Instr} {s : State} {c : ErrCode} (hi : AeadOf v i) (hs : Ready s)
    (hc : ∀ d, checkOperands (.aead d v) s = some c) : ∃ t, exec i s = .next t ∧ Faulted c s t := by
  apply Machine.exec_faulted hs
  rcases hi with rfl | rfl
  · rw [checkCommand_wf (wellFormed_encOf v), opOf_encOf, hc]
  · rw [checkCommand_wf (wellFormed_decOf v), opOf_decOf, hc]

section

variable {d : Dir} {v : AeadVariant} {s : State}

/-- The first check: KEYLEN (R223). -/
theorem checkOperands_badKeyLen (hk : s.keyLen ≠ (aeadParams s.tables v).k) :
    checkOperands (.aead d v) s = some .badKeyLen := if_pos hk

/-- The second check: NONCELEN (R224). -/
theorem checkOperands_badNonceLen (hk : s.keyLen = (aeadParams s.tables v).k) (hn : s.nonceLen ≠ 16) :
    checkOperands (.aead d v) s = some .badNonceLen := by
  rw [checkOperands, if_neg (not_not.mpr hk), if_pos hn]

/-- The last two checks: ADLEN and DLEN (R225). -/
theorem checkOperands_badLen (hk : s.keyLen = (aeadParams s.tables v).k) (hn : s.nonceLen = 16)
    (hlen : exceeds s.adLen s.env.params.adCap = true ∨ exceeds s.dLen s.env.params.dCap = true) :
    checkOperands (.aead d v) s = some .badLen := by
  rw [checkOperands, if_neg (not_not.mpr hk), if_neg (not_not.mpr hn)]
  split
  · rfl
  · next had => exact if_pos (hlen.resolve_left had)

end

theorem exceeds_of_lt {cap : Option Nat} {len c : Nat} (hcap : cap = some c) (h : c < len) :
    exceeds len cap = true := by
  rw [hcap]
  exact decide_eq_true h

theorem not_exceeds_of_none_or_eq {cap : Option Nat} {len : Nat} (h : cap = none ∨ cap = some len) :
    exceeds len cap = false := by
  rcases h with rfl | rfl
  · rfl
  · exact decide_eq_false (lt_irrefl len)

/-- Settles O35: after KEYLEN the check of NONCELEN is the first to fail. -/
theorem wrongNonceLengthFaults : Obligations.WrongNonceLengthFaults := fun _ _ _ hi hs hk hn =>
  hi.exec_faulted hs fun _ => checkOperands_badNonceLen hk hn

/-- Settles O36: with KEYLEN and NONCELEN right, a fault depends on which lengths exceed their capacities. -/
theorem lengthAboveCapacityFaults : Obligations.LengthAboveCapacityFaults := by
  refine ⟨fun v i s c hi hs hk hn hlong => ?_, fun h s c hs hcap hlong => ?_,
    fun v i s hi hs hk hn had hd => ?_, fun h s hs hd => ?_⟩
  · have hexceeds : exceeds s.adLen s.env.params.adCap = true ∨ exceeds s.dLen s.env.params.dCap = true :=
      hlong.imp (fun ⟨hcap, hlt⟩ => exceeds_of_lt hcap hlt) (fun ⟨hcap, hlt⟩ => exceeds_of_lt hcap hlt)
    exact hi.exec_faulted hs fun _ => checkOperands_badLen hk hn hexceeds
  · refine exec_faulted hs ?_
    rw [checkCommand_wf (wellFormed_hashOf h), opOf_hashOf]
    exact if_pos (exceeds_of_lt hcap hlong)
  · obtain ⟨d, ho⟩ := hi.opOf_eq
    have hready : AeadReady v s := ⟨hs, hk, hn, not_exceeds_of_none_or_eq had, not_exceeds_of_none_or_eq hd⟩
    exact ⟨_, exec_aead ho hready, hs.2⟩
  · exact ⟨_, exec_hashOf h ⟨hs, not_exceeds_of_none_or_eq hd⟩, hs.2⟩

/-! ### Where a fault comes from (R220) -/

theorem accepted_err (i : Instr) (s : State) : (accepted i s).err = s.err ∧ (accepted i s).errCode = s.errCode := by
  rw [accepted_eq_of_opBits]
  exact ⟨rfl, rfl⟩

/-- A command keeps ERR and ERRCODE unless a check fails, and then it leaves the fault entry. -/
theorem exec_err {i : Instr} {s t : State} (h : exec i s = .next t) :
    (t.err = s.err ∧ t.errCode = s.errCode) ∨ ∃ c, checkCommand i s = some c ∧ t = faultEntry c s := by
  rcases exec_cases h with ⟨-, rfl⟩ | ⟨-, hfault⟩ | ⟨-, -, rfl⟩
  · exact .inl ⟨rfl, rfl⟩
  · exact .inr hfault
  · have hkept := bodyOf_kept i (accepted i s)
    obtain ⟨herr, hcode⟩ := accepted_err i s
    exact .inl ⟨hkept.err.trans herr, hkept.errCode.trans hcode⟩

/-- Of the commands only ENC and DEC have their KEYLEN checked (R223). -/
theorem aeadOf_of_badKeyLen {i : Instr} {s : State} (h : checkCommand i s = some .badKeyLen) : ∃ v, AeadOf v i := by
  cases i with
  | perm r => cases checkCommand_perm_some h
  | hash => cases checkCommand_hashOf_some (h := .hash) h
  | hasha => cases checkCommand_hashOf_some (h := .hasha) h
  | enc128 => exact ⟨.v128, .inl rfl⟩
  | enc128a => exact ⟨.v128a, .inl rfl⟩
  | enc80pq => exact ⟨.v80pq, .inl rfl⟩
  | dec128 => exact ⟨.v128, .inr rfl⟩
  | dec128a => exact ⟨.v128a, .inr rfl⟩
  | dec80pq => exact ⟨.v80pq, .inr rfl⟩

theorem keyLength_ne_zero (k : KeySize) : keyLength k ≠ 0 := by cases k <;> decide

/-- No variant takes a key of length 0 (R10). -/
theorem aeadParams_k_ne_zero (T : Tables) (v : AeadVariant) : (aeadParams T v).k ≠ 0 := keyLength_ne_zero _

/-- Settles O34: the check of KEYLEN is ENC's and DEC's first and no other command's; completion leaves KEYLEN 0. -/
theorem wrongKeyLengthFaults : Obligations.WrongKeyLengthFaults := by
  refine ⟨fun v i s hi hs hk => hi.exec_faulted hs fun _ => checkOperands_badKeyLen hk,
    fun i s t hi hcode h => ?_, fun v u i j s t hi hj hs h => ?_⟩
  · rcases exec_err h with ⟨-, hkept⟩ | ⟨c, hc, rfl⟩
    · rwa [hkept]
    · rintro rfl
      obtain ⟨v, hv⟩ := aeadOf_of_badKeyLen hc
      exact hi v hv
  · obtain ⟨d, ho⟩ := hi.opOf_eq
    rw [exec_aead ho hs] at h
    obtain rfl := Host.Outcome.next.inj h
    exact hj.exec_faulted ⟨rfl, hs.1.2⟩ fun _ => checkOperands_badKeyLen (aeadParams_k_ne_zero _ u).symm

/-! ### Illegal words (R222) -/

theorem cmdWrite_illegal {w : Byte} {y : Illegal} {s : State} (he : s.err = false) (hd : decode w = .illegal y) :
    cmdWrite w s = faultEntry .illegalCmd s := by
  simp only [cmdWrite, he, hd, Bool.false_eq_true, if_false]

theorem step_of_illegal {s : State} {w : Byte} {y : Illegal} {rest : List HostEvent} (hs : Ready s)
    (hin : s.env.inbox = .command w :: rest) (hd : decode w = .illegal y) :
    step s = .next (faultEntry .illegalCmd (popEvent s)) := by
  simp only [step_of_idle hs.1, idleStep, hin, hd, runIllegal, popEvent_err, hs.2, Bool.false_eq_true, if_false]

/-- Settles O33: both forms of the write of an illegal word end in the fault entry. -/
theorem illegalWordsFault : Obligations.IllegalWordsFault := by
  intro w y s rest hs hd
  have hfaulted := faulted_faultEntry .illegalCmd (popEvent s)
  refine ⟨fun hin => ⟨_, step_of_illegal hs hin hd, hfaulted⟩, fun hin => ⟨_, ?_, hfaulted⟩⟩
  rw [step_of_write hs.1 hin, hostWrite_cmd, cmdWrite_illegal (s := popEvent s) hs.2 hd]

/-! ### No other step sets ERR (R220, 10_state.md R36) -/

theorem cmdWrite_err (w : Byte) (s : State) :
    (cmdWrite w s).err = s.err ∨ ∃ c, c ≠ .none ∧ cmdWrite w s = faultEntry c s := by
  rcases cmdWrite_cases w s with ⟨-, e⟩ | ⟨-, hfault⟩ | ⟨-, i, -, -, e⟩
  · exact .inl (by rw [e])
  · exact .inr hfault
  · exact .inl (by rw [e]; exact (accepted_err i s).1)

theorem writeItem_err {it : Item} (hcmd : it ≠ .cmd) (idx v : Nat) (s : State) : (writeItem it idx v s).err = s.err := by
  cases it with
  | cmd => exact absurd rfl hcmd
  | _ => rfl

/-- A host write keeps ERR unless it is to CMD, and then it may leave the fault entry. -/
theorem hostWrite_err (id idx v : Nat) (s : State) :
    (hostWrite id idx v s).err = s.err ∨
      id = 0x00 ∧ idx = 0 ∧ ∃ c, c ≠ .none ∧ hostWrite id idx v s = faultEntry c s := by
  rcases hostWrite_cases id idx v s with e | ⟨it, hit, hb, e⟩ <;> rw [e]
  · exact .inl rfl
  · by_cases hcmd : it = .cmd
    · subst hcmd
      exact (cmdWrite_err (BitVec.ofNat 8 v) s).imp_right
        fun hfault => ⟨(itemOf_some hit).symm, eq_zero_of_below_one hb, hfault⟩
    · exact .inl (writeItem_err hcmd idx v s)

/-- The next event of the script is a CMD write, as a mnemonic or raw (log entries 2 and 4). -/
def CommandNext (s : State) : Prop :=
  ∃ w : Byte, s.env.inbox.head? = some (.command w) ∨ ∃ v, s.env.inbox.head? = some (.write 0x00 0 v)

/-- A step clears ERR, keeps it, or is a CMD write with BUSY = 0 that leaves the fault entry. -/
theorem step_err {s t : State} (h : step s = .next t) :
    t.err = false ∨ t.err = s.err ∨
      s.busy = false ∧ CommandNext s ∧ ∃ c, c ≠ .none ∧ t = faultEntry c (popEvent s) := by
  cases step_cases h with
  | reset => exact .inl rfl
  | statusRead | empty | pause | read => exact .inr (.inl rfl)
  | micro u m _ hu =>
    have hkept : (perform m u).err = u.err := (perform_kept m u).err
    rcases hu with rfl | rfl <;> exact .inr (.inl hkept)
  | write id idx v hb hhead =>
    rcases hostWrite_err id idx v (popEvent s) with hkept | ⟨rfl, rfl, hfault⟩
    · exact .inr (.inl hkept)
    · exact .inr (.inr ⟨hb, ⟨0, .inr ⟨v, hhead⟩⟩, hfault⟩)
  | command w i _ hb hhead _ he =>
    rcases exec_err he with ⟨hkept, -⟩ | ⟨c, hc, rfl⟩
    · exact .inr (.inl hkept)
    · exact .inr (.inr ⟨hb, ⟨w, .inl hhead⟩, c, checkCommand_ne_none hc, rfl⟩)
  | illegal w y _ hb hhead _ he =>
    rcases runIllegal_cases he with ⟨-, rfl⟩ | ⟨-, rfl⟩
    · exact .inr (.inl rfl)
    · exact .inr (.inr ⟨hb, ⟨w, .inl hhead⟩, .illegalCmd, nofun, rfl⟩)

/-- Settles O39: of the ways a step can leave ERR, only the fault entry of a CMD write sets it. -/
theorem faultsOnlyAtCommandWrites : Obligations.FaultsOnlyAtCommandWrites := by
  intro s t h hs ht
  rcases step_err h with hclear | hkept | ⟨hb, hnext, c, hc, rfl⟩
  · exact absurd (hclear.symm.trans ht) Bool.false_ne_true
  · exact absurd ((hs.symm.trans hkept.symm).trans ht) Bool.false_ne_true
  · exact ⟨hb, hnext, hc, faulted_faultEntry c (popEvent s)⟩

end Sys2Proof.Machine

/-! ## The sequencer's trace (70_reset_and_hazards.md R263) -/

namespace Sys2Proof.Machine

/-- RND after a micro-step: 12 where a permutation ran, as before elsewhere (R29, R136 to R151). -/
def rndAfter (m : MicroStep) (blk : Nat) (rnd : BitVec 4) : BitVec 4 :=
  match m with
  | .permRun _ | .spInit _ | .spAdBlock _ | .spTextBlock _ _ | .spFinal _ | .spHashInit _ | .spHashBlock _ => 12
  | .spHashSqueeze _ => if blk < 3 then 12 else rnd
  | .spAdBegin | .spDomSep | .spTextLast _ _ | .spTag _ | .spRelease | .spHashBegin | .spHashRelease => rnd

theorem perform_rnd_eq (m : MicroStep) (s : State) : (perform m s).rnd = rndAfter m s.blk s.rnd := by
  cases m with
  | permRun r => rw [perform, permRun_eq_min]; rfl
  | spInit v => rw [perform, spInit_eq]; rfl
  | spAdBlock v => rw [perform, spAdBlock_eq]; rfl
  | spTextBlock d v => rw [perform, spTextBlock_eq]; rfl
  | spFinal v => rw [perform, spFinal_eq]; rfl
  | spTag d => cases d <;> rfl
  | spHashInit h => rw [perform, spHashInit_eq]; rfl
  | spHashBlock h =>
    by_cases hb : s.blk + 1 < textBlocks s.dLen (hashParams s.tables h).r
    · rw [perform, spHashBlock_full h s hb]; rfl
    · rw [perform, spHashBlock_last h s hb]; rfl
  | spHashSqueeze h => rw [perform, spHashSqueeze_eq]; rfl
  | spAdBegin | spDomSep | spTextLast | spRelease | spHashBegin | spHashRelease => rfl

/-- Two states that agree on all that the sequencer's trace is read from: control, lengths and constant tables. -/
structure AgreeOnControl (s t : State) : Prop where
  tables : s.tables = t.tables
  busy : s.busy = t.busy
  cmd : s.cmd = t.cmd
  phase : s.phase = t.phase
  blk : s.blk = t.blk
  rnd : s.rnd = t.rnd
  adLen : s.adLen = t.adLen
  dLen : s.dLen = t.dLen

section

variable {s t : State}

/-- The same row of R132 is next in both states (R131). -/
theorem AgreeOnControl.nextMicro (h : AgreeOnControl s t) : nextMicro s = nextMicro t := by
  rw [Machine.nextMicro, Machine.nextMicro, h.cmd, h.tables, h.phase, h.blk, h.adLen, h.dLen]

/-- Every micro-step sets control from control and lengths alone, so the two states still agree after it. -/
theorem AgreeOnControl.perform (h : AgreeOnControl s t) (m : MicroStep) :
    AgreeOnControl (perform m s) (perform m t) := by
  have ks := perform_kept m s
  have kt := perform_kept m t
  have cs := perform_control m s
  have ct := perform_control m t
  exact
    { tables := by rw [State.tables, State.tables, ks.env, kt.env]; exact h.tables
      busy := by rw [cs.busy, ct.busy, h.busy]
      cmd := by rw [ks.cmd, kt.cmd, h.cmd]
      phase := by rw [cs.phase, ct.phase, h.tables, h.phase, h.blk, h.dLen]
      blk := by rw [cs.blk, ct.blk, h.tables, h.blk, h.dLen]
      rnd := by rw [perform_rnd_eq, perform_rnd_eq, h.blk, h.rnd]
      adLen := by rw [ks.adLen, kt.adLen, h.adLen]
      dLen := by rw [ks.dLen, kt.dLen, h.dLen] }

theorem AgreeOnControl.microTrace (h : AgreeOnControl s t) (n : Nat) : microTrace n s = microTrace n t := by
  induction n generalizing s t with
  | zero => rfl
  | succ n ih =>
    rw [Machine.microTrace, Machine.microTrace, h.busy, h.nextMicro]
    split
    · cases Machine.nextMicro t with
      | none => rfl
      | some m => simp only [h.tables, h.blk, h.rnd, h.adLen, h.dLen, ih (h.perform m)]
    · rfl

end

/-- Settles O25: the entry is read from control and lengths, on which the two states agree after every micro-step. -/
theorem traceIgnoresData : Obligations.TraceIgnoresData :=
  fun n _ _ htables hbusy hcmd hphase hblk hrnd hadLen hdLen =>
    AgreeOnControl.microTrace ⟨htables, hbusy, hcmd, hphase, hblk, hrnd, hadLen, hdLen⟩ n

end Sys2Proof.Machine

/-! ## RESET, and what only it clears (70_reset_and_hazards.md R250, R253, R254, R257) -/

namespace Sys2Proof.Machine

/-! ### RESET (R250, R253) -/

theorem step_of_reset {s : State} (hin : s.env.inbox.head? = some .reset) :
    step s = .next (resetEvent (popEvent s)) := by
  obtain ⟨rest, hin⟩ := List.head?_eq_some_iff.mp hin
  cases hb : s.busy with
  | false => simp only [step_of_idle hb, idleStep, hin]
  | true => simp only [step_of_busy hb, busyStep, hin]

/-- Settles O52: idle and busy steps take RESET alike. -/
theorem resetAtAnyTime : Obligations.ResetAtAnyTime := by
  intro s rest hin
  rw [step_of_reset (by rw [hin, List.head?_cons]), resetEvent, popEvent, hin, List.tail_cons]

/-! ### A fault stays until RESET (R230, R231, R254) -/

theorem writeItem_errCode {it : Item} (hcmd : it ≠ .cmd) (idx v : Nat) (s : State) :
    (writeItem it idx v s).errCode = s.errCode := by
  cases it with
  | cmd => exact absurd rfl hcmd
  | _ => rfl

/-- No host write changes the fault flags of a faulted block: its CMD is ignored, and no other item holds them. -/
theorem hostWrite_of_err {s : State} (he : s.err = true) (id idx v : Nat) :
    (hostWrite id idx v s).err = true ∧ (hostWrite id idx v s).errCode = s.errCode := by
  rcases hostWrite_cases id idx v s with e | ⟨it, -, -, e⟩ <;> rw [e]
  · exact ⟨he, rfl⟩
  · by_cases hcmd : it = .cmd
    · rw [hcmd, writeItem, cmdWrite_of_err he]
      exact ⟨he, rfl⟩
    · exact ⟨(writeItem_err hcmd idx v s).trans he, writeItem_errCode hcmd idx v s⟩

/-- Settles O38: a faulted block ignores commands, and micro-steps and all other events leave ERR and ERRCODE alone. -/
theorem onlyResetClearsFault : Obligations.OnlyResetClearsFault := by
  intro s t h he hnoReset
  cases step_cases h with
  | reset hin => exact absurd hin hnoReset
  | statusRead | empty | pause | read => exact ⟨he, rfl⟩
  | micro u m _ hu =>
    have hkept := perform_kept m u
    rcases hu with rfl | rfl <;> exact ⟨hkept.err.trans he, hkept.errCode⟩
  | write id idx v => exact hostWrite_of_err (s := popEvent s) he id idx v
  | command w i _ _ _ _ hexec =>
    have hnot : ¬ Ready (popEvent s) := fun hr => Bool.noConfusion (he.symm.trans hr.2)
    rw [exec_of_not_ready hnot] at hexec
    obtain rfl := Host.Outcome.next.inj hexec
    exact ⟨he, rfl⟩
  | illegal w y _ _ _ _ hrun =>
    rw [runIllegal_of_err (s := popEvent s) he] at hrun
    obtain rfl := Host.Outcome.next.inj hrun
    exact ⟨he, rfl⟩

/-! ### KEY and KEYLEN (R257, 41_sponge.md R146, 60_exceptions.md R228) -/

/-- KEY and KEYLEN hold nothing of a key. -/
def KeyZeroed (s : State) : Prop := s.key = Vector.replicate 20 0 ∧ s.keyLen = 0

theorem keyZeroed_faultEntry (c : ErrCode) (s : State) : KeyZeroed (faultEntry c s) := ⟨rfl, rfl⟩

theorem keyZeroed_resetEvent (s : State) : KeyZeroed (resetEvent s) := ⟨rfl, rfl⟩

/-- ENC and DEC on a ready block leave no key, whether they fault or complete. -/
theorem AeadOf.exec_keyZeroed {v : AeadVariant} {i : Instr} {s : State} (hi : AeadOf v i) (hs : Ready s) :
    ∃ t, exec i s = .next t ∧ KeyZeroed t := by
  obtain ⟨d, ho⟩ := hi.opOf_eq
  cases hc : checkCommand i s with
  | some c => exact ⟨_, exec_faults hs hc, keyZeroed_faultEntry c s⟩
  | none => exact ⟨_, exec_aead ho ((checkCommand_aead_none_iff ho hs).mp hc), rfl, rfl⟩

/-- A command on a ready block that ends with ERR = 1 has taken the fault entry. -/
theorem exec_keyZeroed_of_err {i : Instr} {s t : State} (hs : Ready s) (h : exec i s = .next t) (ht : t.err = true) :
    KeyZeroed t := by
  rcases exec_err h with ⟨hkept, -⟩ | ⟨c, -, rfl⟩
  · exact absurd ((hs.2.symm.trans hkept.symm).trans ht) Bool.false_ne_true
  · exact keyZeroed_faultEntry c s

/-- A command is PERM, HASH or HASHA unless it is an ENC or DEC (R92 to R95). -/
theorem perm_or_hashOf_of_not_aeadOf {i : Instr} (h : ∀ v, ¬ AeadOf v i) :
    (∃ r, i = .perm r) ∨ ∃ k, i = hashOf k := by
  cases i with
  | perm r => exact .inl ⟨r, rfl⟩
  | hash => exact .inr ⟨.hash, rfl⟩
  | hasha => exact .inr ⟨.hasha, rfl⟩
  | enc128 => exact absurd (.inl rfl) (h .v128)
  | enc128a => exact absurd (.inl rfl) (h .v128a)
  | enc80pq => exact absurd (.inl rfl) (h .v80pq)
  | dec128 => exact absurd (.inr rfl) (h .v128)
  | dec128a => exact absurd (.inr rfl) (h .v128a)
  | dec80pq => exact absurd (.inr rfl) (h .v80pq)

/-- PERM, HASH and HASHA without a fault keep the key: part of their frames. -/
theorem exec_keeps_key {i : Instr} {s t : State} (hi : ∀ v, ¬ AeadOf v i) (h : exec i s = .next t)
    (herr : t.err = s.err) : t.key = s.key ∧ t.keyLen = s.keyLen := by
  rcases perm_or_hashOf_of_not_aeadOf hi with ⟨r, rfl⟩ | ⟨k, rfl⟩
  · obtain ⟨-, -, hkept, -⟩ := permFrame r s t h
    obtain ⟨hkey, hkeyLen, -⟩ := hkept herr
    exact ⟨hkey, hkeyLen⟩
  · obtain ⟨-, -, hkept, -⟩ := hashFrame k s t h
    obtain ⟨hkey, hkeyLen, -⟩ := hkept herr
    exact ⟨hkey, hkeyLen⟩

/-- Settles O49: the release of ENC and DEC, fault entry and RESET zero the key; the frames of the others keep it. -/
theorem keyDoesNotPersist : Obligations.KeyDoesNotPersist :=
  ⟨fun _ _ _ hi hs => hi.exec_keyZeroed hs, fun _ _ _ hs h ht => exec_keyZeroed_of_err hs h ht,
    fun _ _ _ hi h herr => exec_keeps_key hi h herr,
    fun s hin => ⟨_, step_of_reset hin, keyZeroed_resetEvent (popEvent s)⟩⟩

end Sys2Proof.Machine
